-- ==== Sys2Proof/Word.lean ====
section
/-! DEFINITION. The values of the block (00_scope.md R10, R11): bytes, u16, u32, byte strings. -/

namespace Sys2Proof

/-- A byte, 0..255 (R10). -/
abbrev Byte := BitVec 8

/-- A `u16` (R10). -/
abbrev U16 := BitVec 16

/-- A `u32` (R10). -/
abbrev U32 := BitVec 32

/-- A byte string; index 0 travels first (00_scope.md R11, 20_memory.md R61). -/
abbrev Bytes := List Byte

end Sys2Proof
end

