-- ==== Sys2Proof/Syntax.lean ====
section
/-! DEFINITION. The commands of the block: one constructor for each row of spec/opcode_table.json
(30_encoding.md R82), with the operands of its format (R81). -/

namespace Sys2Proof

/-- A command and its operands. A byte string `s` or `d` carries its own length n (R81). -/
inductive Instr
  /-- `RESET`, format N (44_control.md R220). -/
  | reset
  /-- `CFG_RD idx`, format R (R221). -/
  | cfgRd (idx : Byte)
  /-- `CFG_WR idx, v`, format W (R222). -/
  | cfgWr (idx : Byte) (v : U32)
  /-- `CRC_INIT`, format N (40_checksum.md R126). -/
  | crcInit
  /-- `CRC_UPDATE b`, format B (R127). -/
  | crcUpdate (b : Byte)
  /-- `CRC_READ`, format N (R128). -/
  | crcRead
  /-- `CRC_COMPUTE s`, format S (R129). -/
  | crcCompute (str : Bytes)
  /-- `LRC_INIT`, format N (R130). -/
  | lrcInit
  /-- `LRC_UPDATE b`, format B (R131). -/
  | lrcUpdate (b : Byte)
  /-- `LRC_READ`, format N (R132). -/
  | lrcRead
  /-- `LRC_COMPUTE s`, format S (R133). -/
  | lrcCompute (str : Bytes)
  /-- `ENC_ASCII a, f, d`, format M (41_frame_codec.md R140). -/
  | encAscii (a f : Byte) (d : Bytes)
  /-- `ENC_RTU a, f, d`, format M (R141). -/
  | encRtu (a f : Byte) (d : Bytes)
  /-- `DEC_ASCII_FRAME s`, format S (R144). -/
  | decAsciiFrame (str : Bytes)
  /-- `DEC_RTU_CAND k, s`, format K (R145). -/
  | decRtuCand (k : Byte) (str : Bytes)
  /-- `PDEC_ASCII s`, format S (43_protocol_decoder.md R202). -/
  | pdecAscii (str : Bytes)
  /-- `PDEC_RTU s`, format S (R200). -/
  | pdecRtu (str : Bytes)
  /-- `PDEC_RESET`, format N (R205). -/
  | pdecReset
  /-- `FR_START`, format N (42_byte_framer.md R174). -/
  | frStart
  /-- `FR_STOP`, format N (R175). -/
  | frStop
  /-- `FR_SEND s`, format S (R176). -/
  | frSend (str : Bytes)
  /-- `FR_RECV t`, format T (R177). -/
  | frRecv (t : U32)
  /-- `FR_FLUSH`, format N (R178). -/
  | frFlush
  deriving DecidableEq, Repr

end Sys2Proof
end

