-- ==== Sys2Proof/WellFormed.lean ====
section
/-! DEFINITION. Which commands a command frame can carry: the length field n of formats S, K and M is a u16
(30_encoding.md R81). Every other operand fills its field, so no other check is needed (R101). -/

namespace Sys2Proof

/-- The length of a byte-string operand fits the u16 field n (R81). -/
def strFits (s : Bytes) : Bool := decide (s.length < 65536)

/-- A command that some command frame carries. -/
def Instr.wellFormed : Instr → Bool
  | .reset => true
  | .cfgRd _ => true
  | .cfgWr _ _ => true
  | .crcInit => true
  | .crcUpdate _ => true
  | .crcRead => true
  | .crcCompute s => strFits s
  | .lrcInit => true
  | .lrcUpdate _ => true
  | .lrcRead => true
  | .lrcCompute s => strFits s
  | .encAscii _ _ d => strFits d
  | .encRtu _ _ d => strFits d
  | .decAsciiFrame s => strFits s
  | .decRtuCand _ s => strFits s
  | .pdecAscii s => strFits s
  | .pdecRtu s => strFits s
  | .pdecReset => true
  | .frStart => true
  | .frStop => true
  | .frSend s => strFits s
  | .frRecv _ => true
  | .frFlush => true

end Sys2Proof
end

