-- ==== Sys2Proof/Decode.lean ====
section
/-! DEFINITION. Command frames: the byte order of the command port (20_memory.md R65, 30_encoding.md R93), the opcode map
(R82), the formats and frame lengths (R81, R102), the decoder, total on any bytes and rejecting by name (R99, R100), and
the encoder, written from the same tables. -/

namespace Sys2Proof

/-! ### Byte order of the command port -/

/-- A u16 field at bytes `p0, p1`: `p0 | p1 << 8` (R93). -/
def u16OfLe (p0 p1 : Byte) : U16 := p0.setWidth 16 ||| (p1.setWidth 16 <<< 8)

/-- A u32 field at bytes `p0..p3`: `p0 | p1 << 8 | p2 << 16 | p3 << 24` (R93). -/
def u32OfLe (p0 p1 p2 p3 : Byte) : U32 :=
  p0.setWidth 32 ||| (p1.setWidth 32 <<< 8) ||| (p2.setWidth 32 <<< 16) ||| (p3.setWidth 32 <<< 24)

/-- The two bytes of a u16, least significant first: `v[7:0], v[15:8]` (R65, R84). -/
def le16 (v : U16) : Bytes := [v.extractLsb' 0 8, v.extractLsb' 8 8]

/-- The four bytes of a u32, least significant first (R65, R84). -/
def le32 (v : U32) : Bytes := [v.extractLsb' 0 8, v.extractLsb' 8 8, v.extractLsb' 16 8, v.extractLsb' 24 8]

/-- A length n as its u16 field, then the n bytes (R81; the STR layout of R84). -/
def lenPrefixed (s : Bytes) : Bytes := le16 (BitVec.ofNat 16 s.length) ++ s

/-! ### Formats and the opcode map -/

/-- The command formats of R81. -/
inductive Format
  | N
  | B
  | R
  | W
  | T
  | S
  | K
  | M
  deriving DecidableEq, Repr

/-- The opcode map's format column (R82); `none` for an illegal opcode (R99). -/
def formatOf (opc : Byte) : Option Format :=
  match opc.toNat with
  | 0x01 => some .N
  | 0x02 => some .R
  | 0x03 => some .W
  | 0x10 => some .N
  | 0x11 => some .B
  | 0x12 => some .N
  | 0x13 => some .S
  | 0x18 => some .N
  | 0x19 => some .B
  | 0x1A => some .N
  | 0x1B => some .S
  | 0x20 => some .M
  | 0x21 => some .M
  | 0x28 => some .S
  | 0x29 => some .K
  | 0x30 => some .S
  | 0x31 => some .S
  | 0x32 => some .N
  | 0x40 => some .N
  | 0x41 => some .N
  | 0x42 => some .S
  | 0x43 => some .T
  | 0x44 => some .N
  | _ => none

/-- The command frame length (R102): fixed for N, B, R, W and T; 3+n, 4+n or 5+n for S, K and M, with the u16 n at
offsets 1, 2 and 3. `none` when there is no legal opcode, or the frame ends before its length field. -/
def frameLength (frame : Bytes) : Option Nat :=
  match frame with
  | [] => none
  | opc :: rest =>
    match formatOf opc with
    | none => none
    | some .N => some 1
    | some .B => some 2
    | some .R => some 2
    | some .W => some 6
    | some .T => some 5
    | some .S => match rest with
      | n0 :: n1 :: _ => some (3 + (u16OfLe n0 n1).toNat)
      | _ => none
    | some .K => match rest with
      | _ :: n0 :: n1 :: _ => some (4 + (u16OfLe n0 n1).toNat)
      | _ => none
    | some .M => match rest with
      | _ :: _ :: n0 :: n1 :: _ => some (5 + (u16OfLe n0 n1).toNat)
      | _ => none

/-! ### The decoder -/

/-- Why a command frame is no command. -/
inductive Reject
  /-- The opcode byte is not in the opcode map (R99): status `ERR_ILLEGAL`. -/
  | illegal
  /-- The frame's length is not its format's length, or the frame is empty (R100): status `ERR_FORMAT`. -/
  | malformed
  deriving DecidableEq, Repr

/-- A frame of format N after its opcode: nothing. -/
def fieldsN (rest : Bytes) (i : Instr) : Except Reject Instr :=
  match rest with
  | [] => .ok i
  | _ => .error .malformed

/-- A frame of format B or R after its opcode: one byte. -/
def fieldsB (rest : Bytes) (mk : Byte → Instr) : Except Reject Instr :=
  match rest with
  | [b] => .ok (mk b)
  | _ => .error .malformed

/-- A frame of format W after its opcode: idx, then the u32 v. -/
def fieldsW (rest : Bytes) (mk : Byte → U32 → Instr) : Except Reject Instr :=
  match rest with
  | [idx, p0, p1, p2, p3] => .ok (mk idx (u32OfLe p0 p1 p2 p3))
  | _ => .error .malformed

/-- A frame of format T after its opcode: the u32 t. -/
def fieldsT (rest : Bytes) (mk : U32 → Instr) : Except Reject Instr :=
  match rest with
  | [p0, p1, p2, p3] => .ok (mk (u32OfLe p0 p1 p2 p3))
  | _ => .error .malformed

/-- A frame of format S after its opcode: the u16 n, then exactly n bytes. -/
def fieldsS (rest : Bytes) (mk : Bytes → Instr) : Except Reject Instr :=
  match rest with
  | n0 :: n1 :: s => if s.length = (u16OfLe n0 n1).toNat then .ok (mk s) else .error .malformed
  | _ => .error .malformed

/-- A frame of format K after its opcode: k, the u16 n, then exactly n bytes. -/
def fieldsK (rest : Bytes) (mk : Byte → Bytes → Instr) : Except Reject Instr :=
  match rest with
  | k :: rest' => fieldsS rest' (mk k)
  | _ => .error .malformed

/-- A frame of format M after its opcode: a, f, the u16 n, then exactly n bytes. -/
def fieldsM (rest : Bytes) (mk : Byte → Byte → Bytes → Instr) : Except Reject Instr :=
  match rest with
  | a :: f :: rest' => fieldsS rest' (mk a f)
  | _ => .error .malformed

/-- The decoder: the opcode alone selects the command and its format (R80, R82), and the frame must have its format's
length (R100). -/
def decode (frame : Bytes) : Except Reject Instr :=
  match frame with
  | [] => .error .malformed
  | opc :: rest =>
    match opc.toNat with
    | 0x01 => fieldsN rest .reset
    | 0x02 => fieldsB rest .cfgRd
    | 0x03 => fieldsW rest .cfgWr
    | 0x10 => fieldsN rest .crcInit
    | 0x11 => fieldsB rest .crcUpdate
    | 0x12 => fieldsN rest .crcRead
    | 0x13 => fieldsS rest .crcCompute
    | 0x18 => fieldsN rest .lrcInit
    | 0x19 => fieldsB rest .lrcUpdate
    | 0x1A => fieldsN rest .lrcRead
    | 0x1B => fieldsS rest .lrcCompute
    | 0x20 => fieldsM rest .encAscii
    | 0x21 => fieldsM rest .encRtu
    | 0x28 => fieldsS rest .decAsciiFrame
    | 0x29 => fieldsK rest .decRtuCand
    | 0x30 => fieldsS rest .pdecAscii
    | 0x31 => fieldsS rest .pdecRtu
    | 0x32 => fieldsN rest .pdecReset
    | 0x40 => fieldsN rest .frStart
    | 0x41 => fieldsN rest .frStop
    | 0x42 => fieldsS rest .frSend
    | 0x43 => fieldsT rest .frRecv
    | 0x44 => fieldsN rest .frFlush
    | _ => .error .illegal

/-! ### The encoder -/

/-- The command frame of a command (R81, R82): the words of a well-formed command. -/
def encode : Instr → Bytes
  | .reset => [0x01#8]
  | .cfgRd idx => [0x02#8, idx]
  | .cfgWr idx v => 0x03#8 :: idx :: le32 v
  | .crcInit => [0x10#8]
  | .crcUpdate b => [0x11#8, b]
  | .crcRead => [0x12#8]
  | .crcCompute s => 0x13#8 :: lenPrefixed s
  | .lrcInit => [0x18#8]
  | .lrcUpdate b => [0x19#8, b]
  | .lrcRead => [0x1A#8]
  | .lrcCompute s => 0x1B#8 :: lenPrefixed s
  | .encAscii a f d => 0x20#8 :: a :: f :: lenPrefixed d
  | .encRtu a f d => 0x21#8 :: a :: f :: lenPrefixed d
  | .decAsciiFrame s => 0x28#8 :: lenPrefixed s
  | .decRtuCand k s => 0x29#8 :: k :: lenPrefixed s
  | .pdecAscii s => 0x30#8 :: lenPrefixed s
  | .pdecRtu s => 0x31#8 :: lenPrefixed s
  | .pdecReset => [0x32#8]
  | .frStart => [0x40#8]
  | .frStop => [0x41#8]
  | .frSend s => 0x42#8 :: lenPrefixed s
  | .frRecv t => 0x43#8 :: le32 t
  | .frFlush => [0x44#8]

/-! ### The opcode table's bits -/

/-- The first `n` bytes of the number `w`, bits 7..0 first. -/
def bytesOfNat : Nat → Nat → Bytes
  | 0, _ => []
  | n + 1, w => BitVec.ofNat 8 w :: bytesOfNat n (w / 256)

/-- The command frame whose first bytes are the table's bits of `w`, as spec/opcode_table.json numbers them (byte 0 is bits
7..0), and whose later bytes, up to its format's length (R102), are zeros (log 7). -/
def frameOfTableWord (nbits w : Nat) : Bytes :=
  let head := bytesOfNat ((nbits + 7) / 8) w
  match frameLength (head ++ List.replicate 5 0#8) with
  | none => head
  | some n => head ++ List.replicate (n - head.length) 0#8

/-- The command the decoder reads from a table word. -/
def decodeTableWord (nbits w : Nat) : Option Instr :=
  match decode (frameOfTableWord nbits w) with
  | .ok i => some i
  | .error _ => none

end Sys2Proof
end

