-- ==== Sys2Proof/Config.lean ====
section
/-! DEFINITION. The implementation parameters of the block (00_scope.md R7 to R9). They are no state (10_state.md R23):
fixed for a model instance, an argument of every claim. -/

namespace Sys2Proof

/-- What the reader does with a completed chunk when the queue is full (R7, 42_byte_framer.md R169). -/
inductive QFullPolicy
  | block
  | drop
  | fault
  deriving DecidableEq, Repr

/-- The nine RTU length hypotheses (30_encoding.md R95): `Fn` a fixed data length n, `VL` a byte-count field
after L leading data bytes. -/
inductive Hyp
  | f0
  | f1
  | f2
  | f3
  | f4
  | f6
  | v0
  | v4
  | v8
  deriving DecidableEq, Repr

/-- The spec default of `RTU_HYP_ORDER` (R7, 43_protocol_decoder.md R200). -/
def Hyp.defaultOrder : List Hyp := [.f0, .f1, .f2, .f3, .f4, .f6, .v0, .v4, .v8]

/-- The parameters of R7. `TIME_BITS` and `CNT_BITS` are fixed at 32 and stand in the widths of `Block`. -/
structure Params where
  /-- `CHUNK_MAX`: bytes the reader's chunk buffer holds. -/
  chunkMax : Nat
  /-- `QDEPTH`: chunks the queue holds. -/
  qdepth : Nat
  /-- `QFULL_POLICY`. -/
  qfullPolicy : QFullPolicy
  /-- `RTU_HYP_ORDER`: the hypotheses in the order they are tried. -/
  hypOrder : List Hyp
  /-- `ASCII_REM_MAX`: bytes the ASCII decoder's remainder holds. -/
  asciiRemMax : Nat
  /-- `OPER_MAX`: longest byte-string operand a command accepts. -/
  operMax : Nat
  /-- `TICK_PERIOD`, in a unit of real time of the reader's choice (log 8). No rule of the block depends on it. -/
  tickPeriod : Nat
  deriving DecidableEq, Repr

/-- The legal ranges of R7 and the constraint `CHUNK_MAX <= OPER_MAX` of R9. The last bound is not R7's, whose range for
`TICK_PERIOD` is "any". DESIGN CHOICE (log 8), safe: a tick lasts at least one of the chosen units, so that the division of R290
has a value. -/
abbrev Params.Legal (p : Params) : Prop :=
  1 ≤ p.chunkMax ∧ p.chunkMax ≤ p.operMax ∧ p.operMax ≤ 32763 ∧
  1 ≤ p.qdepth ∧ p.qdepth ≤ 65535 ∧
  2 ≤ p.asciiRemMax ∧ p.asciiRemMax ≤ 65535 ∧
  p.hypOrder.Perm Hyp.defaultOrder ∧
  1 ≤ p.tickPeriod

/-- The instance of 95_test_vectors.md section 0, with the spec defaults of R7 for the policy and the order.
DESIGN CHOICE (log 3), unsafe where a claim rests on these numbers: R7 leaves them OPEN. -/
def Params.standard : Params where
  chunkMax := 256
  qdepth := 4
  qfullPolicy := .block
  hypOrder := Hyp.defaultOrder
  asciiRemMax := 513
  operMax := 1024
  tickPeriod := 1

/-- 70_reset_and_hazards.md R290: a timeout of `x` units of real time is `ceil(x / TICK_PERIOD)` ticks. -/
def Params.ticksFor (p : Params) (x : Nat) : Nat := (x + p.tickPeriod - 1) / p.tickPeriod

end Sys2Proof
end

