-- ==== Sys2Proof/Machine/State.lean ====
section
/-! DEFINITION. The state of the block (10_state.md R23), the environment it meets (R22, R48, 30_encoding.md R98), the results
it gives (R83, R84, R105), and the state after reset (10_state.md R49). -/

namespace Sys2Proof.Machine

/-! ### Framer and reader states -/

/-- `FSTATE` (10_state.md R35). -/
inductive FState
  | idle
  | running
  | stopped
  | faulted
  deriving DecidableEq, Repr

/-- `FCODE`: the cause of the framer fault (R36). -/
inductive FCode
  | none
  | transport
  | backpressure
  deriving DecidableEq, Repr

/-- `RSTATE`: the reader's state (R37). -/
inductive RState
  | off
  | waitFirst
  | accum
  | held
  deriving DecidableEq, Repr

/-! ### The block -/

/-- The state vector of R23, in its order. For a configuration register `none` is `UNSET`, which is no number (R30); for
`recv`, `none` is "no receive pending" and `some r` is `pending(r)` (R41). -/
structure Block where
  /-- `T_INIT` (R24). -/
  tInit : Option U32
  /-- `T_IB` (R25). -/
  tIb : Option U32
  /-- `PORT` (R26). -/
  port : Option U32
  /-- `BAUD` (R27). -/
  baud : Option U32
  /-- `DUPLEX` (R28). -/
  duplex : Option (BitVec 1)
  /-- `TERM` (R29). -/
  term : BitVec 1
  /-- `CRC_ACC` (R32). -/
  crcAcc : U16
  /-- `LRC_ACC`, the raw sum (R33). -/
  lrcAcc : Byte
  /-- `REM`, the ASCII decoder's carry-over remainder (R34). -/
  rem : Bytes
  /-- `FSTATE` (R35). -/
  fstate : FState
  /-- `FCODE` (R36). -/
  fcode : FCode
  /-- `RSTATE` (R37). -/
  rstate : RState
  /-- `CHUNK` (R38). -/
  chunk : Bytes
  /-- `ICNT` (R38). -/
  icnt : U32
  /-- `IBCNT` (R38). -/
  ibcnt : U32
  /-- `Q`, head first (R39). -/
  q : List Bytes
  /-- `RECV` (R41). -/
  recv : Option U32
  /-- `NOW` (R40). -/
  now : U32
  /-- `CNT_ASCII_DROP` (R42). -/
  cntAsciiDrop : U32
  /-- `CNT_RTU_DROP` (R42). -/
  cntRtuDrop : U32
  /-- `CNT_CHUNK_DROP` (R42). -/
  cntChunkDrop : U32
  deriving DecidableEq, Repr

/-- The reset value of every element (R49, 70_reset_and_hazards.md R270). -/
def Block.reset : Block where
  tInit := none
  tIb := none
  port := none
  baud := none
  duplex := none
  term := 0#1
  crcAcc := 0xFFFF#16
  lrcAcc := 0x00#8
  rem := []
  fstate := .idle
  fcode := .none
  rstate := .off
  chunk := []
  icnt := 0#32
  ibcnt := 0#32
  q := []
  recv := none
  now := 0#32
  cntAsciiDrop := 0#32
  cntRtuDrop := 0#32
  cntChunkDrop := 0#32

/-! ### Results -/

/-- A message `Msg(a, f, d, t)`, a value (R50). -/
structure Msg where
  addr : Byte
  func : Byte
  data : Bytes
  stamp : U32
  deriving DecidableEq, Repr

/-- The result statuses of 30_encoding.md R105. -/
inductive Status
  | ok
  | none
  | stopped
  | fault
  | errIllegal
  | errFormat
  | errLen
  | errBusy
  | errState
  | errCfg
  | errReg
  | errUnset
  deriving DecidableEq, Repr

/-- The result payloads of R84, the empty payload, and the FCODE byte of a `FAULT` (R83). -/
inductive Payload
  | empty
  | u8 (v : Byte)
  | u16 (v : U16)
  | u32 (v : U32)
  | str (s : Bytes)
  | msg (m : Msg)
  | cand (found : Option Msg) (rest : Bytes)
  | list (ms : List Msg)
  | fcode (c : FCode)
  deriving DecidableEq, Repr

/-! ### Registers of the index map -/

/-- The configuration registers, indices 0x00 to 0x05 (R46). -/
inductive CfgReg
  | tInit
  | tIb
  | port
  | baud
  | duplex
  | term
  deriving DecidableEq, Repr

/-- The read-only registers, indices 0x10 to 0x19 (R46). -/
inductive RoReg
  | status
  | qcount
  | now
  | cntAsciiDrop
  | cntRtuDrop
  | cntChunkDrop
  | remLen
  | crcAcc
  | lrcAcc
  | chunkLen
  deriving DecidableEq, Repr

/-- A register that `CFG_RD` can name (R46). -/
inductive Reg
  | cfg (r : CfgReg)
  | ro (r : RoReg)
  deriving DecidableEq, Repr

/-! ### The machine -/

/-- A turn: which agent's step comes next (R22, 30_encoding.md R98). -/
inductive Turn
  /-- The Host: the command port's next frame is taken. -/
  | host
  /-- The Clock: event Tick. -/
  | clock
  /-- The RX line: event RxByte with the line's next byte. -/
  | rxByte
  /-- The RX line: event RxError. -/
  | rxError
  deriving DecidableEq, Repr

/-- The whole machine: the block, its instance's parameters and its environment (log 1). -/
structure State where
  /-- The parameters of the instance (00_scope.md R7): no state, and no step changes them (log 3). -/
  par : Params
  /-- The block's state vector. -/
  blk : Block
  /-- The command frames the port has still to deliver, next first (30_encoding.md R80). -/
  cmds : List Bytes
  /-- The bytes the RX line has not yet delivered, next first (10_state.md R23, 42_byte_framer.md R164). -/
  rxLine : Bytes
  /-- The turns still to come, next first: the order the agents' steps interleave in (20_memory.md R71). -/
  sched : List Turn
  /-- The TX stream: every byte handed to the TX line, in order (10_state.md R48). -/
  tx : Bytes
  /-- The result frames emitted, in order (R48, 44_control.md R226). -/
  results : List Bytes
  deriving DecidableEq, Repr

/-- Why the machine stops with a fault: never. Nothing in the spec stops the block: an error is a result status, a counter or
the framer state `FAULTED` (60_exceptions.md R240), all of them next states. No constructor, so nobody raises one: safe. -/
inductive Fault
  deriving DecidableEq, Repr

/-- Why an instruction is refused. -/
inductive Refusal
  /-- Raised by `exec` for an instruction that has no meaning yet; safe. No arm raises it. -/
  | notModelled (mnemonic : String)
  deriving DecidableEq, Repr

/-- The reset state of the instance with parameters `p`: the block as R49 says, an empty line and TX stream (R271), and
nothing scheduled (log 5, log 7). -/
def State.resetWith (p : Params) : State where
  par := p
  blk := Block.reset
  cmds := []
  rxLine := []
  sched := []
  tx := []
  results := []

/-- The machine right after reset, with the instance of 95_test_vectors.md section 0 (log 3). -/
def State.reset : State := State.resetWith Params.standard

/-- The outcome of a step. -/
abbrev Result := Host.Outcome State Fault Refusal

end Sys2Proof.Machine
end

