-- ==== Sys2Proof/Machine/Ops.lean ====
section
/-! DEFINITION. The named operations every meaning goes through: result frames (30_encoding.md R83, R84, R105), the primitives
`return`, `raise`, `recv_done` and `emit_tx` (00_scope.md R12, 42_byte_framer.md R170), the queue and the completed chunk
(R168, R169), fault entry (R173) and the one way out of a fault (60_exceptions.md R248). -/

namespace Sys2Proof.Machine

/-! ### Result frames -/

/-- The status byte (R105). -/
def Status.code : Status → Byte
  | .ok => 0x00#8
  | .none => 0x01#8
  | .stopped => 0x02#8
  | .fault => 0x03#8
  | .errIllegal => 0x80#8
  | .errFormat => 0x81#8
  | .errLen => 0x82#8
  | .errBusy => 0x83#8
  | .errState => 0x84#8
  | .errCfg => 0x85#8
  | .errReg => 0x86#8
  | .errUnset => 0x87#8

/-- The encoding of `FCODE` (10_state.md R36). -/
def FCode.code : FCode → BitVec 2
  | .none => 0#2
  | .transport => 1#2
  | .backpressure => 2#2

/-- The MSG payload: a, f, the u32 time stamp, the u16 n, the n data bytes (R84). -/
def msgBytes (m : Msg) : Bytes := m.addr :: m.func :: (le32 m.stamp ++ lenPrefixed m.data)

/-- The payload of a result frame (R84). -/
def Payload.bytes : Payload → Bytes
  | .empty => []
  | .u8 v => [v]
  | .u16 v => le16 v
  | .u32 v => le32 v
  | .str s => lenPrefixed s
  | .msg m => msgBytes m
  | .cand none rest => 0x00#8 :: lenPrefixed rest
  | .cand (some m) rest => 0x01#8 :: (msgBytes m ++ lenPrefixed rest)
  | .list ms => le16 (BitVec.ofNat 16 ms.length) ++ ms.flatMap msgBytes
  | .fcode c => [c.code.setWidth 8]

/-- A result frame: byte 0 the status, then the payload (R83). -/
def resultFrame (st : Status) (p : Payload) : Bytes := st.code :: p.bytes

/-! ### Updates of the machine -/

/-- Replace the block's state vector and nothing else. -/
def State.setBlk (s : State) (b : Block) : State := { s with blk := b }

/-- Emit one result frame on the result port. -/
def State.emit (s : State) (st : Status) (p : Payload) : State :=
  { s with results := s.results ++ [resultFrame st p] }

/-- `emit_tx(s)`: hand all bytes, in order, to the TX line in one step (00_scope.md R12, 20_memory.md R68). -/
def State.emitTx (s : State) (bs : Bytes) : State := { s with tx := s.tx ++ bs }

/-- `return (st, p)` (R12). -/
def ret (st : Status) (p : Payload) (s : State) : Result := .next (s.emit st p)

/-- `raise st`: the command ends with status st, an empty payload and no state change (R12). -/
def raise (st : Status) (s : State) : Result := .next (s.emit st .empty)

/-! ### The pending receive -/

/-- `recv_done(st, p)` (42_byte_framer.md R170). -/
def recvDone (st : Status) (p : Payload) (s : State) : State :=
  (s.setBlk { s.blk with recv := none }).emit st p

/-- `if RECV = pending(r): recv_done(st, p)`, as `enter_fault`, `FR_STOP` and `RESET` do (R173, R175, 44_control.md R220). -/
def wakeReceiver (st : Status) (p : Payload) (s : State) : State :=
  match s.blk.recv with
  | none => s
  | some _ => recvDone st p s

/-! ### Taking a fault, and leaving one -/

/-- `enter_fault(code)` (42_byte_framer.md R173, 60_exceptions.md R243): the framer is faulted, the partial or held chunk is
lost, a pending receive ends with `FAULT`, `Q` is kept. -/
def enterFault (code : FCode) (s : State) : State :=
  wakeReceiver .fault (.fcode code)
    (s.setBlk { s.blk with fstate := .faulted, fcode := code, rstate := .off, chunk := [], icnt := 0#32, ibcnt := 0#32 })

/-- The reset of the block, the one way out of `FAULTED` (60_exceptions.md R248): a pending receive completes with `STOPPED`
first, then every element takes its reset value (44_control.md R220). The environment is left as it is (R271). -/
def resetBlock (s : State) : State := (wakeReceiver .stopped .empty s).setBlk Block.reset

/-! ### The queue -/

/-- `queue_full(c)` (42_byte_framer.md R169). -/
def queueFull (c : Bytes) (s : State) : State :=
  match s.par.qfullPolicy with
  | .block => s.setBlk { s.blk with chunk := c, rstate := .held }
  | .drop => s.setBlk { s.blk with cntChunkDrop := s.blk.cntChunkDrop + 1#32, rstate := .waitFirst }
  | .fault => enterFault .backpressure s

/-- `c <- CHUNK; CHUNK <- []; ICNT <- 0; IBCNT <- 0`: the reader gives up its completed chunk (R168). -/
def clearChunk (b : Block) : Block := { b with chunk := [], icnt := 0#32, ibcnt := 0#32 }

/-- `complete()` (R168): the completed chunk goes to a waiting receive, else into the queue, else to `queue_full`. -/
def complete (s : State) : State :=
  let c := s.blk.chunk
  let b := clearChunk s.blk
  match b.recv with
  | some _ => recvDone .ok (.str c) (s.setBlk { b with rstate := .waitFirst })
  | none =>
    if b.q.length < s.par.qdepth then
      s.setBlk { b with q := b.q ++ [c], rstate := .waitFirst }
    else
      queueFull c (s.setBlk b)

end Sys2Proof.Machine
end

