-- ==== Sys2Proof/Machine/Flags.lean ====
section
/-! DEFINITION. The block's only flags: the `STATUS` word, a view of other state with no storage of its own
(10_state.md R43, R51). -/

namespace Sys2Proof.Machine

/-- The encoding of `FSTATE` (10_state.md R35). -/
def FState.code : FState → BitVec 2
  | .idle => 0#2
  | .running => 1#2
  | .stopped => 2#2
  | .faulted => 3#2

/-- The encoding of `RSTATE` (R37). -/
def RState.code : RState → BitVec 2
  | .off => 0#2
  | .waitFirst => 1#2
  | .accum => 2#2
  | .held => 3#2

/-- `RXP`: a receive is pending. -/
def flagRxp (b : Block) : Bool := b.recv.isSome

/-- `QFULL`: `|Q| = QDEPTH`. -/
def flagQfull (p : Params) (b : Block) : Bool := decide (b.q.length = p.qdepth)

/-- `QNE`: `|Q| >= 1`. -/
def flagQne (b : Block) : Bool := decide (1 ≤ b.q.length)

/-- `REMNE`: `|REM| >= 1`. -/
def flagRemne (b : Block) : Bool := decide (1 ≤ b.rem.length)

/-- `STATUS`, its fields from bit 31 down to bit 0 as the table of R43 lays them out. -/
def statusWord (p : Params) (b : Block) : U32 :=
  0#21 ++ b.term ++ BitVec.ofBool (flagRemne b) ++ BitVec.ofBool (flagQne b) ++ BitVec.ofBool (flagQfull p b) ++
    BitVec.ofBool (flagRxp b) ++ b.rstate.code ++ b.fcode.code ++ b.fstate.code

end Sys2Proof.Machine
end

