-- ==== Sys2Proof/Machine/Operands.lean ====
section
/-! DEFINITION. The operand forms: a register index (10_state.md R46) with the reads and writes of the register it names, and
a byte string with its length limit (00_scope.md R7, 30_encoding.md R105). Bytes, u32 values and timeouts are taken whole from
the frame (30_encoding.md R101). -/

namespace Sys2Proof.Machine

/-! ### Register indices -/

/-- The configuration registers' indices (R46). -/
def CfgReg.ofIndex (idx : Byte) : Option CfgReg :=
  match idx.toNat with
  | 0x00 => some .tInit
  | 0x01 => some .tIb
  | 0x02 => some .port
  | 0x03 => some .baud
  | 0x04 => some .duplex
  | 0x05 => some .term
  | _ => none

/-- The read-only registers' indices (R46). -/
def RoReg.ofIndex (idx : Byte) : Option RoReg :=
  match idx.toNat with
  | 0x10 => some .status
  | 0x11 => some .qcount
  | 0x12 => some .now
  | 0x13 => some .cntAsciiDrop
  | 0x14 => some .cntRtuDrop
  | 0x15 => some .cntChunkDrop
  | 0x16 => some .remLen
  | 0x17 => some .crcAcc
  | 0x18 => some .lrcAcc
  | 0x19 => some .chunkLen
  | _ => none

/-- The register at an index; `none` for a reserved index (R46). -/
def Reg.ofIndex (idx : Byte) : Option Reg :=
  match CfgReg.ofIndex idx with
  | some r => some (.cfg r)
  | none =>
    match RoReg.ofIndex idx with
    | some r => some (.ro r)
    | none => none

/-! ### Reading -/

/-- A configuration register's value, zero-extended; `none` when it is `UNSET` (R30, R46). -/
def readCfg (r : CfgReg) (b : Block) : Option U32 :=
  match r with
  | .tInit => b.tInit
  | .tIb => b.tIb
  | .port => b.port
  | .baud => b.baud
  | .duplex => b.duplex.map (fun v => v.setWidth 32)
  | .term => some (b.term.setWidth 32)

/-- A read-only register's value, zero-extended; the computed ones from the state at the time of the read (R43 to R46). -/
def readRo (r : RoReg) (s : State) : U32 :=
  match r with
  | .status => statusWord s.par s.blk
  | .qcount => BitVec.ofNat 32 s.blk.q.length
  | .now => s.blk.now
  | .cntAsciiDrop => s.blk.cntAsciiDrop
  | .cntRtuDrop => s.blk.cntRtuDrop
  | .cntChunkDrop => s.blk.cntChunkDrop
  | .remLen => BitVec.ofNat 32 s.blk.rem.length
  | .crcAcc => s.blk.crcAcc.setWidth 32
  | .lrcAcc => s.blk.lrcAcc.setWidth 32
  | .chunkLen => BitVec.ofNat 32 s.blk.chunk.length

/-- A register's value; `none` when it is `UNSET`. -/
def readReg (r : Reg) (s : State) : Option U32 :=
  match r with
  | .cfg r => readCfg r s.blk
  | .ro r => some (readRo r s)

/-! ### Writing -/

/-- The values a configuration register accepts (R24 to R29, 44_control.md R222). -/
def CfgReg.accepts (r : CfgReg) (v : U32) : Bool :=
  match r with
  | .tInit => true
  | .tIb => decide (v ≠ 0#32)
  | .port => true
  | .baud => decide (v ≠ 0#32)
  | .duplex => decide (v = 0#32 ∨ v = 1#32)
  | .term => decide (v = 0#32 ∨ v = 1#32)

/-- `register[idx] <- v` (R222): the value takes the place of `UNSET` or of the value before (R30). -/
def writeCfg (r : CfgReg) (v : U32) (b : Block) : Block :=
  match r with
  | .tInit => { b with tInit := some v }
  | .tIb => { b with tIb := some v }
  | .port => { b with port := some v }
  | .baud => { b with baud := some v }
  | .duplex => { b with duplex := some (v.setWidth 1) }
  | .term => { b with term := v.setWidth 1 }

/-- A register that `FR_START` requires is `UNSET` (42_byte_framer.md R174, R273). -/
def configIncomplete (b : Block) : Bool :=
  b.tInit.isNone || b.tIb.isNone || b.port.isNone || b.baud.isNone || b.duplex.isNone

/-! ### Byte strings -/

/-- `if |s| > OPER_MAX: raise ERR_LEN`, the first check of every format S, K and M command (44_control.md R225); otherwise
`next`. -/
def withOperand (str : Bytes) (s : State) (next : Result) : Result :=
  if str.length > s.par.operMax then raise .errLen s else next

end Sys2Proof.Machine
end

