-- ==== Sys2Proof/Machine/Checksum.lean ====
section
/-! DEFINITION. The CRC-16 and LRC generators and their eight commands (40_checksum.md). -/

namespace Sys2Proof.Machine

/-! ### CRC-16 -/

/-- One round of the loop of R120: shift right, and XOR 0xA001 when the bit shifted out is 1. -/
def crcShift (c : U16) : U16 := if c.getLsbD 0 then (c >>> 1) ^^^ 0xA001#16 else c >>> 1

/-- `n` rounds. -/
def crcShifts : Nat → U16 → U16
  | 0, c => c
  | n + 1, c => crcShifts n (crcShift c)

/-- `crc_step(c, b)` (R120). -/
def crcStep (c : U16) (b : Byte) : U16 := crcShifts 8 (c ^^^ b.setWidth 16)

/-- The loop of R121 from accumulator `c`. -/
def crcFrom (c : U16) (s : Bytes) : U16 := s.foldl crcStep c

/-- `crc16(s)` (R121): initial value 0xFFFF, no final XOR. -/
def crc16 (s : Bytes) : U16 := crcFrom 0xFFFF#16 s

/-! ### LRC -/

/-- The unsigned byte sum modulo 256 (R124). -/
def byteSum (s : Bytes) : Byte := s.foldl (fun acc b => acc + b) 0#8

/-- `(256 - sum) mod 256` (R124, R132). -/
def lrcOfSum (sum : Byte) : Byte := 0#8 - sum

/-- `lrc(s)` (R124). -/
def lrc (s : Bytes) : Byte := lrcOfSum (byteSum s)

/-! ### CRC commands -/

/-- `CRC_INIT` (R126). -/
def execCrcInit (s : State) : Result := ret .ok .empty (s.setBlk { s.blk with crcAcc := 0xFFFF#16 })

/-- `CRC_UPDATE b` (R127). -/
def execCrcUpdate (b : Byte) (s : State) : Result :=
  ret .ok .empty (s.setBlk { s.blk with crcAcc := crcStep s.blk.crcAcc b })

/-- `CRC_READ` (R128). -/
def execCrcRead (s : State) : Result := ret .ok (.u16 s.blk.crcAcc) s

/-- `CRC_COMPUTE s` (R129). -/
def execCrcCompute (str : Bytes) (s : State) : Result := withOperand str s (ret .ok (.u16 (crc16 str)) s)

/-! ### LRC commands -/

/-- `LRC_INIT` (R130). -/
def execLrcInit (s : State) : Result := ret .ok .empty (s.setBlk { s.blk with lrcAcc := 0x00#8 })

/-- `LRC_UPDATE b` (R131). -/
def execLrcUpdate (b : Byte) (s : State) : Result :=
  ret .ok .empty (s.setBlk { s.blk with lrcAcc := s.blk.lrcAcc + b })

/-- `LRC_READ` (R132). -/
def execLrcRead (s : State) : Result := ret .ok (.u8 (lrcOfSum s.blk.lrcAcc)) s

/-- `LRC_COMPUTE s` (R133). -/
def execLrcCompute (str : Bytes) (s : State) : Result := withOperand str s (ret .ok (.u8 (lrc str)) s)

end Sys2Proof.Machine
end

