-- ==== Sys2Proof/Machine/Codec.lean ====
section
/-! DEFINITION. The frame codec (41_frame_codec.md): the ASCII and RTU wire formats (30_encoding.md R85, R86, R90 to R92), the
two single-frame decoders, and the four codec commands. -/

namespace Sys2Proof.Machine

/-- A decoded triple (a, f, d) (41_frame_codec.md R142, R143). -/
abbrev Triple := Byte × Byte × Bytes

/-- `Msg(a, f, d, t)` from a triple and a time stamp (10_state.md R50). -/
def Msg.ofTriple (m : Triple) (t : U32) : Msg := ⟨m.1, m.2.1, m.2.2, t⟩

/-! ### Characters and hex digits -/

/-- `":"` (30_encoding.md R90). -/
def chColon : Byte := 0x3A#8

/-- `"\r"` (R90). -/
def chCr : Byte := 0x0D#8

/-- `"\n"` (R90). -/
def chLf : Byte := 0x0A#8

/-- `D(v)`: the upper-case hex digit of a nibble (R91). -/
def hexDigit (v : BitVec 4) : Byte :=
  if v.toNat ≤ 9 then 0x30#8 + v.setWidth 8 else 0x41#8 + (v.setWidth 8 - 10#8)

/-- `hex2(b)`: the high nibble's digit, then the low nibble's (R91, 20_memory.md R63). -/
def hex2 (b : Byte) : Bytes := [hexDigit (b.extractLsb' 4 4), hexDigit (b.extractLsb' 0 4)]

/-- `unhex(c)`: the value 0..15 of a hex digit of either case (R92). -/
def unhex (c : Byte) : Option (BitVec 4) :=
  if 0x30 ≤ c.toNat ∧ c.toNat ≤ 0x39 then some ((c - 0x30#8).setWidth 4)
  else if 0x41 ≤ c.toNat ∧ c.toNat ≤ 0x46 then some ((c - 0x41#8 + 10#8).setWidth 4)
  else if 0x61 ≤ c.toNat ∧ c.toNat ≤ 0x66 then some ((c - 0x61#8 + 10#8).setWidth 4)
  else none

/-- The bytes of a string of digit pairs, each `unhex(c0) * 16 + unhex(c1)` (R92): the two nibbles side by side. `none` for an
odd number of digits, or when a byte is no hex digit (41_frame_codec.md R142). -/
def unhexPairs : Bytes → Option Bytes
  | [] => some []
  | [_] => none
  | c0 :: c1 :: rest =>
    match unhex c0, unhex c1, unhexPairs rest with
    | some v0, some v1, some bs => some ((v0 ++ v1) :: bs)
    | _, _, _ => none

/-! ### Encoders -/

/-- The ASCII frame of (a, f, d) (30_encoding.md R85). -/
def asciiFrame (a f : Byte) (d : Bytes) : Bytes :=
  chColon :: (((a :: f :: d) ++ [lrc (a :: f :: d)]).flatMap hex2 ++ [chCr, chLf])

/-- The RTU frame of (a, f, d): the CRC goes low byte first (R86, 20_memory.md R62). -/
def rtuFrame (a f : Byte) (d : Bytes) : Bytes := (a :: f :: d) ++ le16 (crc16 (a :: f :: d))

/-! ### Single-frame decoders -/

/-- What follows the last `":"`; `none` when there is no `":"`. -/
def afterLastColon : Bytes → Option Bytes
  | [] => none
  | b :: t =>
    match afterLastColon t with
    | some h => some h
    | none => if b = chColon then some t else none

/-- The decoded bytes of an ASCII frame as a, f, d and the LRC L: `B[0]`, `B[1]`, `B[2 .. m-1)`, `B[m-1]` (R142). -/
def splitBody : Bytes → Option (Triple × Byte)
  | a :: f :: x :: rest => some ((a, f, (x :: rest).dropLast), (x :: rest).getLast (List.cons_ne_nil x rest))
  | _ => none

/-- `ascii_parse(t)` (R142). -/
def asciiParse (t : Bytes) : Option Triple :=
  if t.length < 2 ∨ t.drop (t.length - 2) ≠ [chCr, chLf] then none
  else
    match afterLastColon (t.take (t.length - 2)) with
    | none => none
    | some h =>
      if h.length < 6 ∨ h.length % 2 = 1 then none
      else
        match unhexPairs h with
        | none => none
        | some body =>
          match splitBody body with
          | none => none
          | some ((a, f, d), l) => if l = lrc (a :: f :: d) then some (a, f, d) else none

/-- `rtu_candidate(s, k)` (R143): the candidate is the prefix of k + 4 bytes; a failed candidate gives s back unchanged. -/
def rtuCandidate (str : Bytes) (k : Nat) : Option Triple × Bytes :=
  if str.length < k + 4 then (none, str)
  else
    match str with
    | a :: f :: rest =>
      if (rest.drop k).take 2 = le16 (crc16 (str.take (2 + k))) then ((some (a, f, rest.take k)), str.drop (k + 4))
      else (none, str)
    | _ => (none, str)

/-! ### Codec commands -/

/-- `ENC_ASCII a, f, d` (R140). -/
def execEncAscii (a f : Byte) (d : Bytes) (s : State) : Result := withOperand d s (ret .ok (.str (asciiFrame a f d)) s)

/-- `ENC_RTU a, f, d` (R141). -/
def execEncRtu (a f : Byte) (d : Bytes) (s : State) : Result := withOperand d s (ret .ok (.str (rtuFrame a f d)) s)

/-- `DEC_ASCII_FRAME s` (R144): a frame that fails the pattern or the LRC is counted, never a message. -/
def execDecAsciiFrame (str : Bytes) (s : State) : Result :=
  withOperand str s
    (match asciiParse str with
    | none => ret .none .empty (s.setBlk { s.blk with cntAsciiDrop := s.blk.cntAsciiDrop + 1#32 })
    | some m => ret .ok (.msg (Msg.ofTriple m s.blk.now)) s)

/-- `DEC_RTU_CAND k, s` (R145): a failed test gives back s and counts nothing. -/
def execDecRtuCand (k : Byte) (str : Bytes) (s : State) : Result :=
  withOperand str s
    (match rtuCandidate str k.toNat with
    | (none, _) => ret .none (.cand none str) s
    | (some m, rest) => ret .ok (.cand (some (Msg.ofTriple m s.blk.now)) rest) s)

end Sys2Proof.Machine
end

