-- ==== Sys2Proof/Machine/Control.lean ====
section
/-! DEFINITION. The control commands (44_control.md R220 to R222). -/

namespace Sys2Proof.Machine

/-- `RESET` (R220). -/
def execReset (s : State) : Result := ret .ok .empty (resetBlock s)

/-- `CFG_RD idx` (R221). -/
def execCfgRd (idx : Byte) (s : State) : Result :=
  match Reg.ofIndex idx with
  | none => raise .errReg s
  | some r =>
    match readReg r s with
    | none => raise .errUnset s
    | some v => ret .ok (.u32 v) s

/-- `CFG_WR idx, v` (R222): the index is checked before the run state, the run state before the value (R225). -/
def execCfgWr (idx : Byte) (v : U32) (s : State) : Result :=
  match CfgReg.ofIndex idx with
  | none => raise .errReg s
  | some r =>
    if s.blk.fstate = .running then raise .errState s
    else if r.accepts v then ret .ok .empty (s.setBlk (writeCfg r v s.blk))
    else raise .errCfg s

end Sys2Proof.Machine
end

