-- ==== Sys2Proof/Machine/Decoder.lean ====
section
/-! DEFINITION. The protocol decoder (43_protocol_decoder.md): RTU length hypotheses (30_encoding.md R95, R96) tried in the
instance's order, the ASCII variant with its carry-over remainder, and the three decoder commands. -/

namespace Sys2Proof.Machine

/-! ### RTU -/

/-- Under `VL` the data length is L + 1 + the count byte at frame offset 2 + L; `none` when that byte is missing (R96). -/
def variableLen (leading : Nat) (buf : Bytes) : Option Nat :=
  match buf[2 + leading]? with
  | some count => some (leading + 1 + count.toNat)
  | none => none

/-- `datalen(h, s)` (R96). -/
def datalen (h : Hyp) (buf : Bytes) : Option Nat :=
  match h with
  | .f0 => some 0
  | .f1 => some 1
  | .f2 => some 2
  | .f3 => some 3
  | .f4 => some 4
  | .f6 => some 6
  | .v0 => variableLen 0 buf
  | .v4 => variableLen 4 buf
  | .v8 => variableLen 8 buf

/-- One hypothesis on a buffer: the message and the bytes after it, if its CRC validates (R200). -/
def tryHyp (buf : Bytes) (h : Hyp) : Option (Triple × Bytes) :=
  match datalen h buf with
  | none => none
  | some k =>
    match rtuCandidate buf k with
    | (some m, rest) => some (m, rest)
    | (none, _) => none

/-- The first hypothesis of the order that validates (R200). -/
def firstHyp (order : List Hyp) (buf : Bytes) : Option (Triple × Bytes) := order.findSome? (tryHyp buf)

/-- The loop of R200: the messages in order, and whether a rest was discarded. The fuel counts rounds; each round that finds
a message takes at least 4 bytes (R209), so a fuel of |buf| always suffices (log 10). -/
def rtuLoop (order : List Hyp) : Nat → Bytes → List Triple × Bool
  | 0, buf => ([], !buf.isEmpty)
  | fuel + 1, buf =>
    if buf.isEmpty then ([], false)
    else
      match firstHyp order buf with
      | some (m, rest) =>
        let r := rtuLoop order fuel rest
        (m :: r.1, r.2)
      | none => ([], true)

/-- The messages of one RTU burst, and whether its rest was discarded (R200). -/
def rtuDecode (order : List Hyp) (buf : Bytes) : List Triple × Bool := rtuLoop order buf.length buf

/-! ### ASCII -/

/-- The smallest index i with `buf[i] = "\r"` and `buf[i+1] = "\n"` (R202). -/
def crlfIndex : Bytes → Option Nat
  | [] => none
  | [_] => none
  | b0 :: b1 :: rest =>
    if b0 = chCr ∧ b1 = chLf then some 0
    else
      match crlfIndex (b1 :: rest) with
      | some i => some (i + 1)
      | none => none

/-- The loop of R202: the delimited spans, CR LF included, and what follows the last delimiter. Each round takes at least 2
bytes (R209), so a fuel of |buf| always suffices (log 10). -/
def asciiLoop : Nat → Bytes → List Bytes × Bytes
  | 0, buf => ([], buf)
  | fuel + 1, buf =>
    match crlfIndex buf with
    | none => ([], buf)
    | some i =>
      let r := asciiLoop fuel (buf.drop (i + 2))
      (buf.take (i + 2) :: r.1, r.2)

/-- The delimited spans of a buffer, and the rest. -/
def asciiSpans (buf : Bytes) : List Bytes × Bytes := asciiLoop buf.length buf

/-- The messages of a list of spans, in order (R203). -/
def spanMsgs (spans : List Bytes) : List Triple := spans.filterMap asciiParse

/-- How many spans yield no message: one drop each (R203). -/
def spanDrops (spans : List Bytes) : Nat := (spans.filter (fun t => (asciiParse t).isNone)).length

/-- A byte is a hex digit. -/
def isHex (c : Byte) : Bool := (unhex c).isSome

/-- What may follow the `":"` of a well-formed partial frame: hex digits, and one `"\r"` as the last byte (R204). -/
def partialTail : Bytes → Bool
  | [] => true
  | [c] => isHex c || decide (c = chCr)
  | c :: rest => isHex c && partialTail rest

/-- `keep_partial(t)` (R204), with `ASCII_REM_MAX = bound`: the last `":"` and what follows it, when that is well formed and
within the bound. -/
def keepPartial (bound : Nat) (t : Bytes) : Bytes :=
  match afterLastColon t with
  | none => []
  | some h => if partialTail h ∧ (chColon :: h).length ≤ bound then chColon :: h else []

/-! ### Decoder commands -/

/-- `PDEC_RTU s` (R200): every message is stamped with `NOW` (R206); a discarded rest counts one drop. -/
def execPdecRtu (str : Bytes) (s : State) : Result :=
  withOperand str s
    (let r := rtuDecode s.par.hypOrder str
     let drops := if r.2 then 1#32 else 0#32
     ret .ok (.list (r.1.map (fun m => Msg.ofTriple m s.blk.now)))
       (s.setBlk { s.blk with cntRtuDrop := s.blk.cntRtuDrop + drops }))

/-- `PDEC_ASCII s` (R202). -/
def execPdecAscii (str : Bytes) (s : State) : Result :=
  withOperand str s
    (let r := asciiSpans (s.blk.rem ++ str)
     ret .ok (.list ((spanMsgs r.1).map (fun m => Msg.ofTriple m s.blk.now)))
       (s.setBlk { s.blk with
          rem := keepPartial s.par.asciiRemMax r.2
          cntAsciiDrop := s.blk.cntAsciiDrop + BitVec.ofNat 32 (spanDrops r.1) }))

/-- `PDEC_RESET` (R205). -/
def execPdecReset (s : State) : Result := ret .ok .empty (s.setBlk { s.blk with rem := [] })

end Sys2Proof.Machine
end

