-- ==== Sys2Proof/Machine/Framer.lean ====
section
/-! DEFINITION. The five framer commands (42_byte_framer.md R174 to R178). -/

namespace Sys2Proof.Machine

/-- `FR_START` (R174): a restart from `STOPPED` keeps `Q`. -/
def execFrStart (s : State) : Result :=
  if s.blk.fstate = .running ∨ s.blk.fstate = .faulted then raise .errState s
  else if configIncomplete s.blk then raise .errCfg s
  else ret .ok .empty (s.setBlk { clearChunk s.blk with fstate := .running, rstate := .waitFirst })

/-- `FR_STOP` (R175): cancels the read in progress, wakes a pending receive with `STOPPED`, keeps `Q`. -/
def execFrStop (s : State) : Result :=
  if s.blk.fstate = .running then
    ret .ok .empty (wakeReceiver .stopped .empty
      (s.setBlk { clearChunk s.blk with fstate := .stopped, rstate := .off }))
  else ret .ok .empty s

/-- `FR_SEND s` (R176). -/
def execFrSend (str : Bytes) (s : State) : Result :=
  withOperand str s
    (match s.blk.fstate with
    | .faulted => ret .fault (.fcode s.blk.fcode) s
    | .running => ret .ok .empty (s.emitTx str)
    | .idle => raise .errState s
    | .stopped => raise .errState s)

/-- The queue after its head is popped to leave `q`: under `BLOCK` a held chunk moves into the freed place (R177). -/
def afterPop (q : List Bytes) (b : Block) : Block :=
  if b.rstate = .held then { b with q := q ++ [b.chunk], chunk := [], rstate := .waitFirst } else { b with q := q }

/-- `FR_RECV t` (R177): queued chunks first, in every state; otherwise by `FSTATE`; with t > 0 in `RUNNING` the receive
pends, and its result frame comes later (R170). -/
def execFrRecv (t : U32) (s : State) : Result :=
  match s.blk.recv with
  | some _ => raise .errBusy s
  | none =>
    match s.blk.q with
    | c :: q => ret .ok (.str c) (s.setBlk (afterPop q s.blk))
    | [] =>
      match s.blk.fstate with
      | .faulted => ret .fault (.fcode s.blk.fcode) s
      | .stopped => ret .stopped .empty s
      | .idle => raise .errState s
      | .running => if t = 0#32 then ret .none .empty s else .next (s.setBlk { s.blk with recv := some t })

/-- The reader's state after a flush: a fresh read call, or still off (R178). -/
def afterFlush (r : RState) : RState :=
  match r with
  | .accum => .waitFirst
  | .held => .waitFirst
  | .waitFirst => .waitFirst
  | .off => .off

/-- `FR_FLUSH` (R178): neither `REM`, nor the RX line, nor a pending receive is touched. -/
def execFrFlush (s : State) : Result :=
  ret .ok .empty (s.setBlk { clearChunk s.blk with q := [], rstate := afterFlush s.blk.rstate })

end Sys2Proof.Machine
end

