-- ==== Sys2Proof/Machine/Dispatch.lean ====
section
/-! DEFINITION. The one match from a command to its meaning (30_encoding.md R82). -/

namespace Sys2Proof.Machine

def exec (i : Instr) (s : State) : Host.Outcome State Fault Refusal :=
  match i with
  | .reset => Sys2Proof.Machine.execReset s
  | .cfgRd idx => Sys2Proof.Machine.execCfgRd idx s
  | .cfgWr idx v => Sys2Proof.Machine.execCfgWr idx v s
  | .crcInit => Sys2Proof.Machine.execCrcInit s
  | .crcUpdate b => Sys2Proof.Machine.execCrcUpdate b s
  | .crcRead => Sys2Proof.Machine.execCrcRead s
  | .crcCompute str => Sys2Proof.Machine.execCrcCompute str s
  | .lrcInit => Sys2Proof.Machine.execLrcInit s
  | .lrcUpdate b => Sys2Proof.Machine.execLrcUpdate b s
  | .lrcRead => Sys2Proof.Machine.execLrcRead s
  | .lrcCompute str => Sys2Proof.Machine.execLrcCompute str s
  | .encAscii a f d => Sys2Proof.Machine.execEncAscii a f d s
  | .encRtu a f d => Sys2Proof.Machine.execEncRtu a f d s
  | .decAsciiFrame str => Sys2Proof.Machine.execDecAsciiFrame str s
  | .decRtuCand k str => Sys2Proof.Machine.execDecRtuCand k str s
  | .pdecAscii str => Sys2Proof.Machine.execPdecAscii str s
  | .pdecRtu str => Sys2Proof.Machine.execPdecRtu str s
  | .pdecReset => Sys2Proof.Machine.execPdecReset s
  | .frStart => Sys2Proof.Machine.execFrStart s
  | .frStop => Sys2Proof.Machine.execFrStop s
  | .frSend str => Sys2Proof.Machine.execFrSend str s
  | .frRecv t => Sys2Proof.Machine.execFrRecv t s
  | .frFlush => Sys2Proof.Machine.execFrFlush s

end Sys2Proof.Machine
end

