-- ==== Sys2Proof/Machine/Reader.lean ====
section
/-! DEFINITION. The environment events (30_encoding.md R98): RxByte with its handshake, Tick, RxError
(42_byte_framer.md R160 to R167, R171, R172). Each is one indivisible step. -/

namespace Sys2Proof.Machine

/-- `rx_ready`: the line may deliver a byte (R164). -/
def rxReady (b : Block) : Bool := decide (b.rstate ≠ .held)

/-- `if |CHUNK| = CHUNK_MAX: complete()`: the buffer filled (R161, R162). -/
def completeIfFull (s : State) : State := if s.blk.chunk.length = s.par.chunkMax then complete s else s

/-- Event RxByte(b) (R161 to R163). In `HELD` it is not enabled, and nothing happens (R164). -/
def rxByte (x : Byte) (s : State) : State :=
  match s.blk.rstate with
  | .off => s
  | .held => s
  | .waitFirst => completeIfFull (s.setBlk { s.blk with chunk := [x], icnt := 0#32, ibcnt := 0#32, rstate := .accum })
  | .accum => completeIfFull (s.setBlk { s.blk with chunk := s.blk.chunk ++ [x], ibcnt := 0#32 })

/-- A turn of the RX line: its next byte is delivered when the block is ready for one; otherwise the line keeps its bytes
and the turn passes (R164, log 2). -/
def rxTurn (s : State) : State :=
  match s.rxLine with
  | [] => s
  | x :: line => if rxReady s.blk then rxByte x { s with rxLine := line } else s

/-- A count of ticks has reached a timeout. A timeout that is `UNSET` never fires (log 6): no reachable state asks. -/
def timeoutReached (count : U32) (timeout : Option U32) : Bool :=
  match timeout with
  | some t => decide (t.toNat ≤ count.toNat)
  | none => false

/-- `reader_tick` (R166, R167). -/
def readerTick (s : State) : State :=
  match s.blk.rstate with
  | .off => s
  | .held => s
  | .waitFirst =>
    let n := s.blk.icnt + 1#32
    s.setBlk { s.blk with icnt := if timeoutReached n s.blk.tInit then 0#32 else n }
  | .accum =>
    let n := s.blk.ibcnt + 1#32
    let s1 := s.setBlk { s.blk with ibcnt := n }
    if timeoutReached n s.blk.tIb then complete s1 else s1

/-- `recv_tick` (R171). -/
def recvTick (s : State) : State :=
  match s.blk.recv with
  | none => s
  | some r => if r = 1#32 then recvDone .none .empty s else s.setBlk { s.blk with recv := some (r - 1#32) }

/-- Event Tick (R165): `NOW`, then the reader, then the pending receive. -/
def tick (s : State) : State := recvTick (readerTick (s.setBlk { s.blk with now := s.blk.now + 1#32 }))

/-- Event RxError (R172). -/
def rxError (s : State) : State := if s.blk.fstate = .running then enterFault .transport s else s

end Sys2Proof.Machine
end

