-- ==== Sys2Proof/Machine/Turn.lean ====
section
/-! DEFINITION. A turn of one agent (10_state.md R22, 20_memory.md R71): the Host's command frame (30_encoding.md R80,
44_control.md R223, R224), or an environment event. -/

namespace Sys2Proof.Machine

/-- The status of a frame that is no command (R223, R224). -/
def rejectStatus : Reject → Status
  | .illegal => .errIllegal
  | .malformed => .errFormat

/-- The block takes one whole command frame: it runs the command, or returns `ERR_ILLEGAL` or `ERR_FORMAT` and changes no
state. -/
def runFrame (frame : Bytes) (s : State) : Result :=
  match decode frame with
  | .ok i => exec i s
  | .error r => raise (rejectStatus r) s

/-- The Host's turn: the port's next frame is taken; with none waiting the turn passes (log 2). -/
def hostTurn (s : State) : Result :=
  match s.cmds with
  | [] => .next s
  | frame :: cmds => runFrame frame { s with cmds := cmds }

/-- The step of the agent whose turn it is. -/
def runTurn (t : Turn) (s : State) : Result :=
  match t with
  | .host => hostTurn s
  | .clock => .next (tick s)
  | .rxByte => .next (rxTurn s)
  | .rxError => .next (rxError s)

/-- The next turn of the schedule is taken; with none left nothing moves (log 2). -/
def nextTurn (s : State) : Result :=
  match s.sched with
  | [] => .next s
  | t :: sched => runTurn t { s with sched := sched }

end Sys2Proof.Machine
end

