-- ==== Sys2Proof/Machine/Step.lean ====
section
/-! DEFINITION. One step of the machine: one indivisible step of one agent (00_scope.md R13, 20_memory.md R71). -/

namespace Sys2Proof.Machine

/-- One step. -/
def step (s : State) : Host.Outcome State Fault Refusal := nextTurn s

/-- `s` with the command of a table word as the Host's next command, and the Host's turn next (log 7): the very next step
takes that frame. -/
def State.withFetchWord (s : State) (nbits w : Nat) : State :=
  { s with cmds := frameOfTableWord nbits w :: s.cmds, sched := .host :: s.sched }

end Sys2Proof.Machine
end

