-- ==== Sys2Proof/Machine/Pseudo.lean ====
section
/-! DEFINITION. The pseudo-instructions of 30_encoding.md R104: each expands to the commands shown there. An expansion is not
indivisible; other agents' turns may fall between its commands. -/

namespace Sys2Proof.Machine

/-- `CRC_BLOCK [s0 .. s(n-1)]` (R104). -/
def crcBlock (str : Bytes) : List Instr := .crcInit :: (str.map .crcUpdate ++ [.crcRead])

/-- `LRC_BLOCK [s0 .. s(n-1)]` (R104). -/
def lrcBlock (str : Bytes) : List Instr := .lrcInit :: (str.map .lrcUpdate ++ [.lrcRead])

/-- `SEND_RTU a, f, [d]` (R104): the second command sends the STR payload of the first one's result, which is the RTU frame. -/
def sendRtu (a f : Byte) (d : Bytes) : List Instr := [.encRtu a f d, .frSend (rtuFrame a f d)]

/-- `SEND_ASCII a, f, [d]` (R104). -/
def sendAscii (a f : Byte) (d : Bytes) : List Instr := [.encAscii a f d, .frSend (asciiFrame a f d)]

/-- `REQUEST_RTU a, f, [d]` (R104, 70_reset_and_hazards.md R283). -/
def requestRtu (a f : Byte) (d : Bytes) : List Instr := .frFlush :: sendRtu a f d

/-- `REQUEST_ASCII a, f, [d]` (R104). -/
def requestAscii (a f : Byte) (d : Bytes) : List Instr := .frFlush :: sendAscii a f d

/-- `CFG_LOAD ti, tib, port, baud, dup, term` (R104, 70_reset_and_hazards.md R272). -/
def cfgLoad (ti tib port baud dup term : U32) : List Instr :=
  [.cfgWr 0x00#8 ti, .cfgWr 0x01#8 tib, .cfgWr 0x02#8 port, .cfgWr 0x03#8 baud, .cfgWr 0x04#8 dup, .cfgWr 0x05#8 term]

end Sys2Proof.Machine
end

