-- ==== Sys2Proof/Safety.lean ====
section
/-! DEFINITION. What counts as a safe state, and the words claims are stated in: the invariants of 10_state.md R47 with what
makes them inductive, result frames written out byte by byte, running several commands or turns in a row, and the relations
of the whole-machine claims. -/

namespace Sys2Proof.Machine

/-! ### Invariants -/

/-- The nine invariants of R47, in its order. -/
structure StateInvariants (p : Params) (b : Block) : Prop where
  readerOff : b.rstate = .off ↔ b.fstate ≠ .running
  faultCode : b.fcode ≠ .none ↔ b.fstate = .faulted
  receivePending : ∀ r, b.recv = some r → b.fstate = .running ∧ b.q.length = 0 ∧ 1 ≤ r.toNat
  noReadData : b.rstate = .waitFirst ∨ b.rstate = .off → b.chunk = [] ∧ b.ibcnt = 0#32
  accumulating : b.rstate = .accum → 1 ≤ b.chunk.length ∧ b.chunk.length < p.chunkMax ∧
    ∃ t, b.tIb = some t ∧ b.ibcnt.toNat < t.toNat
  held : b.rstate = .held → p.qfullPolicy = .block ∧ b.q.length = p.qdepth ∧
    1 ≤ b.chunk.length ∧ b.chunk.length ≤ p.chunkMax
  initialCount : b.rstate ≠ .waitFirst → b.icnt = 0#32
  queue : b.q.length ≤ p.qdepth ∧ ∀ c ∈ b.q, 1 ≤ c.length ∧ c.length ≤ p.chunkMax
  remainder : b.rem.length ≤ p.asciiRemMax ∧ (b.rem ≠ [] → ∃ digits cr, b.rem = chColon :: (digits ++ cr) ∧
    (∀ c ∈ digits, isHex c = true) ∧ (cr = [] ∨ cr = [chCr]))

/-- What R47 needs beside it to be kept by every step (log 12): legal register values (10_state.md R25, R27), a complete
configuration while running (42_byte_framer.md R174), and the counters' bounds (40_checksum.md R134). -/
structure SupportInvariants (b : Block) : Prop where
  interByteLegal : b.tIb ≠ some 0#32
  baudLegal : b.baud ≠ some 0#32
  runningConfigured : b.fstate = .running → configIncomplete b = false
  heldCount : b.rstate = .held → b.ibcnt = 0#32
  initialBound : b.icnt = 0#32 ∨ ∃ t, b.tInit = some t ∧ b.icnt.toNat < t.toNat

/-- A state of a legal instance that meets every invariant. -/
structure Safe (s : State) : Prop where
  legal : s.par.Legal
  state : StateInvariants s.par s.blk
  support : SupportInvariants s.blk

/-! ### Result frames, byte by byte (30_encoding.md R83, R84) -/

/-- `s` with one more result frame, and nothing else changed. -/
def State.answered (s : State) (frame : Bytes) : State := { s with results := s.results ++ [frame] }

/-- `OK` with no payload. -/
def okFrame : Bytes := [0x00#8]

/-- `OK` with a U16: `v[7:0], v[15:8]`. -/
def okU16 (v : U16) : Bytes := [0x00#8, BitVec.ofNat 8 v.toNat, BitVec.ofNat 8 (v.toNat / 256)]

/-- The four bytes of a u32, least significant first. -/
def u32Bytes (v : U32) : Bytes :=
  [BitVec.ofNat 8 v.toNat, BitVec.ofNat 8 (v.toNat / 256), BitVec.ofNat 8 (v.toNat / 65536),
    BitVec.ofNat 8 (v.toNat / 16777216)]

/-- `OK` with a U32. -/
def okU32 (v : U32) : Bytes := 0x00#8 :: u32Bytes v

/-- n (u16), then n bytes. -/
def strBytes (s : Bytes) : Bytes := BitVec.ofNat 8 s.length :: BitVec.ofNat 8 (s.length / 256) :: s

/-- `OK` with a STR. -/
def okStr (s : Bytes) : Bytes := 0x00#8 :: strBytes s

/-- A MSG: a, f, t, n, data. -/
def messageBytes (m : Triple) (t : U32) : Bytes := m.1 :: m.2.1 :: (u32Bytes t ++ strBytes m.2.2)

/-- `OK` with a LIST: c (u16), then the messages in decode order, all stamped t. -/
def okList (ms : List Triple) (t : U32) : Bytes :=
  0x00#8 :: BitVec.ofNat 8 ms.length :: BitVec.ofNat 8 (ms.length / 256) :: ms.flatMap (fun m => messageBytes m t)

/-- What `CFG_RD` answers for a configuration register: `ERR_UNSET`, or `OK` with its value (44_control.md R221). -/
def cfgAnswer : Option U32 → Bytes
  | none => [0x87#8]
  | some v => okU32 v

/-- The result frame of a pending receive that ends with `STOPPED`, when one is pending (44_control.md R220). -/
def stoppedFrames (b : Block) : List Bytes :=
  match b.recv with
  | none => []
  | some _ => [[0x02#8]]

/-! ### Several steps -/

/-- Commands one after another. -/
def execAll : List Instr → State → Result
  | [], s => .next s
  | i :: is, s =>
    match exec i s with
    | .next t => execAll is t
    | .fault f => .fault f
    | .refused r => .refused r

/-- `n` steps of the machine in a row. -/
def runSteps : Nat → State → Result
  | 0, s => .next s
  | n + 1, s =>
    match step s with
    | .next t => runSteps n t
    | .fault f => .fault f
    | .refused r => .refused r

/-- `n` Tick events in a row. -/
def ticks : Nat → State → State
  | 0, s => s
  | n + 1, s => ticks n (tick s)

/-! ### Relations of the whole-machine claims -/

/-- How many result frames the block still owes: one for a pending receive (44_control.md R226). -/
def owed (b : Block) : Nat :=
  match b.recv with
  | none => 0
  | some _ => 1

/-- The bytes the reader has gathered and not yet handed to a host, in order of arrival (20_memory.md R72). -/
def gathered (b : Block) : Bytes := b.q.flatten ++ b.chunk

/-- Two states alike but for `ICNT` (42_byte_framer.md R179). -/
def SameButIcnt (s t : State) : Prop := ∃ n, t = s.setBlk { s.blk with icnt := n }

/-- Two states alike but for `ICNT` and the number a set `T_INIT` holds (42_byte_framer.md R179). -/
def SameButInitialTimeout (s t : State) : Prop :=
  ∃ n w, w.isSome = s.blk.tInit.isSome ∧ t = s.setBlk { s.blk with icnt := n, tInit := w }

/-- A data length some hypothesis can give for data `d` (43_protocol_decoder.md R201). -/
def DecodableData (d : Bytes) : Prop :=
  d.length ∈ [0, 1, 2, 3, 4, 6] ∨
  (∃ c, d[0]? = some c ∧ c.toNat + 1 = d.length) ∨
  (∃ c, d[4]? = some c ∧ c.toNat + 5 = d.length) ∨
  (∃ c, d[8]? = some c ∧ c.toNat + 9 = d.length)

/-- The 23 legal opcodes (30_encoding.md R82). -/
def legalOpcodes : List Nat :=
  [0x01, 0x02, 0x03] ++ [0x10, 0x11, 0x12, 0x13, 0x18, 0x19, 0x1A, 0x1B] ++ [0x20, 0x21, 0x28, 0x29] ++
  [0x30, 0x31, 0x32] ++ [0x40, 0x41, 0x42, 0x43, 0x44]

end Sys2Proof.Machine
end

