-- ==== Sys2Proof/Certificates/Slice0/Obligations.lean ====
section
/-! DEFINITION. The statements for the provers. An equation `exec i s = .next t` names the whole next state, so it states the
frame too: every register, counter, buffer, stream and parameter that `t` does not name is as in `s`. -/

open Sys2Proof Sys2Proof.Machine

/-! ### Steps and command frames -/

/-- 00_scope.md R13, 30_encoding.md R80: on the Host's turn, a frame that decodes to a command is taken from the port, the turn is
used up, and the step is the command's meaning. -/
def Obligations.StepRunsDecodedCommand : Prop :=
  ∀ (s : State) (frame : Bytes) (cmds : List Bytes) (sched : List Turn) (i : Instr),
    s.sched = .host :: sched → s.cmds = frame :: cmds → decode frame = .ok i →
    i.wellFormed = true ∧ step s = exec i { s with cmds := cmds, sched := sched }

/-- 20_memory.md R71, 30_encoding.md R98: every other turn is one event. That a turn with nothing to do passes (a Host turn with no
frame, an RX turn with an empty line), and that a machine with no turn left stays as it is, is the model's choice (log 2). -/
def Obligations.StepGivesEachAgentItsTurn : Prop :=
  (∀ (s : State) (sched : List Turn), s.sched = .clock :: sched → step s = .next (tick { s with sched := sched })) ∧
  (∀ (s : State) (sched : List Turn), s.sched = .rxByte :: sched → step s = .next (rxTurn { s with sched := sched })) ∧
  (∀ (s : State) (sched : List Turn), s.sched = .rxError :: sched → step s = .next (rxError { s with sched := sched })) ∧
  (∀ (s : State) (sched : List Turn), s.sched = .host :: sched → s.cmds = [] →
    step s = .next { s with sched := sched }) ∧
  (∀ s : State, s.rxLine = [] → rxTurn s = s) ∧
  (∀ s : State, s.sched = [] → step s = .next s)

/-- 44_control.md R223, R224: a frame with an illegal opcode answers ERR_ILLEGAL, a malformed one (a frame of no byte, or a legal
opcode with another length than its format's) ERR_FORMAT; nothing else changes, and the next frame is next. -/
def Obligations.RejectedFramesChangeNothing : Prop :=
  ∀ (s : State) (frame : Bytes) (cmds : List Bytes) (sched : List Turn),
    s.sched = .host :: sched → s.cmds = frame :: cmds →
    (∀ opc rest, frame = opc :: rest → opc.toNat ∉ legalOpcodes →
      step s = .next (State.answered { s with cmds := cmds, sched := sched } [0x80#8])) ∧
    (frame = [] → step s = .next (State.answered { s with cmds := cmds, sched := sched } [0x81#8])) ∧
    (∀ opc rest, frame = opc :: rest → opc.toNat ∈ legalOpcodes → frameLength frame ≠ some frame.length →
      step s = .next (State.answered { s with cmds := cmds, sched := sched } [0x81#8]))

/-- 30_encoding.md R102: the opcode gives the format, the format the length, and the first 5 bytes are enough to know it. -/
def Obligations.FrameLengthFollowsFormat : Prop :=
  (∀ (opc : Byte) (rest : Bytes),
    (opc.toNat ∈ [0x01, 0x10, 0x12, 0x18, 0x1A, 0x32, 0x40, 0x41, 0x44] → frameLength (opc :: rest) = some 1) ∧
    (opc.toNat ∈ [0x02, 0x11, 0x19] → frameLength (opc :: rest) = some 2) ∧
    (opc.toNat = 0x03 → frameLength (opc :: rest) = some 6) ∧
    (opc.toNat = 0x43 → frameLength (opc :: rest) = some 5)) ∧
  (∀ (opc n0 n1 : Byte) (rest : Bytes), opc.toNat ∈ [0x13, 0x1B, 0x28, 0x30, 0x31, 0x42] →
    frameLength (opc :: n0 :: n1 :: rest) = some (3 + (n0.toNat + 256 * n1.toNat))) ∧
  (∀ (opc k n0 n1 : Byte) (rest : Bytes), opc.toNat = 0x29 →
    frameLength (opc :: k :: n0 :: n1 :: rest) = some (4 + (n0.toNat + 256 * n1.toNat))) ∧
  (∀ (opc a f n0 n1 : Byte) (rest : Bytes), opc.toNat ∈ [0x20, 0x21] →
    frameLength (opc :: a :: f :: n0 :: n1 :: rest) = some (5 + (n0.toNat + 256 * n1.toNat))) ∧
  (∀ frame : Bytes, frameLength frame = frameLength (frame.take 5)) ∧
  (∀ frame : Bytes, (∃ i, decode frame = .ok i) ↔ frameLength frame = some frame.length)

/-- 30_encoding.md R81, R82, R101: decoding and encoding are inverse to each other, for every command and every frame: no bit of a
frame is dropped, and every command frame stands for one command. -/
def Obligations.DecodeAndEncodeAgree : Prop :=
  ∀ (frame : Bytes) (i : Instr), decode frame = .ok i ↔ (i.wellFormed = true ∧ encode i = frame)

/-- Command frames written out in 95_test_vectors.md section 8 decode to the commands they stand for. -/
def Obligations.SampleFramesDecode : Prop :=
  decode [0x03#8, 0x01#8, 0x03#8, 0x00#8, 0x00#8, 0x00#8] = .ok (.cfgWr 0x01#8 3#32) ∧
  decode [0x03#8, 0x03#8, 0x80#8, 0x25#8, 0x00#8, 0x00#8] = .ok (.cfgWr 0x03#8 9600#32) ∧
  decode [0x43#8, 0x64#8, 0x00#8, 0x00#8, 0x00#8] = .ok (.frRecv 100#32) ∧
  decode [0x21#8, 0x01#8, 0x03#8, 0x04#8, 0x00#8, 0x00#8, 0x00#8, 0x00#8, 0x0A#8] =
    .ok (.encRtu 0x01#8 0x03#8 [0x00#8, 0x00#8, 0x00#8, 0x0A#8]) ∧
  decode [0x29#8, 0x00#8, 0x03#8, 0x00#8, 0x03#8, 0x03#8, 0x41#8] = .ok (.decRtuCand 0x00#8 [0x03#8, 0x03#8, 0x41#8]) ∧
  decode [0x13#8, 0x03#8, 0x00#8, 0x01#8] = .error .malformed ∧
  decode [0x14#8] = .error .illegal

/-! ### Control -/

/-- 10_state.md R49: the reset state, for every instance; STATUS reads 0. -/
def Obligations.ResetStateValues : Prop :=
  ∀ p : Params, p.Legal →
    (State.resetWith p).blk =
      { tInit := none, tIb := none, port := none, baud := none, duplex := none, term := 0#1, crcAcc := 0xFFFF#16,
        lrcAcc := 0x00#8, rem := [], fstate := .idle, fcode := .none, rstate := .off, chunk := [], icnt := 0#32,
        ibcnt := 0#32, q := [], recv := none, now := 0#32, cntAsciiDrop := 0#32, cntRtuDrop := 0#32,
        cntChunkDrop := 0#32 } ∧
    (State.resetWith p).tx = [] ∧ (State.resetWith p).rxLine = [] ∧
    statusWord p (State.resetWith p).blk = 0#32

/-- 44_control.md R220: a pending receive completes with STOPPED first, then every element takes its reset value; the streams, the
line, the port and the schedule are left alone. -/
def Obligations.ResetCommandResetsBlock : Prop :=
  decode [0x01#8] = .ok .reset ∧
  ∀ s : State, exec .reset s =
    .next { s with blk := Block.reset, results := s.results ++ stoppedFrames s.blk ++ [okFrame] }

/-- 44_control.md R221, 10_state.md R46: every index of the register map, and the reserved ones. -/
def Obligations.CfgRdReadsRegisterMap : Prop :=
  (∀ idx : Byte, decode [0x02#8, idx] = .ok (.cfgRd idx)) ∧
  (∀ (s : State) (idx : Byte), 0x06 ≤ idx.toNat ∧ idx.toNat ≤ 0x0F ∨ 0x1A ≤ idx.toNat →
    exec (.cfgRd idx) s = .next (s.answered [0x86#8])) ∧
  (∀ s : State,
    exec (.cfgRd 0x00#8) s = .next (s.answered (cfgAnswer s.blk.tInit)) ∧
    exec (.cfgRd 0x01#8) s = .next (s.answered (cfgAnswer s.blk.tIb)) ∧
    exec (.cfgRd 0x02#8) s = .next (s.answered (cfgAnswer s.blk.port)) ∧
    exec (.cfgRd 0x03#8) s = .next (s.answered (cfgAnswer s.blk.baud)) ∧
    exec (.cfgRd 0x04#8) s = .next (s.answered (cfgAnswer (s.blk.duplex.map (fun v => BitVec.ofNat 32 v.toNat)))) ∧
    exec (.cfgRd 0x05#8) s = .next (s.answered (okU32 (BitVec.ofNat 32 s.blk.term.toNat))) ∧
    exec (.cfgRd 0x10#8) s = .next (s.answered (okU32 (statusWord s.par s.blk))) ∧
    exec (.cfgRd 0x11#8) s = .next (s.answered (okU32 (BitVec.ofNat 32 s.blk.q.length))) ∧
    exec (.cfgRd 0x12#8) s = .next (s.answered (okU32 s.blk.now)) ∧
    exec (.cfgRd 0x13#8) s = .next (s.answered (okU32 s.blk.cntAsciiDrop)) ∧
    exec (.cfgRd 0x14#8) s = .next (s.answered (okU32 s.blk.cntRtuDrop)) ∧
    exec (.cfgRd 0x15#8) s = .next (s.answered (okU32 s.blk.cntChunkDrop)) ∧
    exec (.cfgRd 0x16#8) s = .next (s.answered (okU32 (BitVec.ofNat 32 s.blk.rem.length))) ∧
    exec (.cfgRd 0x17#8) s = .next (s.answered (okU32 (BitVec.ofNat 32 s.blk.crcAcc.toNat))) ∧
    exec (.cfgRd 0x18#8) s = .next (s.answered (okU32 (BitVec.ofNat 32 s.blk.lrcAcc.toNat))) ∧
    exec (.cfgRd 0x19#8) s = .next (s.answered (okU32 (BitVec.ofNat 32 s.blk.chunk.length))))

/-- 44_control.md R222, R225: read-only and reserved indices first, then the run state, then the value; a legal write changes the
one register. -/
def Obligations.CfgWrWritesOneRegister : Prop :=
  (∀ (idx : Byte) (v : U32), decode (0x03#8 :: idx :: u32Bytes v) = .ok (.cfgWr idx v)) ∧
  (∀ (s : State) (idx : Byte) (v : U32), 0x06 ≤ idx.toNat → exec (.cfgWr idx v) s = .next (s.answered [0x86#8])) ∧
  (∀ (s : State) (idx : Byte) (v : U32), idx.toNat ≤ 0x05 → s.blk.fstate = .running →
    exec (.cfgWr idx v) s = .next (s.answered [0x84#8])) ∧
  (∀ (s : State) (v : U32), s.blk.fstate ≠ .running →
    exec (.cfgWr 0x00#8 v) s = .next (State.answered { s with blk := { s.blk with tInit := some v } } okFrame) ∧
    (v ≠ 0#32 → exec (.cfgWr 0x01#8 v) s = .next (State.answered { s with blk := { s.blk with tIb := some v } } okFrame)) ∧
    (v = 0#32 → exec (.cfgWr 0x01#8 v) s = .next (s.answered [0x85#8])) ∧
    exec (.cfgWr 0x02#8 v) s = .next (State.answered { s with blk := { s.blk with port := some v } } okFrame) ∧
    (v ≠ 0#32 → exec (.cfgWr 0x03#8 v) s = .next (State.answered { s with blk := { s.blk with baud := some v } } okFrame)) ∧
    (v = 0#32 → exec (.cfgWr 0x03#8 v) s = .next (s.answered [0x85#8])) ∧
    (v.toNat ≤ 1 → exec (.cfgWr 0x04#8 v) s =
      .next (State.answered { s with blk := { s.blk with duplex := some (BitVec.ofNat 1 v.toNat) } } okFrame)) ∧
    (2 ≤ v.toNat → exec (.cfgWr 0x04#8 v) s = .next (s.answered [0x85#8])) ∧
    (v.toNat ≤ 1 → exec (.cfgWr 0x05#8 v) s =
      .next (State.answered { s with blk := { s.blk with term := BitVec.ofNat 1 v.toNat } } okFrame)) ∧
    (2 ≤ v.toNat → exec (.cfgWr 0x05#8 v) s = .next (s.answered [0x85#8])))

/-- 70_reset_and_hazards.md R289: a register value written by CFG_WR is read back by the next CFG_RD. -/
def Obligations.WrittenRegisterReadsBack : Prop :=
  ∀ (s t : State) (idx : Byte) (v : U32), exec (.cfgWr idx v) s = .next t → t.results = s.results ++ [okFrame] →
    exec (.cfgRd idx) t = .next (t.answered (okU32 v))

/-- 10_state.md R30, R31: in RUNNING no step but RESET's changes a configuration register, and in every state only CFG_WR and
RESET do. -/
def Obligations.ConfigurationChangesOnlyByCfgWrAndReset : Prop :=
  ∀ (s t : State), step s = .next t →
    (t.blk.tInit = s.blk.tInit ∧ t.blk.tIb = s.blk.tIb ∧ t.blk.port = s.blk.port ∧ t.blk.baud = s.blk.baud ∧
      t.blk.duplex = s.blk.duplex ∧ t.blk.term = s.blk.term) ∨
    (∃ sched cmds frame, s.sched = .host :: sched ∧ s.cmds = frame :: cmds ∧
      (decode frame = .ok .reset ∨
        (∃ idx v, decode frame = .ok (.cfgWr idx v)) ∧ s.blk.fstate ≠ .running ∧
          (s.blk.tInit.isSome = true → t.blk.tInit.isSome = true) ∧ (s.blk.tIb.isSome = true → t.blk.tIb.isSome = true) ∧
          (s.blk.port.isSome = true → t.blk.port.isSome = true) ∧ (s.blk.baud.isSome = true → t.blk.baud.isSome = true) ∧
          (s.blk.duplex.isSome = true → t.blk.duplex.isSome = true)))

/-- 10_state.md R43: the fields of STATUS with their encodings (R35 to R37); bits 31:11 are 0. -/
def Obligations.StatusWordFields : Prop :=
  ∀ (p : Params) (b : Block),
    (statusWord p b).toNat =
      (match b.fstate with | .idle => 0 | .running => 1 | .stopped => 2 | .faulted => 3) +
      4 * (match b.fcode with | .none => 0 | .transport => 1 | .backpressure => 2) +
      16 * (match b.rstate with | .off => 0 | .waitFirst => 1 | .accum => 2 | .held => 3) +
      64 * (match b.recv with | none => 0 | some _ => 1) +
      128 * (if b.q.length = p.qdepth then 1 else 0) +
      256 * (if 1 ≤ b.q.length then 1 else 0) +
      512 * (if 1 ≤ b.rem.length then 1 else 0) +
      1024 * b.term.toNat

/-! ### Checksums -/

/-- 40_checksum.md R126, R127, R128: the CRC accumulator. -/
def Obligations.CrcAccumulatorCommands : Prop :=
  decode [0x10#8] = .ok .crcInit ∧ (∀ b : Byte, decode [0x11#8, b] = .ok (.crcUpdate b)) ∧ decode [0x12#8] = .ok .crcRead ∧
  ∀ s : State,
    exec .crcInit s = .next (State.answered { s with blk := { s.blk with crcAcc := 0xFFFF#16 } } okFrame) ∧
    (∀ b : Byte, exec (.crcUpdate b) s =
      .next (State.answered { s with blk := { s.blk with crcAcc := crcStep s.blk.crcAcc b } } okFrame)) ∧
    exec .crcRead s = .next (s.answered (okU16 s.blk.crcAcc))

/-- 40_checksum.md R130, R131, R132: the LRC accumulator holds the raw sum; LRC_READ gives its negation modulo 256. -/
def Obligations.LrcAccumulatorCommands : Prop :=
  decode [0x18#8] = .ok .lrcInit ∧ (∀ b : Byte, decode [0x19#8, b] = .ok (.lrcUpdate b)) ∧ decode [0x1A#8] = .ok .lrcRead ∧
  ∀ s : State,
    exec .lrcInit s = .next (State.answered { s with blk := { s.blk with lrcAcc := 0x00#8 } } okFrame) ∧
    (∀ b : Byte, exec (.lrcUpdate b) s = .next (State.answered
      { s with blk := { s.blk with lrcAcc := BitVec.ofNat 8 (s.blk.lrcAcc.toNat + b.toNat) } } okFrame)) ∧
    exec .lrcRead s = .next (s.answered [0x00#8, BitVec.ofNat 8 (256 - s.blk.lrcAcc.toNat)])

/-- 40_checksum.md R120, R121, R124, R129, R133: the eight rounds of the CRC step, and the checksums of a byte string, with no
accumulator touched. -/
def Obligations.ChecksumComputeCommands : Prop :=
  (∀ str : Bytes, str.length < 65536 →
    decode (0x13#8 :: strBytes str) = .ok (.crcCompute str) ∧ decode (0x1B#8 :: strBytes str) = .ok (.lrcCompute str)) ∧
  (∀ (c : U16) (b : Byte), crcStep c b =
    Nat.repeat (fun x : U16 => if x.toNat % 2 = 1 then (x >>> 1) ^^^ 0xA001#16 else x >>> 1) 8
      (c ^^^ BitVec.ofNat 16 b.toNat)) ∧
  crc16 [] = 0xFFFF#16 ∧ (∀ (str : Bytes) (b : Byte), crc16 (str ++ [b]) = crcStep (crc16 str) b) ∧
  (∀ str : Bytes, lrc str = BitVec.ofNat 8 (256 - (str.map BitVec.toNat).sum % 256)) ∧
  (∀ (s : State) (str : Bytes), str.length ≤ s.par.operMax →
    exec (.crcCompute str) s = .next (s.answered (okU16 (crc16 str))) ∧
    exec (.lrcCompute str) s = .next (s.answered [0x00#8, lrc str])) ∧
  (∀ (s : State) (str : Bytes), s.par.operMax < str.length →
    exec (.crcCompute str) s = .next (s.answered [0x82#8]) ∧ exec (.lrcCompute str) s = .next (s.answered [0x82#8]))

/-- 40_checksum.md R122: the table-driven form of the CRC step, with `TAB[i] = crc_step(0x0000, i)`, and the eight entries of the
table, one for each bit of i, that the other entries are XORs of. -/
def Obligations.CrcStepIsTableDriven : Prop :=
  (∀ (c : U16) (b : Byte),
    crcStep c b = (c >>> 8) ^^^ crcStep 0x0000#16 ((c ^^^ BitVec.ofNat 16 b.toNat).extractLsb' 0 8)) ∧
  (∀ i j : Byte, crcStep 0x0000#16 (i ^^^ j) = crcStep 0x0000#16 i ^^^ crcStep 0x0000#16 j) ∧
  crcStep 0x0000#16 0x01#8 = 0xC0C1#16 ∧ crcStep 0x0000#16 0x02#8 = 0xC181#16 ∧
  crcStep 0x0000#16 0x04#8 = 0xC301#16 ∧ crcStep 0x0000#16 0x08#8 = 0xC601#16 ∧
  crcStep 0x0000#16 0x10#8 = 0xCC01#16 ∧ crcStep 0x0000#16 0x20#8 = 0xD801#16 ∧
  crcStep 0x0000#16 0x40#8 = 0xF001#16 ∧ crcStep 0x0000#16 0x80#8 = 0xA001#16

/-- 40_checksum.md R123: the CRC over a string with its own two CRC bytes is 0, and with any other two bytes it is not: the residue
check and the comparison of the two bytes accept the same strings. -/
def Obligations.CrcResidueIsZero : Prop :=
  ∀ (str : Bytes) (x y : Byte),
    crc16 (str ++ [x, y]) = 0x0000#16 ↔ (x = (crc16 str).extractLsb' 0 8 ∧ y = (crc16 str).extractLsb' 8 8)

/-- 40_checksum.md R125: a string and a byte sum to 0 modulo 256 exactly when the byte is the string's LRC. -/
def Obligations.LrcCheckSumsToZero : Prop :=
  ∀ (str : Bytes) (l : Byte), ((str ++ [l]).map BitVec.toNat).sum % 256 = 0 ↔ l = lrc str

/-- 30_encoding.md R104: CRC_BLOCK and LRC_BLOCK give what CRC_COMPUTE and LRC_COMPUTE give, and leave the accumulators at the
checksum of the string. -/
def Obligations.ChecksumBlocksEqualComputes : Prop :=
  ∀ (s : State) (str : Bytes),
    execAll (crcBlock str) s = .next { s with
      blk := { s.blk with crcAcc := crc16 str },
      results := s.results ++ List.replicate (str.length + 1) okFrame ++ [okU16 (crc16 str)] } ∧
    execAll (lrcBlock str) s = .next { s with
      blk := { s.blk with lrcAcc := BitVec.ofNat 8 (str.map BitVec.toNat).sum },
      results := s.results ++ List.replicate (str.length + 1) okFrame ++ [[0x00#8, lrc str]] }

/-! ### Frame codec -/

/-- 30_encoding.md R91, R92: the digits the encoder emits, and the digits the decoder takes, each judged on its own; a string
decodes pair by pair, and not at all with an odd count or a byte that is no digit (41_frame_codec.md R142). -/
def Obligations.HexDigitRules : Prop :=
  (∀ v : BitVec 4, (hexDigit v).toNat = if v.toNat ≤ 9 then 0x30 + v.toNat else 0x41 + (v.toNat - 10)) ∧
  (∀ b : Byte, hex2 b = [hexDigit (b.extractLsb' 4 4), hexDigit (b.extractLsb' 0 4)]) ∧
  (∀ c : Byte, (unhex c).map BitVec.toNat =
    if 0x30 ≤ c.toNat ∧ c.toNat ≤ 0x39 then some (c.toNat - 0x30)
    else if 0x41 ≤ c.toNat ∧ c.toNat ≤ 0x46 then some (c.toNat - 0x41 + 10)
    else if 0x61 ≤ c.toNat ∧ c.toNat ≤ 0x66 then some (c.toNat - 0x61 + 10)
    else none) ∧
  unhexPairs [] = some [] ∧
  (∀ (c0 c1 : Byte) (v0 v1 : BitVec 4) (rest : Bytes), unhex c0 = some v0 → unhex c1 = some v1 →
    unhexPairs (c0 :: c1 :: rest) =
      (unhexPairs rest).map (fun bs => BitVec.ofNat 8 (16 * v0.toNat + v1.toNat) :: bs)) ∧
  (∀ digits bs : Bytes, unhexPairs digits = some bs → digits.length = 2 * bs.length ∧ ∀ c ∈ digits, unhex c ≠ none)

/-- 41_frame_codec.md R140, 30_encoding.md R85, R87: ENC_ASCII. -/
def Obligations.EncAsciiGivesAsciiFrame : Prop :=
  (∀ (a f : Byte) (d : Bytes), d.length < 65536 → decode (0x20#8 :: a :: f :: strBytes d) = .ok (.encAscii a f d)) ∧
  (∀ (a f : Byte) (d : Bytes),
    asciiFrame a f d = [0x3A#8] ++ hex2 a ++ hex2 f ++ d.flatMap hex2 ++ hex2 (lrc ([a, f] ++ d)) ++ [0x0D#8, 0x0A#8] ∧
    (asciiFrame a f d).length = 2 * d.length + 9) ∧
  (∀ (s : State) (a f : Byte) (d : Bytes), d.length ≤ s.par.operMax →
    exec (.encAscii a f d) s = .next (s.answered (okStr (asciiFrame a f d)))) ∧
  (∀ (s : State) (a f : Byte) (d : Bytes), s.par.operMax < d.length →
    exec (.encAscii a f d) s = .next (s.answered [0x82#8]))

/-- 41_frame_codec.md R141, 30_encoding.md R86, R88, 20_memory.md R62: ENC_RTU, the CRC low byte first. -/
def Obligations.EncRtuGivesRtuFrame : Prop :=
  (∀ (a f : Byte) (d : Bytes), d.length < 65536 → decode (0x21#8 :: a :: f :: strBytes d) = .ok (.encRtu a f d)) ∧
  (∀ (a f : Byte) (d : Bytes),
    rtuFrame a f d = [a, f] ++ d ++
      [(crc16 ([a, f] ++ d)).extractLsb' 0 8, (crc16 ([a, f] ++ d)).extractLsb' 8 8] ∧
    (rtuFrame a f d).length = d.length + 4) ∧
  (∀ (s : State) (a f : Byte) (d : Bytes), d.length ≤ s.par.operMax →
    exec (.encRtu a f d) s = .next (s.answered (okStr (rtuFrame a f d)))) ∧
  (∀ (s : State) (a f : Byte) (d : Bytes), s.par.operMax < d.length →
    exec (.encRtu a f d) s = .next (s.answered [0x82#8]))

/-- 41_frame_codec.md R142, R148: exactly which strings the ASCII parser takes: CR LF at the end, the last colon starts the frame,
digit pairs of a, f, d and the LRC of a, f, d. No message without its own check passing, and none when the hex part is shorter
than 6, of an odd length, or holds a byte that is no hex digit. -/
def Obligations.AsciiParseAcceptsExactly : Prop :=
  (∀ (t : Bytes) (a f : Byte) (d : Bytes),
    asciiParse t = some (a, f, d) ↔
      ∃ before digits, t = before ++ [0x3A#8] ++ digits ++ [0x0D#8, 0x0A#8] ∧ (0x3A#8 : Byte) ∉ digits ∧
        unhexPairs digits = some ([a, f] ++ d ++ [lrc ([a, f] ++ d)])) ∧
  (∀ before digits : Bytes, (0x3A#8 : Byte) ∉ digits →
    (digits.length < 6 ∨ digits.length % 2 = 1 ∨ ∃ c ∈ digits, unhex c = none) →
    asciiParse (before ++ [0x3A#8] ++ digits ++ [0x0D#8, 0x0A#8]) = none)

/-- 41_frame_codec.md R143, R147, R148: exactly which buffers the RTU test takes under a hypothesis: those that begin with the RTU
frame of the message; a failed test gives the buffer back. -/
def Obligations.RtuCandidateAcceptsExactly : Prop :=
  (∀ (str rest : Bytes) (k : Nat) (a f : Byte) (d : Bytes),
    rtuCandidate str k = (some (a, f, d), rest) ↔ (d.length = k ∧ str = rtuFrame a f d ++ rest)) ∧
  (∀ (str rest : Bytes) (k : Nat), rtuCandidate str k = (none, rest) → rest = str) ∧
  (∀ (str : Bytes) (k : Nat), str.length < k + 4 → rtuCandidate str k = (none, str))

/-- 41_frame_codec.md R144: DEC_ASCII_FRAME. -/
def Obligations.DecAsciiFrameDecodesOneFrame : Prop :=
  (∀ str : Bytes, str.length < 65536 → decode (0x28#8 :: strBytes str) = .ok (.decAsciiFrame str)) ∧
  (∀ (s : State) (str : Bytes) (m : Triple), str.length ≤ s.par.operMax → asciiParse str = some m →
    exec (.decAsciiFrame str) s = .next (s.answered (0x00#8 :: messageBytes m s.blk.now))) ∧
  (∀ (s : State) (str : Bytes), str.length ≤ s.par.operMax → asciiParse str = none →
    exec (.decAsciiFrame str) s = .next (State.answered
      { s with blk := { s.blk with cntAsciiDrop := BitVec.ofNat 32 (s.blk.cntAsciiDrop.toNat + 1) } } [0x01#8])) ∧
  (∀ (s : State) (str : Bytes), s.par.operMax < str.length →
    exec (.decAsciiFrame str) s = .next (s.answered [0x82#8]))

/-- 41_frame_codec.md R145, 30_encoding.md R84: DEC_RTU_CAND, with its CAND payload; no state changes. -/
def Obligations.DecRtuCandTestsOneLength : Prop :=
  (∀ (k : Byte) (str : Bytes), str.length < 65536 → decode (0x29#8 :: k :: strBytes str) = .ok (.decRtuCand k str)) ∧
  (∀ (s : State) (k : Byte) (str rest : Bytes) (m : Triple), str.length ≤ s.par.operMax →
    rtuCandidate str k.toNat = (some m, rest) →
    exec (.decRtuCand k str) s =
      .next (s.answered ([0x00#8, 0x01#8] ++ messageBytes m s.blk.now ++ strBytes rest))) ∧
  (∀ (s : State) (k : Byte) (str : Bytes), str.length ≤ s.par.operMax → (rtuCandidate str k.toNat).1 = none →
    exec (.decRtuCand k str) s = .next (s.answered ([0x01#8, 0x00#8] ++ strBytes str))) ∧
  (∀ (s : State) (k : Byte) (str : Bytes), s.par.operMax < str.length →
    exec (.decRtuCand k str) s = .next (s.answered [0x82#8]))

/-- 41_frame_codec.md R146: the ASCII round trip, of the parser and of the command. -/
def Obligations.AsciiRoundTrip : Prop :=
  (∀ (a f : Byte) (d : Bytes), asciiParse (asciiFrame a f d) = some (a, f, d)) ∧
  (∀ (s : State) (a f : Byte) (d : Bytes), 2 * d.length + 9 ≤ s.par.operMax →
    exec (.decAsciiFrame (asciiFrame a f d)) s =
      .next (s.answered (0x00#8 :: messageBytes (a, f, d) s.blk.now)))

/-- 41_frame_codec.md R148: under its own length hypothesis, an RTU frame with any one byte changed, in one bit or in several, is
never a message. -/
def Obligations.RtuDetectsEveryOneByteError : Prop :=
  ∀ (a f : Byte) (d rest : Bytes) (p : Nat) (mask : Byte), p < (rtuFrame a f d).length → mask ≠ 0x00#8 →
    (rtuCandidate ((rtuFrame a f d).modify p (fun b => b ^^^ mask) ++ rest) d.length).1 = none

/-! ### Protocol decoder -/

/-- 30_encoding.md R96, 43_protocol_decoder.md R200: the data lengths of the hypotheses, and the loop: the first hypothesis of the order
that validates is accepted, its frame consumed, and the rest decoded; with none, the rest is discarded. -/
def Obligations.RtuDecodeTriesHypothesesInOrder : Prop :=
  (∀ buf : Bytes,
    datalen .f0 buf = some 0 ∧ datalen .f1 buf = some 1 ∧ datalen .f2 buf = some 2 ∧ datalen .f3 buf = some 3 ∧
    datalen .f4 buf = some 4 ∧ datalen .f6 buf = some 6 ∧
    datalen .v0 buf = (buf[2]?).map (fun c => 1 + c.toNat) ∧
    datalen .v4 buf = (buf[6]?).map (fun c => 5 + c.toNat) ∧
    datalen .v8 buf = (buf[10]?).map (fun c => 9 + c.toNat)) ∧
  (∀ order : List Hyp, rtuDecode order [] = ([], false)) ∧
  (∀ (before after : List Hyp) (h : Hyp) (buf rest : Bytes) (k : Nat) (m : Triple),
    (∀ g ∈ before, ∀ j, datalen g buf = some j → (rtuCandidate buf j).1 = none) →
    datalen h buf = some k → rtuCandidate buf k = (some m, rest) →
    rtuDecode (before ++ h :: after) buf =
      (m :: (rtuDecode (before ++ h :: after) rest).1, (rtuDecode (before ++ h :: after) rest).2)) ∧
  (∀ (order : List Hyp) (buf : Bytes), buf ≠ [] →
    (∀ g ∈ order, ∀ j, datalen g buf = some j → (rtuCandidate buf j).1 = none) → rtuDecode order buf = ([], true))

/-- 43_protocol_decoder.md R200, R206: PDEC_RTU answers the messages of the burst, all stamped NOW, and counts at most one drop. -/
def Obligations.PdecRtuDecodesOneBurst : Prop :=
  (∀ str : Bytes, str.length < 65536 → decode (0x31#8 :: strBytes str) = .ok (.pdecRtu str)) ∧
  (∀ (s : State) (str : Bytes), str.length ≤ s.par.operMax → (rtuDecode s.par.hypOrder str).2 = false →
    exec (.pdecRtu str) s = .next (s.answered (okList (rtuDecode s.par.hypOrder str).1 s.blk.now))) ∧
  (∀ (s : State) (str : Bytes), str.length ≤ s.par.operMax → (rtuDecode s.par.hypOrder str).2 = true →
    exec (.pdecRtu str) s = .next (State.answered
      { s with blk := { s.blk with cntRtuDrop := BitVec.ofNat 32 (s.blk.cntRtuDrop.toNat + 1) } }
      (okList (rtuDecode s.par.hypOrder str).1 s.blk.now))) ∧
  (∀ (s : State) (str : Bytes), s.par.operMax < str.length →
    exec (.pdecRtu str) s = .next (s.answered [0x82#8]))

/-- 43_protocol_decoder.md R200, R206: the messages are the frames of a prefix of the buffer, in order; what is left is discarded, counted
exactly when it is not empty, and begins with no frame any hypothesis of the order takes. -/
def Obligations.RtuMessagesAreFramesOfAPrefix : Prop :=
  ∀ (order : List Hyp) (buf : Bytes), ∃ rest,
    buf = (rtuDecode order buf).1.flatMap (fun m => rtuFrame m.1 m.2.1 m.2.2) ++ rest ∧
    ((rtuDecode order buf).2 = true ↔ rest ≠ []) ∧
    (∀ h ∈ order, rest ≠ [] → ∀ k, datalen h rest = some k → (rtuCandidate rest k).1 = none)

/-- 43_protocol_decoder.md R201: a message decodes only if its data length is one some hypothesis can give. -/
def Obligations.RtuMessagesHaveDecodableLength : Prop :=
  ∀ (order : List Hyp) (buf : Bytes) (m : Triple), m ∈ (rtuDecode order buf).1 → DecodableData m.2.2

/-- 43_protocol_decoder.md R201, 90_conflicts.md C2: the round trip through the RTU decoder: when a hypothesis of the order gives the
frame's data length, and every hypothesis that validates on the buffer gives that length too, the frame decodes first. -/
def Obligations.RtuRoundTripWithoutCollision : Prop :=
  ∀ (order : List Hyp) (h : Hyp) (a f : Byte) (d rest : Bytes),
    h ∈ order → datalen h (rtuFrame a f d ++ rest) = some d.length →
    (∀ g ∈ order, ∀ k, datalen g (rtuFrame a f d ++ rest) = some k →
      (rtuCandidate (rtuFrame a f d ++ rest) k).1 ≠ none → k = d.length) →
    rtuDecode order (rtuFrame a f d ++ rest) = ((a, f, d) :: (rtuDecode order rest).1, (rtuDecode order rest).2)

/-- 43_protocol_decoder.md R202: the ASCII loop: the first CR LF ends a span, which it belongs to. -/
def Obligations.AsciiSpansEndAtFirstCrlf : Prop :=
  (∀ buf : Bytes, (∀ i, ¬ (buf[i]? = some 0x0D#8 ∧ buf[i + 1]? = some 0x0A#8)) → asciiSpans buf = ([], buf)) ∧
  (∀ (buf : Bytes) (i : Nat), buf[i]? = some 0x0D#8 → buf[i + 1]? = some 0x0A#8 →
    (∀ j, j < i → ¬ (buf[j]? = some 0x0D#8 ∧ buf[j + 1]? = some 0x0A#8)) →
    asciiSpans buf = (buf.take (i + 2) :: (asciiSpans (buf.drop (i + 2))).1, (asciiSpans (buf.drop (i + 2))).2))

/-- 43_protocol_decoder.md R204: what the ASCII decoder keeps. -/
def Obligations.KeepPartialKeepsWellFormedTail : Prop :=
  (∀ (bound : Nat) (t : Bytes), (0x3A#8 : Byte) ∉ t → keepPartial bound t = []) ∧
  (∀ (bound : Nat) (before tail : Bytes), (0x3A#8 : Byte) ∉ tail → tail.length + 1 ≤ bound →
    (∃ digits cr, tail = digits ++ cr ∧ (∀ c ∈ digits, unhex c ≠ none) ∧ (cr = [] ∨ cr = [0x0D#8])) →
    keepPartial bound (before ++ [0x3A#8] ++ tail) = 0x3A#8 :: tail) ∧
  (∀ (bound : Nat) (before tail : Bytes), (0x3A#8 : Byte) ∉ tail →
    (bound < tail.length + 1 ∨
      ¬ ∃ digits cr, tail = digits ++ cr ∧ (∀ c ∈ digits, unhex c ≠ none) ∧ (cr = [] ∨ cr = [0x0D#8])) →
    keepPartial bound (before ++ [0x3A#8] ++ tail) = [])

/-- 43_protocol_decoder.md R202, R203, R206: PDEC_ASCII answers the messages of the spans of REM ++ s, all stamped NOW, counts a drop for each
span without one, and keeps the well-formed partial frame. -/
def Obligations.PdecAsciiDecodesSpans : Prop :=
  (∀ str : Bytes, str.length < 65536 → decode (0x30#8 :: strBytes str) = .ok (.pdecAscii str)) ∧
  (∀ (s : State) (str : Bytes) (spans : List Bytes) (rest : Bytes), str.length ≤ s.par.operMax →
    asciiSpans (s.blk.rem ++ str) = (spans, rest) →
    exec (.pdecAscii str) s = .next (State.answered
      { s with blk := { s.blk with
          rem := keepPartial s.par.asciiRemMax rest,
          cntAsciiDrop := BitVec.ofNat 32 (s.blk.cntAsciiDrop.toNat +
            (spans.length - (spans.filterMap asciiParse).length)) } }
      (okList (spans.filterMap asciiParse) s.blk.now))) ∧
  (∀ (s : State) (str : Bytes), s.par.operMax < str.length →
    exec (.pdecAscii str) s = .next (s.answered [0x82#8]))

/-- 43_protocol_decoder.md R202, R207: the messages do not depend on how the byte stream is cut into chunks, as long as no partial frame exceeds
the bound: cutting a stream after `buf` and carrying the kept partial over gives the messages, and the partial kept at the
end, of the whole stream. -/
def Obligations.AsciiMessagesIgnoreChunking : Prop :=
  ∀ (bound : Nat) (buf more : Bytes),
    (∀ h, afterLastColon (asciiSpans buf).2 = some h → h.length + 1 ≤ bound) →
    (asciiSpans (buf ++ more)).1.filterMap asciiParse =
      (asciiSpans buf).1.filterMap asciiParse ++
        (asciiSpans (keepPartial bound (asciiSpans buf).2 ++ more)).1.filterMap asciiParse ∧
    keepPartial bound (asciiSpans (buf ++ more)).2 =
      keepPartial bound (asciiSpans (keepPartial bound (asciiSpans buf).2 ++ more)).2

/-- 43_protocol_decoder.md R205: PDEC_RESET. -/
def Obligations.PdecResetClearsRemainder : Prop :=
  decode [0x32#8] = .ok .pdecReset ∧
  ∀ s : State, exec .pdecReset s = .next (State.answered { s with blk := { s.blk with rem := [] } } okFrame)

/-! ### Byte framer commands -/

/-- 42_byte_framer.md R174: FR_START. -/
def Obligations.FrStartBeginsReadCalls : Prop :=
  decode [0x40#8] = .ok .frStart ∧
  (∀ s : State, s.blk.fstate = .running ∨ s.blk.fstate = .faulted → exec .frStart s = .next (s.answered [0x84#8])) ∧
  (∀ s : State, s.blk.fstate = .idle ∨ s.blk.fstate = .stopped →
    s.blk.tInit = none ∨ s.blk.tIb = none ∨ s.blk.port = none ∨ s.blk.baud = none ∨ s.blk.duplex = none →
    exec .frStart s = .next (s.answered [0x85#8])) ∧
  (∀ s : State, s.blk.fstate = .idle ∨ s.blk.fstate = .stopped →
    s.blk.tInit ≠ none → s.blk.tIb ≠ none → s.blk.port ≠ none → s.blk.baud ≠ none → s.blk.duplex ≠ none →
    exec .frStart s = .next (State.answered
      { s with blk := { s.blk with fstate := .running, rstate := .waitFirst, chunk := [], icnt := 0#32, ibcnt := 0#32 } }
      okFrame))

/-- 42_byte_framer.md R175: FR_STOP. -/
def Obligations.FrStopStopsAndWakesReceiver : Prop :=
  decode [0x41#8] = .ok .frStop ∧
  (∀ s : State, s.blk.fstate ≠ .running → exec .frStop s = .next (s.answered okFrame)) ∧
  (∀ s : State, s.blk.fstate = .running → exec .frStop s = .next
    { s with
      blk := { s.blk with fstate := .stopped, rstate := .off, chunk := [], icnt := 0#32, ibcnt := 0#32, recv := none },
      results := s.results ++ stoppedFrames s.blk ++ [okFrame] })

/-- 42_byte_framer.md R176: FR_SEND. -/
def Obligations.FrSendEmitsOperand : Prop :=
  (∀ str : Bytes, str.length < 65536 → decode (0x42#8 :: strBytes str) = .ok (.frSend str)) ∧
  (∀ (s : State) (str : Bytes), s.par.operMax < str.length → exec (.frSend str) s = .next (s.answered [0x82#8])) ∧
  (∀ (s : State) (str : Bytes), str.length ≤ s.par.operMax → s.blk.fstate = .running →
    exec (.frSend str) s = .next (State.answered { s with tx := s.tx ++ str } okFrame)) ∧
  (∀ (s : State) (str : Bytes), str.length ≤ s.par.operMax → s.blk.fstate = .faulted →
    exec (.frSend str) s = .next (s.answered
      [0x03#8, match s.blk.fcode with | .none => 0x00#8 | .transport => 0x01#8 | .backpressure => 0x02#8])) ∧
  (∀ (s : State) (str : Bytes), str.length ≤ s.par.operMax → s.blk.fstate = .idle ∨ s.blk.fstate = .stopped →
    exec (.frSend str) s = .next (s.answered [0x84#8]))

/-- 42_byte_framer.md R177: FR_RECV, in the order of its checks. -/
def Obligations.FrRecvDeliversOrPends : Prop :=
  (∀ t : U32, decode (0x43#8 :: u32Bytes t) = .ok (.frRecv t)) ∧
  (∀ (s : State) (t : U32), s.blk.recv ≠ none → exec (.frRecv t) s = .next (s.answered [0x83#8])) ∧
  (∀ (s : State) (t : U32) (c : Bytes) (q : List Bytes), s.blk.recv = none → s.blk.q = c :: q → s.blk.rstate ≠ .held →
    exec (.frRecv t) s = .next (State.answered { s with blk := { s.blk with q := q } } (okStr c))) ∧
  (∀ (s : State) (t : U32) (c : Bytes) (q : List Bytes), s.blk.recv = none → s.blk.q = c :: q → s.blk.rstate = .held →
    exec (.frRecv t) s = .next (State.answered
      { s with blk := { s.blk with q := q ++ [s.blk.chunk], chunk := [], rstate := .waitFirst } } (okStr c))) ∧
  (∀ (s : State) (t : U32), s.blk.recv = none → s.blk.q = [] →
    (s.blk.fstate = .faulted → exec (.frRecv t) s = .next (s.answered
      [0x03#8, match s.blk.fcode with | .none => 0x00#8 | .transport => 0x01#8 | .backpressure => 0x02#8])) ∧
    (s.blk.fstate = .stopped → exec (.frRecv t) s = .next (s.answered [0x02#8])) ∧
    (s.blk.fstate = .idle → exec (.frRecv t) s = .next (s.answered [0x84#8])) ∧
    (s.blk.fstate = .running → t = 0#32 → exec (.frRecv t) s = .next (s.answered [0x01#8])) ∧
    (s.blk.fstate = .running → t ≠ 0#32 → exec (.frRecv t) s = .next { s with blk := { s.blk with recv := some t } }))

/-- 42_byte_framer.md R178, 20_memory.md R74: FR_FLUSH leaves no gathered byte; REM, the RX line and a pending receive stay. -/
def Obligations.FrFlushForgetsGatheredBytes : Prop :=
  decode [0x44#8] = .ok .frFlush ∧
  (∀ s : State, s.blk.rstate = .accum ∨ s.blk.rstate = .held → exec .frFlush s = .next (State.answered
    { s with blk := { s.blk with q := [], chunk := [], icnt := 0#32, ibcnt := 0#32, rstate := .waitFirst } } okFrame)) ∧
  (∀ s : State, s.blk.rstate = .off ∨ s.blk.rstate = .waitFirst → exec .frFlush s = .next (State.answered
    { s with blk := { s.blk with q := [], chunk := [], icnt := 0#32, ibcnt := 0#32 } } okFrame)) ∧
  (∀ s t : State, exec .frFlush s = .next t → gathered t.blk = [])

/-- 30_encoding.md R104, 70_reset_and_hazards.md R283: REQUEST_RTU flushes, encodes and sends: in RUNNING, with a frame that fits the operand
bound, exactly the RTU frame goes out, and no gathered byte is left. -/
def Obligations.RequestRtuFlushesThenSendsFrame : Prop :=
  ∀ (s : State) (a f : Byte) (d : Bytes), s.blk.fstate = .running → d.length + 4 ≤ s.par.operMax →
    ∃ t, execAll (requestRtu a f d) s = .next t ∧ t.tx = s.tx ++ rtuFrame a f d ∧ gathered t.blk = [] ∧
      t.results = s.results ++ [okFrame, okStr (rtuFrame a f d), okFrame] ∧ t.blk.recv = s.blk.recv ∧
      t.blk.fstate = .running ∧ t.rxLine = s.rxLine

/-! ### Byte framer events -/

/-- 42_byte_framer.md R161 to R164: the RxByte event in each reader state; a held reader leaves the byte on the line. -/
def Obligations.RxByteGathersOrDiscardsOrWaits : Prop :=
  ∀ (s : State) (x : Byte) (line : Bytes), s.rxLine = x :: line →
    (s.blk.rstate = .off → rxTurn s = { s with rxLine := line }) ∧
    (s.blk.rstate = .held → rxTurn s = s) ∧
    (s.blk.rstate = .waitFirst → s.par.chunkMax ≠ 1 → rxTurn s =
      { s with rxLine := line, blk := { s.blk with chunk := [x], icnt := 0#32, ibcnt := 0#32, rstate := .accum } }) ∧
    (s.blk.rstate = .waitFirst → s.par.chunkMax = 1 → rxTurn s = complete
      { s with rxLine := line, blk := { s.blk with chunk := [x], icnt := 0#32, ibcnt := 0#32, rstate := .accum } }) ∧
    (s.blk.rstate = .accum → s.blk.chunk.length + 1 ≠ s.par.chunkMax → rxTurn s =
      { s with rxLine := line, blk := { s.blk with chunk := s.blk.chunk ++ [x], ibcnt := 0#32 } }) ∧
    (s.blk.rstate = .accum → s.blk.chunk.length + 1 = s.par.chunkMax → rxTurn s = complete
      { s with rxLine := line, blk := { s.blk with chunk := s.blk.chunk ++ [x], ibcnt := 0#32 } })

/-- 42_byte_framer.md R168, R169: a completed chunk goes to a waiting receive, else into the queue, else where the policy says. -/
def Obligations.CompletedChunkGoesOn : Prop :=
  ∀ s : State,
    (s.blk.recv ≠ none → complete s = State.answered
      { s with blk := { s.blk with chunk := [], icnt := 0#32, ibcnt := 0#32, recv := none, rstate := .waitFirst } }
      (okStr s.blk.chunk)) ∧
    (s.blk.recv = none → s.blk.q.length < s.par.qdepth → complete s =
      { s with blk := { s.blk with
          chunk := [], icnt := 0#32, ibcnt := 0#32, q := s.blk.q ++ [s.blk.chunk], rstate := .waitFirst } }) ∧
    (s.blk.recv = none → s.par.qdepth ≤ s.blk.q.length → s.par.qfullPolicy = .block → complete s =
      { s with blk := { s.blk with icnt := 0#32, ibcnt := 0#32, rstate := .held } }) ∧
    (s.blk.recv = none → s.par.qdepth ≤ s.blk.q.length → s.par.qfullPolicy = .drop → complete s =
      { s with blk := { s.blk with
          chunk := [], icnt := 0#32, ibcnt := 0#32, rstate := .waitFirst,
          cntChunkDrop := BitVec.ofNat 32 (s.blk.cntChunkDrop.toNat + 1) } }) ∧
    (s.blk.recv = none → s.par.qdepth ≤ s.blk.q.length → s.par.qfullPolicy = .fault → complete s =
      { s with blk := { s.blk with
          chunk := [], icnt := 0#32, ibcnt := 0#32, rstate := .off, fstate := .faulted, fcode := .backpressure } })

/-- 42_byte_framer.md R165, R166, R167, R171: the Tick event is NOW, then the reader's timeout, then the receive's; so a chunk that
completes on the tick of a receive's deadline goes to the receive. -/
def Obligations.TickAdvancesTimeReaderReceiver : Prop :=
  (∀ s : State, tick s = recvTick (readerTick
    { s with blk := { s.blk with now := BitVec.ofNat 32 (s.blk.now.toNat + 1) } })) ∧
  (∀ s : State, s.blk.rstate = .off ∨ s.blk.rstate = .held → readerTick s = s) ∧
  (∀ (s : State) (t : U32), s.blk.rstate = .waitFirst → s.blk.tInit = some t →
    (t.toNat ≤ (s.blk.icnt + 1#32).toNat → readerTick s = { s with blk := { s.blk with icnt := 0#32 } }) ∧
    ((s.blk.icnt + 1#32).toNat < t.toNat → readerTick s = { s with blk := { s.blk with icnt := s.blk.icnt + 1#32 } })) ∧
  (∀ (s : State) (t : U32), s.blk.rstate = .accum → s.blk.tIb = some t →
    (t.toNat ≤ (s.blk.ibcnt + 1#32).toNat →
      readerTick s = complete { s with blk := { s.blk with ibcnt := s.blk.ibcnt + 1#32 } }) ∧
    ((s.blk.ibcnt + 1#32).toNat < t.toNat →
      readerTick s = { s with blk := { s.blk with ibcnt := s.blk.ibcnt + 1#32 } })) ∧
  (∀ s : State, s.blk.recv = none → recvTick s = s) ∧
  (∀ s : State, s.blk.recv = some 1#32 →
    recvTick s = State.answered { s with blk := { s.blk with recv := none } } [0x01#8]) ∧
  (∀ (s : State) (r : U32), s.blk.recv = some r → r ≠ 1#32 →
    recvTick s = { s with blk := { s.blk with recv := some (r - 1#32) } }) ∧
  (∀ (s : State) (t : U32), s.blk.rstate = .accum → s.blk.tIb = some t → t.toNat ≤ (s.blk.ibcnt + 1#32).toNat →
    s.blk.recv = some 1#32 →
    (tick s).results = s.results ++ [okStr s.blk.chunk] ∧ (tick s).blk.recv = none ∧ (tick s).blk.q = s.blk.q ∧
      (tick s).blk.rstate = .waitFirst)

/-- 42_byte_framer.md R172, R173, 60_exceptions.md R243: fault entry with either cause, and the transport fault: what is saved, what
is lost, what is kept. -/
def Obligations.RxErrorFaultsRunningFramer : Prop :=
  (∀ (code : FCode) (s : State), s.blk.recv = none → enterFault code s =
    { s with blk := { s.blk with
        fstate := .faulted, fcode := code, rstate := .off, chunk := [], icnt := 0#32, ibcnt := 0#32 } }) ∧
  (∀ (code : FCode) (s : State), s.blk.recv ≠ none → enterFault code s = State.answered
    { s with blk := { s.blk with
        fstate := .faulted, fcode := code, rstate := .off, chunk := [], icnt := 0#32, ibcnt := 0#32, recv := none } }
    [0x03#8, match code with | .none => 0x00#8 | .transport => 0x01#8 | .backpressure => 0x02#8]) ∧
  (∀ s : State, s.blk.fstate ≠ .running → rxError s = s) ∧
  (∀ s : State, s.blk.fstate = .running → rxError s = enterFault .transport s)

/-! ### The whole machine -/

/-- 60_exceptions.md R240, 93_implementation_defined.md: nothing stops the block: every step of every state has a next state, with the same
parameters, and streams that only grow. -/
def Obligations.StepNeverStops : Prop :=
  ∀ s : State, ∃ t, step s = .next t ∧ t.par = s.par ∧ s.tx <+: t.tx ∧ s.results <+: t.results

/-- 10_state.md R47: the invariants hold after reset, for every legal instance. -/
def Obligations.ResetStateIsSafe : Prop := ∀ p : Params, p.Legal → Safe (State.resetWith p)

/-- 10_state.md R47: every step of every agent keeps the invariants. -/
def Obligations.EveryStepKeepsSafe : Prop := ∀ s t : State, Safe s → step s = .next t → Safe t

/-- 44_control.md R226: a command frame adds one to the results given and owed together, and an event none; the block owes a
result exactly while a receive is pending. -/
def Obligations.EveryCommandFrameGetsOneResult : Prop :=
  ∀ s t : State, step s = .next t →
    ((∃ sched frame cmds, s.sched = .host :: sched ∧ s.cmds = frame :: cmds) →
      t.results.length + owed t.blk = s.results.length + owed s.blk + 1) ∧
    ((¬ ∃ sched frame cmds, s.sched = .host :: sched ∧ s.cmds = frame :: cmds) →
      t.results.length + owed t.blk = s.results.length + owed s.blk)

/-- 30_encoding.md R105, 44_control.md R225: every ERR_* status leaves all state unchanged, for every command. -/
def Obligations.ErrorStatusLeavesStateUnchanged : Prop :=
  ∀ (i : Instr) (s t : State) (st : Byte), exec i s = .next t → t.results = s.results ++ [[st]] → 0x80 ≤ st.toNat →
    t = s.answered [st]

/-- 60_exceptions.md R248: FAULTED, with its cause, is left only by a RESET frame; and it is entered only with a cause. -/
def Obligations.FaultLeftOnlyByReset : Prop :=
  ∀ s t : State, StateInvariants s.par s.blk → s.blk.fstate = .faulted → step s = .next t →
    (t.blk.fstate = .faulted ∧ t.blk.fcode = s.blk.fcode) ∨
    (∃ sched cmds, s.sched = .host :: sched ∧ s.cmds = [0x01#8] :: cmds)

/-- 42_byte_framer.md R171, R177, 70_reset_and_hazards.md R288: a receive pending with r ticks left has ended once r Tick events have come,
whatever other steps fall between them. -/
def Obligations.PendingReceiveEndsWithinItsTicks : Prop :=
  ∀ (n : Nat) (s : State) (r : U32), s.blk.recv = some r → r ≠ 0#32 → r.toNat ≤ (s.sched.take n).count .clock →
    ∃ m u, m ≤ n ∧ runSteps m s = .next u ∧ u.blk.recv = none

/-- 42_byte_framer.md R180, R167: after a byte that did not fill the chunk, fewer than T_IB ticks leave the chunk open, and T_IB ticks
close it. -/
def Obligations.ChunkClosesAfterInterByteTimeout : Prop :=
  ∀ (s : State) (t : U32), s.blk.rstate = .accum → s.blk.ibcnt = 0#32 → s.blk.tIb = some t → t ≠ 0#32 →
    (∀ g, g < t.toNat →
      (ticks g s).blk.rstate = .accum ∧ (ticks g s).blk.chunk = s.blk.chunk ∧ (ticks g s).blk.ibcnt.toNat = g ∧
      (ticks g s).blk.q = s.blk.q) ∧
    (ticks t.toNat s).blk.rstate ≠ .accum

/-- 42_byte_framer.md R179: ICNT, and the number a set T_INIT holds, are unobservable: states that differ only there give next states
that differ only there, with equal results and TX streams. CFG_RD of T_INIT, which reads the register itself, is the one
exception for T_INIT (log 13). -/
def Obligations.InitialTimeoutIsUnobservable : Prop :=
  (∀ s t s' : State, SameButIcnt s t → step s = .next s' → ∃ t', step t = .next t' ∧ SameButIcnt s' t') ∧
  (∀ s t s' : State, SameButInitialTimeout s t →
    (¬ ∃ sched cmds, s.sched = .host :: sched ∧ s.cmds = [0x02#8, 0x00#8] :: cmds) →
    step s = .next s' → ∃ t', step t = .next t' ∧ SameButInitialTimeout s' t')

/-- 20_memory.md R72 items 1 to 4, under BLOCK: bytes are gathered in the order they arrive, none lost, doubled or reordered:
an accepted byte comes last, a tick moves none, a receive takes from the front, and a chunk handed to a pending receive
is all that was gathered. -/
def Obligations.GatheredBytesKeepTheirOrder : Prop :=
  ∀ s : State, StateInvariants s.par s.blk → s.par.qfullPolicy = .block →
    (∀ x line, s.rxLine = x :: line → s.blk.rstate = .waitFirst ∨ s.blk.rstate = .accum →
      (gathered (rxTurn s).blk = gathered s.blk ++ [x] ∧ (rxTurn s).results = s.results) ∨
      (gathered (rxTurn s).blk = [] ∧ (rxTurn s).results = s.results ++ [okStr (gathered s.blk ++ [x])] ∧
        s.blk.recv ≠ none)) ∧
    ((gathered (tick s).blk = gathered s.blk ∧ (s.blk.recv = none → (tick s).results = s.results)) ∨
      (gathered (tick s).blk = [] ∧ (tick s).results = s.results ++ [okStr (gathered s.blk)] ∧ s.blk.recv ≠ none)) ∧
    (∀ (w : U32) (c : Bytes) (q : List Bytes) (t : State), s.blk.recv = none → s.blk.q = c :: q →
      exec (.frRecv w) s = .next t → gathered s.blk = c ++ gathered t.blk)

/-- 20_memory.md R69: the reads, the computes, the encoders and DEC_RTU_CAND change no state, and repeating one gives the same
result frame. -/
def Obligations.ReadingCommandsChangeNothing : Prop :=
  ∀ (i : Instr) (s : State),
    (match i with
      | .cfgRd _ => True
      | .crcRead => True
      | .lrcRead => True
      | .crcCompute _ => True
      | .lrcCompute _ => True
      | .encAscii _ _ _ => True
      | .encRtu _ _ _ => True
      | .decRtuCand _ _ => True
      | _ => False) →
    ∃ frame, exec i s = .next (s.answered frame) ∧
      exec i (s.answered frame) = .next ((s.answered frame).answered frame)
end

