-- ==== Sys2Proof/Laws/Bytes.lean ====
section
/-! SUPPORT. The byte order of the command port (20_memory.md R65): a field's bytes give the field back, and the other way
round; the bytes of a length or a value as quotients. -/

namespace Sys2Proof

open Sys2Proof.Machine

/-- A BitVec is known by its number. -/
theorem byte_ext {a b : Byte} (h : a.toNat = b.toNat) : a = b := BitVec.eq_of_toNat_eq h

theorem extractByte_toNat {w : Nat} (v : BitVec w) (i : Nat) :
    v.extractLsb' i 8 = BitVec.ofNat 8 (v.toNat / 2 ^ i) := by
  apply BitVec.eq_of_toNat_eq
  simp [BitVec.extractLsb'_toNat, Nat.shiftRight_eq_div_pow]

/-- Two bit fields side by side, as a number. -/
theorem append_toNat {v w : Nat} (x : BitVec v) (y : BitVec w) : (x ++ y).toNat = x.toNat * 2 ^ w + y.toNat := by
  rw [BitVec.toNat_append, ← Nat.shiftLeft_add_eq_or_of_lt y.isLt, Nat.shiftLeft_eq]

/-- The two bytes of a u16 as quotients. -/
theorem le16_eq (v : U16) : le16 v = [BitVec.ofNat 8 v.toNat, BitVec.ofNat 8 (v.toNat / 256)] := by
  simp [le16, extractByte_toNat]

/-- The four bytes of a u32 as quotients. -/
theorem le32_eq (v : U32) : le32 v = u32Bytes v := by
  simp [le32, extractByte_toNat, u32Bytes]

@[simp] theorem le16_length (v : U16) : (le16 v).length = 2 := rfl

@[simp] theorem le32_length (v : U32) : (le32 v).length = 4 := rfl

@[simp] theorem lenPrefixed_length (s : Bytes) : (lenPrefixed s).length = 2 + s.length := by
  simp [lenPrefixed]

/-- The length field of a byte string as quotients. -/
theorem le16_ofNat (n : Nat) : le16 (BitVec.ofNat 16 n) = [BitVec.ofNat 8 n, BitVec.ofNat 8 (n / 256)] := by
  rw [le16_eq]
  congr 1
  · apply BitVec.eq_of_toNat_eq
    simp
  · congr 1
    apply BitVec.eq_of_toNat_eq
    simp only [BitVec.toNat_ofNat]
    omega

theorem lenPrefixed_eq (s : Bytes) : lenPrefixed s = strBytes s := by
  simp [lenPrefixed, le16_ofNat, strBytes]

/-- A u16 field's number (30_encoding.md R93). -/
theorem u16OfLe_toNat (p0 p1 : Byte) : (u16OfLe p0 p1).toNat = p0.toNat + 256 * p1.toNat := by
  have h0 := p0.isLt
  have h1 := p1.isLt
  simp only [u16OfLe, BitVec.toNat_or, BitVec.toNat_shiftLeft, BitVec.toNat_setWidth]
  rw [Nat.or_comm, Nat.mod_eq_of_lt (a := p0.toNat) (by omega), Nat.mod_eq_of_lt (a := p1.toNat) (by omega),
    Nat.mod_eq_of_lt (a := p1.toNat <<< 8) (by rw [Nat.shiftLeft_eq]; omega),
    ← Nat.shiftLeft_add_eq_or_of_lt (by omega), Nat.shiftLeft_eq]
  omega

/-- A u32 field's number (30_encoding.md R93). -/
theorem u32OfLe_toNat (p0 p1 p2 p3 : Byte) :
    (u32OfLe p0 p1 p2 p3).toNat = p0.toNat + 256 * p1.toNat + 65536 * p2.toNat + 16777216 * p3.toNat := by
  have h0 := p0.isLt
  have h1 := p1.isLt
  have h2 := p2.isLt
  have h3 := p3.isLt
  simp only [u32OfLe, BitVec.toNat_or, BitVec.toNat_shiftLeft, BitVec.toNat_setWidth]
  rw [Nat.mod_eq_of_lt (a := p0.toNat) (by omega), Nat.mod_eq_of_lt (a := p1.toNat) (by omega),
    Nat.mod_eq_of_lt (a := p2.toNat) (by omega), Nat.mod_eq_of_lt (a := p3.toNat) (by omega),
    Nat.mod_eq_of_lt (a := p1.toNat <<< 8) (by rw [Nat.shiftLeft_eq]; omega),
    Nat.mod_eq_of_lt (a := p2.toNat <<< 16) (by rw [Nat.shiftLeft_eq]; omega),
    Nat.mod_eq_of_lt (a := p3.toNat <<< 24) (by rw [Nat.shiftLeft_eq]; omega)]
  rw [Nat.or_comm p0.toNat, ← Nat.shiftLeft_add_eq_or_of_lt (by omega),
    Nat.or_comm _ (p2.toNat <<< 16), ← Nat.shiftLeft_add_eq_or_of_lt (by simp only [Nat.shiftLeft_eq]; omega),
    Nat.or_comm _ (p3.toNat <<< 24), ← Nat.shiftLeft_add_eq_or_of_lt (by simp only [Nat.shiftLeft_eq]; omega)]
  simp only [Nat.shiftLeft_eq]
  omega

/-- A u16's bytes give it back. -/
@[simp] theorem u16OfLe_le16 (v : U16) : u16OfLe (v.extractLsb' 0 8) (v.extractLsb' 8 8) = v := by
  apply BitVec.eq_of_toNat_eq
  have := v.isLt
  simp [u16OfLe_toNat, extractByte_toNat]
  omega

/-- A u32's bytes give it back. -/
@[simp] theorem u32OfLe_le32 (v : U32) :
    u32OfLe (v.extractLsb' 0 8) (v.extractLsb' 8 8) (v.extractLsb' 16 8) (v.extractLsb' 24 8) = v := by
  apply BitVec.eq_of_toNat_eq
  have := v.isLt
  simp [u32OfLe_toNat, extractByte_toNat]
  omega

/-- The bytes of a field assembled from two bytes are those bytes. -/
theorem le16_u16OfLe (p0 p1 : Byte) : le16 (u16OfLe p0 p1) = [p0, p1] := by
  rw [le16_eq, u16OfLe_toNat]
  have h0 := p0.isLt
  have h1 := p1.isLt
  congr 1
  · apply BitVec.eq_of_toNat_eq; simp; omega
  · congr 1; apply BitVec.eq_of_toNat_eq; simp; omega

/-- The bytes of a field assembled from four bytes are those bytes. -/
theorem le32_u32OfLe (p0 p1 p2 p3 : Byte) : le32 (u32OfLe p0 p1 p2 p3) = [p0, p1, p2, p3] := by
  rw [le32_eq, u32Bytes, u32OfLe_toNat]
  have h0 := p0.isLt
  have h1 := p1.isLt
  have h2 := p2.isLt
  have h3 := p3.isLt
  simp only [List.cons.injEq, and_true]
  refine ⟨?_, ?_, ?_, ?_⟩ <;> apply BitVec.eq_of_toNat_eq <;> simp <;> omega

end Sys2Proof
end

