-- ==== Sys2Proof/Laws/State.lean ====
section
/-! SUPPORT. One lemma per field for each named update of the machine, so that no later proof unfolds a record update. -/

namespace Sys2Proof.Machine

@[simp] theorem State.setBlk_par (s : State) (b : Block) : (s.setBlk b).par = s.par := rfl
@[simp] theorem State.setBlk_blk (s : State) (b : Block) : (s.setBlk b).blk = b := rfl
@[simp] theorem State.setBlk_cmds (s : State) (b : Block) : (s.setBlk b).cmds = s.cmds := rfl
@[simp] theorem State.setBlk_rxLine (s : State) (b : Block) : (s.setBlk b).rxLine = s.rxLine := rfl
@[simp] theorem State.setBlk_sched (s : State) (b : Block) : (s.setBlk b).sched = s.sched := rfl
@[simp] theorem State.setBlk_tx (s : State) (b : Block) : (s.setBlk b).tx = s.tx := rfl
@[simp] theorem State.setBlk_results (s : State) (b : Block) : (s.setBlk b).results = s.results := rfl

@[simp] theorem State.emit_par (s : State) (st : Status) (p : Payload) : (s.emit st p).par = s.par := rfl
@[simp] theorem State.emit_blk (s : State) (st : Status) (p : Payload) : (s.emit st p).blk = s.blk := rfl
@[simp] theorem State.emit_cmds (s : State) (st : Status) (p : Payload) : (s.emit st p).cmds = s.cmds := rfl
@[simp] theorem State.emit_rxLine (s : State) (st : Status) (p : Payload) : (s.emit st p).rxLine = s.rxLine := rfl
@[simp] theorem State.emit_sched (s : State) (st : Status) (p : Payload) : (s.emit st p).sched = s.sched := rfl
@[simp] theorem State.emit_tx (s : State) (st : Status) (p : Payload) : (s.emit st p).tx = s.tx := rfl
@[simp] theorem State.emit_results (s : State) (st : Status) (p : Payload) : (s.emit st p).results = s.results ++ [resultFrame st p] := rfl

@[simp] theorem State.emitTx_par (s : State) (bs : Bytes) : (s.emitTx bs).par = s.par := rfl
@[simp] theorem State.emitTx_blk (s : State) (bs : Bytes) : (s.emitTx bs).blk = s.blk := rfl
@[simp] theorem State.emitTx_cmds (s : State) (bs : Bytes) : (s.emitTx bs).cmds = s.cmds := rfl
@[simp] theorem State.emitTx_rxLine (s : State) (bs : Bytes) : (s.emitTx bs).rxLine = s.rxLine := rfl
@[simp] theorem State.emitTx_sched (s : State) (bs : Bytes) : (s.emitTx bs).sched = s.sched := rfl
@[simp] theorem State.emitTx_tx (s : State) (bs : Bytes) : (s.emitTx bs).tx = s.tx ++ bs := rfl
@[simp] theorem State.emitTx_results (s : State) (bs : Bytes) : (s.emitTx bs).results = s.results := rfl

@[simp] theorem State.answered_par (s : State) (fr : Bytes) : (s.answered fr).par = s.par := rfl
@[simp] theorem State.answered_blk (s : State) (fr : Bytes) : (s.answered fr).blk = s.blk := rfl
@[simp] theorem State.answered_cmds (s : State) (fr : Bytes) : (s.answered fr).cmds = s.cmds := rfl
@[simp] theorem State.answered_rxLine (s : State) (fr : Bytes) : (s.answered fr).rxLine = s.rxLine := rfl
@[simp] theorem State.answered_sched (s : State) (fr : Bytes) : (s.answered fr).sched = s.sched := rfl
@[simp] theorem State.answered_tx (s : State) (fr : Bytes) : (s.answered fr).tx = s.tx := rfl
@[simp] theorem State.answered_results (s : State) (fr : Bytes) : (s.answered fr).results = s.results ++ [fr] := rfl

/-- Replacing the block's state by itself changes nothing. -/
@[simp] theorem State.setBlk_self (s : State) : s.setBlk s.blk = s := rfl

@[simp] theorem State.setBlk_setBlk (s : State) (b c : Block) : (s.setBlk b).setBlk c = s.setBlk c := rfl

/-- An emitted result is one more frame on the result port. -/
theorem State.emit_eq_answered (s : State) (st : Status) (p : Payload) : s.emit st p = s.answered (resultFrame st p) := rfl

/-- Replacing the block and emitting a frame commute. -/
theorem State.emit_setBlk (s : State) (st : Status) (p : Payload) (b : Block) :
    (s.emit st p).setBlk b = (s.setBlk b).emit st p := rfl

@[simp] theorem clearChunk_tInit (b : Block) : (clearChunk b).tInit = b.tInit := rfl
@[simp] theorem clearChunk_tIb (b : Block) : (clearChunk b).tIb = b.tIb := rfl
@[simp] theorem clearChunk_port (b : Block) : (clearChunk b).port = b.port := rfl
@[simp] theorem clearChunk_baud (b : Block) : (clearChunk b).baud = b.baud := rfl
@[simp] theorem clearChunk_duplex (b : Block) : (clearChunk b).duplex = b.duplex := rfl
@[simp] theorem clearChunk_term (b : Block) : (clearChunk b).term = b.term := rfl
@[simp] theorem clearChunk_crcAcc (b : Block) : (clearChunk b).crcAcc = b.crcAcc := rfl
@[simp] theorem clearChunk_lrcAcc (b : Block) : (clearChunk b).lrcAcc = b.lrcAcc := rfl
@[simp] theorem clearChunk_rem (b : Block) : (clearChunk b).rem = b.rem := rfl
@[simp] theorem clearChunk_fstate (b : Block) : (clearChunk b).fstate = b.fstate := rfl
@[simp] theorem clearChunk_fcode (b : Block) : (clearChunk b).fcode = b.fcode := rfl
@[simp] theorem clearChunk_rstate (b : Block) : (clearChunk b).rstate = b.rstate := rfl
@[simp] theorem clearChunk_chunk (b : Block) : (clearChunk b).chunk = [] := rfl
@[simp] theorem clearChunk_icnt (b : Block) : (clearChunk b).icnt = 0#32 := rfl
@[simp] theorem clearChunk_ibcnt (b : Block) : (clearChunk b).ibcnt = 0#32 := rfl
@[simp] theorem clearChunk_q (b : Block) : (clearChunk b).q = b.q := rfl
@[simp] theorem clearChunk_recv (b : Block) : (clearChunk b).recv = b.recv := rfl
@[simp] theorem clearChunk_now (b : Block) : (clearChunk b).now = b.now := rfl
@[simp] theorem clearChunk_cntAsciiDrop (b : Block) : (clearChunk b).cntAsciiDrop = b.cntAsciiDrop := rfl
@[simp] theorem clearChunk_cntRtuDrop (b : Block) : (clearChunk b).cntRtuDrop = b.cntRtuDrop := rfl
@[simp] theorem clearChunk_cntChunkDrop (b : Block) : (clearChunk b).cntChunkDrop = b.cntChunkDrop := rfl

end Sys2Proof.Machine
end

