-- ==== Sys2Proof/Laws/Ops.lean ====
section
/-! SUPPORT. One lemma for each shared operation that says everything it can do. -/

namespace Sys2Proof.Machine

/-! ### Result frames -/

@[simp] theorem resultFrame_empty (st : Status) : resultFrame st .empty = [st.code] := rfl

@[simp] theorem resultFrame_ok_u8 (v : Byte) : resultFrame .ok (.u8 v) = [0x00#8, v] := rfl

@[simp] theorem resultFrame_ok_u16 (v : U16) : resultFrame .ok (.u16 v) = okU16 v := by
  simp [resultFrame, Payload.bytes, okU16, le16_eq, Status.code]

@[simp] theorem resultFrame_ok_u32 (v : U32) : resultFrame .ok (.u32 v) = okU32 v := by
  simp [resultFrame, Payload.bytes, okU32, le32_eq, Status.code]

@[simp] theorem resultFrame_ok_str (s : Bytes) : resultFrame .ok (.str s) = okStr s := by
  simp [resultFrame, Payload.bytes, okStr, lenPrefixed_eq, Status.code]

theorem msgBytes_ofTriple (m : Triple) (t : U32) : msgBytes (Msg.ofTriple m t) = messageBytes m t := by
  simp [msgBytes, Msg.ofTriple, messageBytes, le32_eq, lenPrefixed_eq]

@[simp] theorem resultFrame_ok_msg (m : Triple) (t : U32) :
    resultFrame .ok (.msg (Msg.ofTriple m t)) = 0x00#8 :: messageBytes m t := by
  simp [resultFrame, Payload.bytes, msgBytes_ofTriple, Status.code]

@[simp] theorem resultFrame_ok_list (ms : List Triple) (t : U32) :
    resultFrame .ok (.list (ms.map (fun m => Msg.ofTriple m t))) = okList ms t := by
  simp [resultFrame, Payload.bytes, okList, le16_ofNat, Status.code, List.flatMap_map, msgBytes_ofTriple]

/-- Every result frame has its status byte. -/
theorem resultFrame_ne_nil (st : Status) (p : Payload) : resultFrame st p ≠ [] := by simp [resultFrame]

/-! ### STATUS -/

theorem ofBool_toNat (b : Bool) : (BitVec.ofBool b).toNat = b.toNat := by cases b <;> rfl

/-- `STATUS` as a number, each field at its bit (10_state.md R43). -/
theorem statusWord_toNat (p : Params) (b : Block) :
    (statusWord p b).toNat = b.fstate.code.toNat + 4 * b.fcode.code.toNat + 16 * b.rstate.code.toNat +
      64 * (flagRxp b).toNat + 128 * (flagQfull p b).toNat + 256 * (flagQne b).toNat + 512 * (flagRemne b).toNat +
      1024 * b.term.toNat := by
  simp only [statusWord, append_toNat, ofBool_toNat, BitVec.toNat_ofNat]
  omega

/-! ### Returning -/

theorem ret_eq (st : Status) (p : Payload) (s : State) : ret st p s = .next (s.answered (resultFrame st p)) := rfl

theorem raise_eq (st : Status) (s : State) : raise st s = .next (s.answered [st.code]) := rfl

/-- `ERR_LEN`, or the command goes on. -/
theorem withOperand_of_le {str : Bytes} {s : State} (next : Result) (h : str.length ≤ s.par.operMax) :
    withOperand str s next = next := by
  simp [withOperand, Nat.not_lt.mpr h]

theorem withOperand_of_lt {str : Bytes} {s : State} (next : Result) (h : s.par.operMax < str.length) :
    withOperand str s next = .next (s.answered [0x82#8]) := by
  simp only [withOperand, gt_iff_lt, h, if_true]
  rfl

/-! ### The pending receive, and faults -/

theorem recvDone_eq (st : Status) (p : Payload) (s : State) :
    recvDone st p s = State.answered { s with blk := { s.blk with recv := none } } (resultFrame st p) := rfl

/-- Waking the receiver with `STOPPED`: one result frame when a receive was pending, and none is pending after. -/
theorem wakeReceiver_stopped (s : State) :
    wakeReceiver .stopped .empty s =
      { s with blk := { s.blk with recv := none }, results := s.results ++ stoppedFrames s.blk } := by
  cases h : s.blk.recv with
  | none =>
    have hb : ({ s.blk with recv := none } : Block) = s.blk := by rw [← h]
    simp [wakeReceiver, stoppedFrames, h, hb]
  | some r => simp only [wakeReceiver, stoppedFrames, h]; rfl

theorem wakeReceiver_of_none {st : Status} {p : Payload} {s : State} (h : s.blk.recv = none) :
    wakeReceiver st p s = s := by
  simp [wakeReceiver, h]

theorem wakeReceiver_of_some {st : Status} {p : Payload} {s : State} {r : U32} (h : s.blk.recv = some r) :
    wakeReceiver st p s = recvDone st p s := by
  simp [wakeReceiver, h]

/-- Fault entry touches the framer, the reader and the pending receive only; the queue and the counters stay. -/
theorem enterFault_frame (code : FCode) (s : State) :
    (enterFault code s).par = s.par ∧ (enterFault code s).tx = s.tx ∧ (enterFault code s).rxLine = s.rxLine ∧
    (enterFault code s).cmds = s.cmds ∧ (enterFault code s).sched = s.sched ∧
    (enterFault code s).blk = { s.blk with
      fstate := .faulted, fcode := code, rstate := .off, chunk := [], icnt := 0#32, ibcnt := 0#32, recv := none } := by
  cases h : s.blk.recv with
  | none => simp [enterFault, wakeReceiver, h]
  | some r => simp [enterFault, wakeReceiver, h, recvDone]

/-- The reset of the block leaves the environment alone. -/
theorem resetBlock_eq (s : State) :
    resetBlock s = { s with blk := Block.reset, results := s.results ++ stoppedFrames s.blk } := by
  rw [resetBlock, wakeReceiver_stopped]
  rfl

/-! ### The completed chunk -/

/-- Everything `complete` can do: deliver the chunk to the pending receive, push it, hold it, drop it, or fault. -/
theorem complete_cases (s : State) :
    (∃ r, s.blk.recv = some r ∧ complete s = State.answered
      { s with blk := { clearChunk s.blk with recv := none, rstate := .waitFirst } } (okStr s.blk.chunk)) ∨
    (s.blk.recv = none ∧ s.blk.q.length < s.par.qdepth ∧ complete s =
      { s with blk := { clearChunk s.blk with q := s.blk.q ++ [s.blk.chunk], rstate := .waitFirst } }) ∨
    (s.blk.recv = none ∧ s.par.qdepth ≤ s.blk.q.length ∧ s.par.qfullPolicy = .block ∧ complete s =
      { s with blk := { clearChunk s.blk with chunk := s.blk.chunk, rstate := .held } }) ∨
    (s.blk.recv = none ∧ s.par.qdepth ≤ s.blk.q.length ∧ s.par.qfullPolicy = .drop ∧ complete s =
      { s with blk := { clearChunk s.blk with cntChunkDrop := s.blk.cntChunkDrop + 1#32, rstate := .waitFirst } }) ∨
    (s.blk.recv = none ∧ s.par.qdepth ≤ s.blk.q.length ∧ s.par.qfullPolicy = .fault ∧ complete s =
      { s with blk := { clearChunk s.blk with fstate := .faulted, fcode := .backpressure, rstate := .off } }) := by
  obtain h | ⟨r, h⟩ : s.blk.recv = none ∨ ∃ r, s.blk.recv = some r := by cases s.blk.recv <;> simp
  · right
    by_cases hq : s.blk.q.length < s.par.qdepth
    · exact .inl ⟨h, hq, by simp [complete, h, hq, State.setBlk]⟩
    · right
      have hle := Nat.not_lt.mp hq
      cases hp : s.par.qfullPolicy with
      | block => exact .inl ⟨h, hle, rfl, by simp [complete, h, hq, State.setBlk, queueFull, hp]⟩
      | drop => exact .inr (.inl ⟨h, hle, rfl, by simp [complete, h, hq, State.setBlk, queueFull, hp]⟩)
      | fault =>
        exact .inr (.inr ⟨h, hle, rfl, by
          simp [complete, h, hq, State.setBlk, queueFull, hp, enterFault, wakeReceiver]⟩)
  · exact .inl ⟨r, h, by simp [complete, h, recvDone, State.setBlk, State.emit, State.answered]⟩

end Sys2Proof.Machine
end

