-- ==== Sys2Proof/Laws/Checksum.lean ====
section
/-! SUPPORT. The algebra of the checksums: the byte sum as a number, and the CRC step as a linear, injective map. -/

namespace Sys2Proof.Machine

/-! ### LRC -/

theorem byteSum_foldl_toNat (acc : Byte) (str : Bytes) :
    (str.foldl (fun acc b => acc + b) acc).toNat = (acc.toNat + (str.map BitVec.toNat).sum) % 256 := by
  induction str generalizing acc with
  | nil =>
    have := acc.isLt
    simp
    omega
  | cons b t ih =>
    simp [ih]
    omega

/-- The LRC's sum as a number (40_checksum.md R124). -/
theorem byteSum_toNat (str : Bytes) : (byteSum str).toNat = (str.map BitVec.toNat).sum % 256 := by
  simp [byteSum, byteSum_foldl_toNat]

theorem lrcOfSum_toNat (v : Byte) : (lrcOfSum v).toNat = (256 - v.toNat) % 256 := by
  simp [lrcOfSum]

/-! ### CRC -/

@[simp] theorem crcFrom_nil (c : U16) : crcFrom c [] = c := rfl

@[simp] theorem crcFrom_cons (c : U16) (b : Byte) (t : Bytes) : crcFrom c (b :: t) = crcFrom (crcStep c b) t := rfl

theorem crcFrom_append (c : U16) (s t : Bytes) : crcFrom c (s ++ t) = crcFrom (crcFrom c s) t := by
  simp [crcFrom]

/-- A round with the bit shifted out read as the remainder by 2. -/
theorem crcShift_eq_ite_mod (x : U16) :
    crcShift x = if x.toNat % 2 = 1 then (x >>> 1) ^^^ 0xA001#16 else x >>> 1 := by
  simp [crcShift, BitVec.getLsbD]

/-- The last round taken off instead of the first. -/
theorem crcShifts_succ_last (n : Nat) (c : U16) : crcShifts (n + 1) c = crcShift (crcShifts n c) := by
  induction n generalizing c with
  | zero => rfl
  | succ n ih => rw [crcShifts, ih, crcShifts]

/-- The rounds as a repeated function. -/
theorem crcShifts_eq_repeat (n : Nat) (c : U16) : crcShifts n c = Nat.repeat crcShift n c := by
  induction n with
  | zero => rfl
  | succ n ih => rw [crcShifts_succ_last, ih, Nat.repeat]

theorem crcShift_xor (x y : U16) : crcShift (x ^^^ y) = crcShift x ^^^ crcShift y := by
  unfold crcShift
  rw [BitVec.getLsbD_xor]
  cases x.getLsbD 0 <;> cases y.getLsbD 0 <;> simp [BitVec.ushiftRight_xor_distrib] <;> ac_nf <;> simp

theorem crcShifts_xor (n : Nat) (x y : U16) : crcShifts n (x ^^^ y) = crcShifts n x ^^^ crcShifts n y := by
  induction n generalizing x y with
  | zero => rfl
  | succ n ih => simp [crcShifts, crcShift_xor, ih]

theorem crcShift_eq_zero {z : U16} (hz : crcShift z = 0#16) : z = 0#16 := by
  unfold crcShift at hz
  split at hz
  · have := congrArg (fun v => v.getLsbD 15) hz
    simp at this
  · rename_i h0
    apply BitVec.eq_of_getLsbD_eq
    intro i hi
    rcases i with _ | i
    · simpa using h0
    · have := congrArg (fun v => v.getLsbD i) hz
      simp at this
      simp [Nat.add_comm i 1, this]

theorem crcShift_inj {x y : U16} (h : crcShift x = crcShift y) : x = y :=
  BitVec.xor_eq_zero_iff.1 (crcShift_eq_zero (by rw [crcShift_xor, h, BitVec.xor_self]))

theorem crcShifts_inj (n : Nat) {x y : U16} (h : crcShifts n x = crcShifts n y) : x = y := by
  induction n generalizing x y with
  | zero => exact h
  | succ n ih => exact crcShift_inj (ih h)

/-- Different accumulators stay different under the same byte. -/
theorem crcStep_inj_left {c c' : U16} {b : Byte} (h : crcStep c b = crcStep c' b) : c = c' := by
  have := congrArg (· ^^^ b.setWidth 16) (crcShifts_inj 8 h)
  simpa [BitVec.xor_assoc] using this

/-- Different bytes make different accumulators. -/
theorem crcStep_inj_right {c : U16} {b b' : Byte} (h : crcStep c b = crcStep c b') : b = b' := by
  have := congrArg (c ^^^ ·) (crcShifts_inj 8 h)
  simp at this
  simpa using congrArg (BitVec.setWidth 8) this

theorem crcFrom_inj (t : Bytes) {c c' : U16} (h : crcFrom c t = crcFrom c' t) : c = c' := by
  induction t generalizing c c' with
  | nil => exact h
  | cons b t ih => exact crcStep_inj_left (ih h)

/-- Eight rounds move a high byte down unchanged. -/
theorem crcShifts_high (h : Byte) : crcShifts 8 (h.setWidth 16 <<< 8) = h.setWidth 16 := by
  revert h
  set_option maxRecDepth 100000 in decide

/-- A u16 as its two bytes. -/
theorem u16_split (c : U16) :
    c = ((c >>> 8).setWidth 8).setWidth 16 <<< 8 ^^^ (c.extractLsb' 0 8).setWidth 16 := by
  apply BitVec.eq_of_getLsbD_eq
  intro i hi
  simp only [BitVec.getLsbD_xor, BitVec.getLsbD_shiftLeft, BitVec.getLsbD_setWidth, BitVec.getLsbD_ushiftRight,
    BitVec.getLsbD_extractLsb']
  by_cases h : i < 8
  · simp [h, hi]
  · have h1 : i - 8 < 8 := by omega
    have h2 : i - 8 < 16 := by omega
    have h3 : 8 + (i - 8) = i := by omega
    simp [h, hi, h1, h2, h3]

end Sys2Proof.Machine
end

