-- ==== Sys2Proof/Laws/Codec.lean ====
section
/-! SUPPORT. The frame codec's parts: hex digits and pairs, the last colon of a string, the split of a decoded frame, and exactly
when the RTU test takes a buffer. -/

namespace Sys2Proof.Machine

/-! ### Hex digits -/

/-- The decoder reads back the encoder's digits. -/
@[simp] theorem unhex_hexDigit (v : BitVec 4) : unhex (hexDigit v) = some v := by
  revert v
  decide

/-- A character below the digits is no digit. -/
theorem unhex_eq_none_of_lt {c : Byte} (h : c.toNat < 0x30) : unhex c = none := by
  simp only [unhex]
  rw [if_neg (by omega), if_neg (by omega), if_neg (by omega)]

theorem unhex_chColon : unhex chColon = none := by decide
theorem unhex_chCr : unhex chCr = none := by decide

/-- The two nibbles of a byte give it back. -/
theorem nibbles_append (b : Byte) : b.extractLsb' 4 4 ++ b.extractLsb' 0 4 = b := by
  apply BitVec.eq_of_toNat_eq
  have := b.isLt
  rw [append_toNat]
  simp [BitVec.extractLsb'_toNat, Nat.shiftRight_eq_div_pow]
  omega

/-- Decoding a string's digit pairs gives the string. -/
theorem unhexPairs_flatMap_hex2 (s : Bytes) : unhexPairs (s.flatMap hex2) = some s := by
  induction s with
  | nil => rfl
  | cons b t ih => simp [List.flatMap_cons, hex2, unhexPairs, ih, nibbles_append]

/-- What decodes as digit pairs has two characters for each byte, all of them hex digits. -/
theorem unhexPairs_some {h bs : Bytes} (e : unhexPairs h = some bs) :
    h.length = 2 * bs.length ∧ ∀ c ∈ h, unhex c ≠ none := by
  induction h using unhexPairs.induct generalizing bs with
  | case1 =>
    simp only [unhexPairs, Option.some.injEq] at e
    simp [← e]
  | case2 => simp [unhexPairs] at e
  | case3 c0 c1 rest v0 v1 bs' e2 e1 e0 ih =>
    simp only [unhexPairs, e0, e1, e2, Option.some.injEq] at e
    obtain ⟨hl, hd⟩ := ih e2
    subst e
    refine ⟨by simp; omega, ?_⟩
    simp only [List.mem_cons]
    rintro c (rfl | rfl | hc)
    · simp [e0]
    · simp [e1]
    · exact hd c hc
  | case4 c0 c1 rest hno ih => simp [unhexPairs] at e

/-- The digits of a pair are no colon. -/
theorem chColon_notMem_of_unhex {h : Bytes} (hd : ∀ c ∈ h, unhex c ≠ none) : chColon ∉ h :=
  fun hm => hd chColon hm unhex_chColon

/-! ### The last colon -/

/-- No colon, nothing after it. -/
theorem afterLastColon_eq_none {t : Bytes} : afterLastColon t = none ↔ chColon ∉ t := by
  induction t with
  | nil => simp [afterLastColon]
  | cons b t ih =>
    simp only [afterLastColon]
    cases h : afterLastColon t with
    | some x =>
      have : chColon ∈ t := by
        by_contra hc
        rw [ih.mpr hc] at h
        cases h
      simp [this]
    | none =>
      have := ih.mp h
      by_cases hb : b = chColon
      · simp [hb]
      · simp [hb, this, Ne.symm hb]

/-- After a colon with none behind it stands exactly what follows. -/
theorem afterLastColon_append {before tail : Bytes} (h : chColon ∉ tail) :
    afterLastColon (before ++ chColon :: tail) = some tail := by
  induction before with
  | nil => simp [afterLastColon, afterLastColon_eq_none.mpr h]
  | cons b t ih => simp [afterLastColon, ih]

/-- A string with a colon is what stands before the last one, the colon, and what follows. -/
theorem afterLastColon_eq_some {t h : Bytes} :
    afterLastColon t = some h ↔ chColon ∉ h ∧ ∃ before, t = before ++ chColon :: h := by
  constructor
  · intro e
    induction t with
    | nil => simp [afterLastColon] at e
    | cons b t ih =>
      simp only [afterLastColon] at e
      cases h' : afterLastColon t with
      | some x =>
        simp only [h', Option.some.injEq] at e
        subst e
        obtain ⟨hn, before, rfl⟩ := ih h'
        exact ⟨hn, b :: before, rfl⟩
      | none =>
        simp only [h'] at e
        split at e
        · rename_i hb
          simp only [Option.some.injEq] at e
          subst e
          exact ⟨afterLastColon_eq_none.mp h', [], by simp [hb]⟩
        · cases e
  · rintro ⟨hn, before, rfl⟩
    exact afterLastColon_append hn

/-! ### The decoded body -/

/-- A decoded body is a, f, the data and the last byte. -/
theorem splitBody_eq_some {body : Bytes} {m : Triple} {l : Byte} :
    splitBody body = some (m, l) ↔ body = m.1 :: m.2.1 :: (m.2.2 ++ [l]) := by
  obtain ⟨a, f, d⟩ := m
  rcases body with _ | ⟨x, _ | ⟨y, _ | ⟨z, rest⟩⟩⟩
  · simp [splitBody]
  · simp [splitBody]
  · simp [splitBody]
  · simp only [splitBody, Option.some.injEq, Prod.mk.injEq, List.cons.injEq]
    constructor
    · rintro ⟨⟨rfl, rfl, hd⟩, hl⟩
      refine ⟨rfl, rfl, ?_⟩
      rw [← hd, ← hl, List.dropLast_append_getLast]
    · rintro ⟨rfl, rfl, h⟩
      refine ⟨⟨rfl, rfl, ?_⟩, ?_⟩
      · rw [h, List.dropLast_concat]
      · simp [h]

/-! ### RTU -/

@[simp] theorem rtuFrame_length (a f : Byte) (d : Bytes) : (rtuFrame a f d).length = d.length + 4 := by
  simp [rtuFrame]

/-- Too short a buffer is no candidate (41_frame_codec.md R143). -/
theorem rtuCandidate_short {str : Bytes} {k : Nat} (h : str.length < k + 4) : rtuCandidate str k = (none, str) := by
  simp [rtuCandidate, h]

/-- A failed test gives the buffer back. -/
theorem rtuCandidate_none {str : Bytes} {k : Nat} (h : (rtuCandidate str k).1 = none) : rtuCandidate str k = (none, str) := by
  unfold rtuCandidate at h ⊢
  split
  · rfl
  · rename_i hl
    simp only [hl, if_false] at h
    split at h
    · split at h
      · cases h
      · rename_i hc
        simp [hc]
    · rfl

end Sys2Proof.Machine
end

