-- ==== Sys2Proof/Laws/Decoder.lean ====
section
/-! SUPPORT. The protocol decoder's loops: the fuel suffices (43_protocol_decoder.md R209), so each loop satisfies the equation its
rule gives; the first CR LF; and what a well-formed partial frame is. -/

namespace Sys2Proof.Machine

/-! ### RTU -/

/-- What a validated hypothesis says: the buffer begins with its frame's bytes, at least four of them. -/
theorem rtuCandidate_some_length {str rest : Bytes} {k : Nat} {m : Triple} (h : rtuCandidate str k = (some m, rest)) :
    rest = str.drop (k + 4) ∧ k + 4 ≤ str.length := by
  unfold rtuCandidate at h
  split at h
  · cases h
  · rename_i hl
    split at h
    · split at h
      · simp only [Prod.mk.injEq] at h
        exact ⟨h.2.symm, by omega⟩
      · cases h
    · cases h

theorem tryHyp_eq_some {buf rest : Bytes} {h : Hyp} {m : Triple} :
    tryHyp buf h = some (m, rest) ↔ ∃ k, datalen h buf = some k ∧ rtuCandidate buf k = (some m, rest) := by
  unfold tryHyp
  cases datalen h buf with
  | none => simp
  | some k =>
    rcases hc : rtuCandidate buf k with ⟨_ | m', rest'⟩
    · simp [hc]
    · simp [hc]

theorem tryHyp_eq_none {buf : Bytes} {h : Hyp} :
    tryHyp buf h = none ↔ ∀ k, datalen h buf = some k → (rtuCandidate buf k).1 = none := by
  unfold tryHyp
  cases datalen h buf with
  | none => simp
  | some k =>
    rcases hc : rtuCandidate buf k with ⟨_ | m', rest'⟩
    · simp [hc]
    · simp [hc]

/-- The first hypothesis that validates took at least four bytes (43_protocol_decoder.md R209). -/
theorem firstHyp_some_length {order : List Hyp} {buf rest : Bytes} {m : Triple}
    (h : firstHyp order buf = some (m, rest)) : rest.length + 4 ≤ buf.length := by
  obtain ⟨g, -, hg⟩ := List.exists_of_findSome?_eq_some h
  obtain ⟨k, -, hc⟩ := tryHyp_eq_some.mp hg
  obtain ⟨rfl, hl⟩ := rtuCandidate_some_length hc
  simp
  omega

/-- Any fuel of at least the buffer's length gives the same. -/
theorem rtuLoop_fuel (order : List Hyp) (n m : Nat) (buf : Bytes) (hn : buf.length ≤ n) (hm : buf.length ≤ m) :
    rtuLoop order n buf = rtuLoop order m buf := by
  induction n generalizing m buf with
  | zero =>
    obtain rfl : buf = [] := List.eq_nil_of_length_eq_zero (by omega)
    cases m <;> simp [rtuLoop]
  | succ n ih =>
    cases m with
    | zero =>
      obtain rfl : buf = [] := List.eq_nil_of_length_eq_zero (by omega)
      simp [rtuLoop]
    | succ m =>
      simp only [rtuLoop]
      split
      · rfl
      · cases hf : firstHyp order buf with
        | none => rfl
        | some r =>
          obtain ⟨mt, rest⟩ := r
          have := firstHyp_some_length hf
          simp only
          rw [ih m rest (by omega) (by omega)]

@[simp] theorem rtuDecode_nil (order : List Hyp) : rtuDecode order [] = ([], false) := rfl

/-- One round that finds a message (43_protocol_decoder.md R200). -/
theorem rtuDecode_some {order : List Hyp} {buf rest : Bytes} {m : Triple} (h : firstHyp order buf = some (m, rest)) :
    rtuDecode order buf = (m :: (rtuDecode order rest).1, (rtuDecode order rest).2) := by
  have hl := firstHyp_some_length h
  obtain ⟨b, t, rfl⟩ : ∃ b t, buf = b :: t := by
    cases buf with
    | nil => simp at hl
    | cons b t => exact ⟨b, t, rfl⟩
  simp only [rtuDecode, List.length_cons, rtuLoop, List.isEmpty_cons, Bool.false_eq_true, if_false, h]
  simp only [List.length_cons] at hl
  rw [rtuLoop_fuel order t.length rest.length rest (by omega) (by omega)]

/-- The last round: nothing validates, and the rest is discarded (R200). -/
theorem rtuDecode_none {order : List Hyp} {buf : Bytes} (hb : buf ≠ []) (h : firstHyp order buf = none) :
    rtuDecode order buf = ([], true) := by
  obtain ⟨b, t, rfl⟩ := List.exists_cons_of_ne_nil hb
  simp [rtuDecode, rtuLoop, h]

/-! ### ASCII -/

/-- Where the first CR LF stands (43_protocol_decoder.md R202). -/
theorem crlfIndex_eq_some {buf : Bytes} {i : Nat} :
    crlfIndex buf = some i ↔ (buf[i]? = some chCr ∧ buf[i + 1]? = some chLf) ∧
      ∀ j, j < i → ¬ (buf[j]? = some chCr ∧ buf[j + 1]? = some chLf) := by
  induction buf using crlfIndex.induct generalizing i with
  | case1 => simp [crlfIndex]
  | case2 b => simp [crlfIndex]
  | case3 b0 b1 rest h =>
    simp only [crlfIndex, h, and_self, if_true, Option.some.injEq]
    constructor
    · rintro rfl
      simp
    · rintro ⟨-, hmin⟩
      by_contra hne
      exact hmin 0 (by omega) (by simp)
  | case4 b0 b1 rest h j hj ih =>
    simp only [crlfIndex, h, if_false, hj, Option.some.injEq]
    constructor
    · rintro rfl
      obtain ⟨hat, hmin⟩ := ih.mp hj
      refine ⟨by simpa using hat, ?_⟩
      rintro (_ | k) hk
      · simpa using h
      · simpa using hmin k (by omega)
    · rintro ⟨hat, hmin⟩
      rcases i with _ | i
      · simp [h] at hat
      · have := ih.mpr ⟨by simpa using hat, fun k hk => by simpa using hmin (k + 1) (by omega)⟩
        rw [hj] at this
        cases this
        rfl
  | case5 b0 b1 rest h hj ih =>
    simp only [crlfIndex, h, if_false, hj, reduceCtorEq, false_iff]
    rintro ⟨hat, hmin⟩
    rcases i with _ | i
    · simp [h] at hat
    · have := ih.mpr ⟨by simpa using hat, fun k hk => by simpa using hmin (k + 1) (by omega)⟩
      rw [hj] at this
      cases this

/-- There is none. -/
theorem crlfIndex_eq_none {buf : Bytes} :
    crlfIndex buf = none ↔ ∀ i, ¬ (buf[i]? = some chCr ∧ buf[i + 1]? = some chLf) := by
  constructor
  · intro h i
    induction i using Nat.strong_induction_on with
    | _ i ih =>
      intro hat
      have := crlfIndex_eq_some.mpr ⟨hat, ih⟩
      rw [h] at this
      cases this
  · intro h
    cases hc : crlfIndex buf with
    | none => rfl
    | some i => exact (h i (crlfIndex_eq_some.mp hc).1).elim

/-- Any fuel of at least the buffer's length gives the same (R209). -/
theorem asciiLoop_fuel (n m : Nat) (buf : Bytes) (hn : buf.length ≤ n) (hm : buf.length ≤ m) :
    asciiLoop n buf = asciiLoop m buf := by
  induction n generalizing m buf with
  | zero =>
    obtain rfl : buf = [] := List.eq_nil_of_length_eq_zero (by omega)
    cases m <;> simp [asciiLoop, crlfIndex]
  | succ n ih =>
    cases m with
    | zero =>
      obtain rfl : buf = [] := List.eq_nil_of_length_eq_zero (by omega)
      simp [asciiLoop, crlfIndex]
    | succ m =>
      simp only [asciiLoop]
      cases hc : crlfIndex buf with
      | none => rfl
      | some i =>
        simp only
        rw [ih m (buf.drop (i + 2)) (by simp; omega) (by simp; omega)]

/-- No delimiter: no span (R202). -/
theorem asciiSpans_none {buf : Bytes} (h : crlfIndex buf = none) : asciiSpans buf = ([], buf) := by
  unfold asciiSpans
  cases hl : buf.length with
  | zero => rfl
  | succ n => simp [asciiLoop, h]

/-- The first delimiter ends the first span (R202). -/
theorem asciiSpans_some {buf : Bytes} {i : Nat} (h : crlfIndex buf = some i) :
    asciiSpans buf = (buf.take (i + 2) :: (asciiSpans (buf.drop (i + 2))).1, (asciiSpans (buf.drop (i + 2))).2) := by
  cases buf with
  | nil => cases h
  | cons b t =>
    simp only [asciiSpans, List.length_cons, asciiLoop, h]
    rw [asciiLoop_fuel t.length _ ((b :: t).drop (i + 2)) (by simp) (Nat.le_refl _)]

/-- What may follow the colon of a partial frame: hex digits, and one CR at most at the end (R204). -/
theorem partialTail_iff {t : Bytes} :
    partialTail t = true ↔
      ∃ digits cr, t = digits ++ cr ∧ (∀ c ∈ digits, unhex c ≠ none) ∧ (cr = [] ∨ cr = [chCr]) := by
  induction t using partialTail.induct with
  | case1 => exact ⟨fun _ => ⟨[], [], rfl, by simp, .inl rfl⟩, fun _ => rfl⟩
  | case2 c =>
    simp only [partialTail, isHex, Bool.or_eq_true, decide_eq_true_eq]
    constructor
    · rintro (h | rfl)
      · exact ⟨[c], [], rfl, by simpa using Option.isSome_iff_ne_none.mp h, .inl rfl⟩
      · exact ⟨[], [chCr], rfl, by simp, .inr rfl⟩
    · rintro ⟨digits, cr, h, hd, rfl | rfl⟩
      · left
        simp only [List.append_nil] at h
        exact Option.isSome_iff_ne_none.mpr (hd c (by simp [← h]))
      · cases digits with
        | nil => simp at h; exact .inr h
        | cons x d => simp at h
  | case3 c rest hne ih =>
    have hr : partialTail (c :: rest) = (isHex c && partialTail rest) := by
      cases rest with
      | nil => exact (hne rfl).elim
      | cons x d => rfl
    rw [hr, Bool.and_eq_true, ih]
    constructor
    · rintro ⟨h, digits, cr, rfl, hd, hc⟩
      refine ⟨c :: digits, cr, rfl, ?_, hc⟩
      simp only [List.mem_cons]
      rintro x (rfl | hx)
      · exact Option.isSome_iff_ne_none.mp h
      · exact hd x hx
    · rintro ⟨digits, cr, h, hd, hc⟩
      cases digits with
      | nil =>
        rcases hc with rfl | rfl
        · cases h
        · simp only [List.nil_append, List.cons.injEq] at h
          exact (hne h.2).elim
      | cons x d =>
        simp only [List.cons_append, List.cons.injEq] at h
        obtain ⟨rfl, rfl⟩ := h
        exact ⟨Option.isSome_iff_ne_none.mpr (hd c (by simp)), d, cr, rfl, fun y hy => hd y (by simp [hy]), hc⟩

/-- Each span is a message or a drop (R203). -/
theorem spanDrops_add_spanMsgs (spans : List Bytes) : spanDrops spans + (spanMsgs spans).length = spans.length := by
  induction spans with
  | nil => rfl
  | cons t rest ih =>
    simp only [spanDrops, spanMsgs] at ih ⊢
    cases h : asciiParse t with
    | none => simp [h]; omega
    | some m => simp [h]; omega

end Sys2Proof.Machine
end

