-- ==== Sys2Proof/Laws/Exec.lean ====
section
/-! SUPPORT. Everything a command can do, said once: `exec_cases` names each next state `exec` can answer, and `step_cases` each
next state a step can. Claims about all commands or all steps go through these two. -/

namespace Sys2Proof.Machine

/-- A command that changes no state but its result (20_memory.md R69, and every `ERR_*`, R105). -/
def Answers (i : Instr) (s : State) : Prop := ∃ frame, exec i s = .next (s.answered frame)

theorem answers_withOperand {i : Instr} {str : Bytes} {s : State} {st : Status} {p : Payload}
    (h : exec i s = withOperand str s (ret st p s)) : Answers i s := by
  rw [Answers, h]
  unfold withOperand
  split
  · exact ⟨_, rfl⟩
  · exact ⟨_, rfl⟩

/-- A byte string over the bound, or the command goes on with it within the bound (44_control.md R225). -/
theorem withOperand_cases (str : Bytes) (s : State) (next : Result) :
    (withOperand str s next = .next (s.answered [0x82#8])) ∨ (str.length ≤ s.par.operMax ∧ withOperand str s next = next) := by
  rcases Nat.lt_or_ge s.par.operMax str.length with h | h
  · exact .inl (withOperand_of_lt _ h)
  · exact .inr ⟨h, withOperand_of_le _ h⟩

/-- Everything a command can do. -/
theorem exec_cases (i : Instr) (s : State) :
    Answers i s ∨
    (i = .reset ∧ exec i s =
      .next { s with blk := Block.reset, results := s.results ++ stoppedFrames s.blk ++ [okFrame] }) ∨
    (∃ idx v r, i = .cfgWr idx v ∧ CfgReg.ofIndex idx = some r ∧ s.blk.fstate ≠ .running ∧ r.accepts v = true ∧
      exec i s = .next (State.answered { s with blk := writeCfg r v s.blk } okFrame)) ∨
    (∃ c l, exec i s = .next (State.answered { s with blk := { s.blk with crcAcc := c, lrcAcc := l } } okFrame)) ∨
    (∃ n, exec i s = .next (State.answered { s with blk := { s.blk with cntAsciiDrop := n } } [0x01#8])) ∨
    (∃ n m rem ms, (rem = s.blk.rem ∨ rem = [] ∨ ∃ t, rem = keepPartial s.par.asciiRemMax t) ∧ exec i s =
      .next (State.answered { s with blk := { s.blk with cntAsciiDrop := n, cntRtuDrop := m, rem := rem } } (0x00#8 :: ms))) ∨
    (i = .frStart ∧ (s.blk.fstate = .idle ∨ s.blk.fstate = .stopped) ∧ configIncomplete s.blk = false ∧ exec i s =
      .next (State.answered { s with blk := { clearChunk s.blk with fstate := .running, rstate := .waitFirst } } okFrame)) ∨
    (i = .frStop ∧ s.blk.fstate = .running ∧ exec i s =
      .next { s with
        blk := { clearChunk s.blk with fstate := .stopped, rstate := .off, recv := none },
        results := s.results ++ stoppedFrames s.blk ++ [okFrame] }) ∨
    (∃ str, i = .frSend str ∧ s.blk.fstate = .running ∧
      exec i s = .next (State.answered { s with tx := s.tx ++ str } okFrame)) ∨
    (∃ t c q, i = .frRecv t ∧ s.blk.recv = none ∧ s.blk.q = c :: q ∧ exec i s =
      .next (State.answered { s with blk := afterPop q s.blk } (okStr c))) ∨
    (∃ t, i = .frRecv t ∧ t ≠ 0#32 ∧ s.blk.recv = none ∧ s.blk.q = [] ∧ s.blk.fstate = .running ∧ exec i s =
      .next { s with blk := { s.blk with recv := some t } }) ∨
    (i = .frFlush ∧ exec i s =
      .next (State.answered { s with blk := { clearChunk s.blk with q := [], rstate := afterFlush s.blk.rstate } } okFrame)) := by
  cases i with
  | reset => exact .inr (.inl ⟨rfl, by simp only [exec, execReset, resetBlock_eq]; rfl⟩)
  | cfgRd idx =>
    left
    simp only [Answers, exec, execCfgRd]
    cases Reg.ofIndex idx with
    | none => exact ⟨_, rfl⟩
    | some r => cases h : readReg r s <;> exact ⟨_, by simp only [h]; rfl⟩
  | cfgWr idx v =>
    simp only [Answers, exec, execCfgWr]
    cases hr : CfgReg.ofIndex idx with
    | none => exact .inl ⟨_, rfl⟩
    | some r =>
      by_cases hf : s.blk.fstate = .running
      · exact .inl ⟨_, by simp only [hf, if_true]; rfl⟩
      · by_cases ha : r.accepts v = true
        · exact .inr (.inr (.inl ⟨idx, v, r, rfl, hr, hf, ha, by simp only [hf, ha, if_false, if_true]; rfl⟩))
        · exact .inl ⟨_, by simp only [hf, ha, if_false]; rfl⟩
  | crcInit => exact .inr (.inr (.inr (.inl ⟨0xFFFF#16, s.blk.lrcAcc, rfl⟩)))
  | crcUpdate b => exact .inr (.inr (.inr (.inl ⟨crcStep s.blk.crcAcc b, s.blk.lrcAcc, rfl⟩)))
  | crcRead => exact .inl ⟨_, rfl⟩
  | crcCompute str => exact .inl (answers_withOperand rfl)
  | lrcInit => exact .inr (.inr (.inr (.inl ⟨s.blk.crcAcc, 0x00#8, rfl⟩)))
  | lrcUpdate b => exact .inr (.inr (.inr (.inl ⟨s.blk.crcAcc, s.blk.lrcAcc + b, rfl⟩)))
  | lrcRead => exact .inl ⟨_, rfl⟩
  | lrcCompute str => exact .inl (answers_withOperand rfl)
  | encAscii a f d => exact .inl (answers_withOperand rfl)
  | encRtu a f d => exact .inl (answers_withOperand rfl)
  | decAsciiFrame str =>
    cases hp : asciiParse str with
    | some m => exact .inl (answers_withOperand (by simp only [exec, execDecAsciiFrame, hp]; rfl))
    | none =>
      rcases withOperand_cases str s
        (ret .none .empty (s.setBlk { s.blk with cntAsciiDrop := s.blk.cntAsciiDrop + 1#32 })) with h | ⟨-, h⟩
      · exact .inl ⟨_, by simp only [exec, execDecAsciiFrame, hp]; exact h⟩
      · exact .inr (.inr (.inr (.inr (.inl ⟨_, by simp only [exec, execDecAsciiFrame, hp]; exact h⟩))))
  | decRtuCand k str =>
    rcases hc : rtuCandidate str k.toNat with ⟨_ | m, rest⟩
    · exact .inl (answers_withOperand (by simp only [exec, execDecRtuCand, hc]; rfl))
    · exact .inl (answers_withOperand (by simp only [exec, execDecRtuCand, hc]; rfl))
  | pdecAscii str =>
    rcases withOperand_cases str s _ with h | ⟨-, h⟩
    · exact .inl ⟨_, h⟩
    · exact .inr (.inr (.inr (.inr (.inr (.inl ⟨_, s.blk.cntRtuDrop, _, _, .inr (.inr ⟨_, rfl⟩), h⟩)))))
  | pdecRtu str =>
    rcases withOperand_cases str s _ with h | ⟨-, h⟩
    · exact .inl ⟨_, h⟩
    · exact .inr (.inr (.inr (.inr (.inr (.inl ⟨s.blk.cntAsciiDrop, _, s.blk.rem, _, .inl rfl, h⟩)))))
  | pdecReset => exact .inr (.inr (.inr (.inr (.inr (.inl
      ⟨s.blk.cntAsciiDrop, s.blk.cntRtuDrop, [], [], .inr (.inl rfl), rfl⟩)))))
  | frStart =>
    by_cases hf : s.blk.fstate = .running ∨ s.blk.fstate = .faulted
    · exact .inl ⟨_, by simp only [exec, execFrStart, hf, if_true]; rfl⟩
    · by_cases hc : configIncomplete s.blk = true
      · exact .inl ⟨_, by simp only [exec, execFrStart, hf, hc, if_false, if_true]; rfl⟩
      · refine .inr (.inr (.inr (.inr (.inr (.inr (.inl ⟨rfl, ?_, by simpa using hc, ?_⟩))))))
        rotate_left
        · simp only [exec, execFrStart, hf, hc, if_false]
          rfl
        cases h : s.blk.fstate <;> simp [h] at hf ⊢
  | frStop =>
    by_cases hf : s.blk.fstate = .running
    · refine .inr (.inr (.inr (.inr (.inr (.inr (.inr (.inl ⟨rfl, hf, ?_⟩)))))))
      simp only [exec, execFrStop, hf, if_true, wakeReceiver_stopped]
      rfl
    · exact .inl ⟨_, by simp only [exec, execFrStop, hf, if_false]; rfl⟩
  | frSend str =>
    cases hf : s.blk.fstate with
    | idle => exact .inl (answers_withOperand (st := .errState) (p := .empty) (by simp only [exec, execFrSend, hf]; rfl))
    | stopped => exact .inl (answers_withOperand (st := .errState) (p := .empty) (by simp only [exec, execFrSend, hf]; rfl))
    | faulted => exact .inl (answers_withOperand (by simp only [exec, execFrSend, hf]; rfl))
    | running =>
      rcases withOperand_cases str s (ret .ok .empty (s.emitTx str)) with h | ⟨-, h⟩
      · exact .inl ⟨_, by simp only [exec, execFrSend, hf]; exact h⟩
      · exact .inr (.inr (.inr (.inr (.inr (.inr (.inr (.inr (.inl
          ⟨str, rfl, rfl, by simp only [exec, execFrSend, hf]; exact h⟩))))))))
  | frRecv t =>
    cases hr : s.blk.recv with
    | some r => exact .inl ⟨_, by simp only [exec, execFrRecv, hr]; rfl⟩
    | none =>
      cases hq : s.blk.q with
      | cons c q =>
        refine .inr (.inr (.inr (.inr (.inr (.inr (.inr (.inr (.inr (.inl ⟨t, c, q, rfl, rfl, rfl, ?_⟩)))))))))
        simp only [exec, execFrRecv, hr, hq, ret_eq, resultFrame_ok_str]
        rfl
      | nil =>
        cases hf : s.blk.fstate with
        | idle => exact .inl ⟨_, by simp only [exec, execFrRecv, hr, hq, hf]; rfl⟩
        | stopped => exact .inl ⟨_, by simp only [exec, execFrRecv, hr, hq, hf]; rfl⟩
        | faulted => exact .inl ⟨_, by simp only [exec, execFrRecv, hr, hq, hf]; rfl⟩
        | running =>
          by_cases ht : t = 0#32
          · exact .inl ⟨_, by simp only [exec, execFrRecv, hr, hq, hf, ht, if_true]; rfl⟩
          · exact .inr (.inr (.inr (.inr (.inr (.inr (.inr (.inr (.inr (.inr (.inl
              ⟨t, rfl, ht, rfl, rfl, rfl, by simp only [exec, execFrRecv, hr, hq, hf, ht, if_false]; rfl⟩))))))))))
  | frFlush => exact .inr (.inr (.inr (.inr (.inr (.inr (.inr (.inr (.inr (.inr (.inr ⟨rfl, rfl⟩))))))))))

/-- Everything a step can do: nothing (no turn left, or the Host has no frame), a rejected frame, a command, or an event. -/
theorem step_cases (s : State) :
    (s.sched = [] ∧ step s = .next s) ∨
    (∃ sched, s.sched = .host :: sched ∧ s.cmds = [] ∧ step s = .next { s with sched := sched }) ∨
    (∃ sched frame cmds r, s.sched = .host :: sched ∧ s.cmds = frame :: cmds ∧ decode frame = .error r ∧ step s =
      .next (State.answered { s with cmds := cmds, sched := sched } [(rejectStatus r).code])) ∨
    (∃ sched frame cmds i, s.sched = .host :: sched ∧ s.cmds = frame :: cmds ∧ decode frame = .ok i ∧ step s =
      exec i { s with cmds := cmds, sched := sched }) ∨
    (∃ sched, s.sched = .clock :: sched ∧ step s = .next (tick { s with sched := sched })) ∨
    (∃ sched, s.sched = .rxByte :: sched ∧ step s = .next (rxTurn { s with sched := sched })) ∨
    (∃ sched, s.sched = .rxError :: sched ∧ step s = .next (rxError { s with sched := sched })) := by
  obtain ⟨par, blk, cmds, rxLine, sched, tx, results⟩ := s
  cases sched with
  | nil => exact .inl ⟨rfl, rfl⟩
  | cons t sched =>
    cases t with
    | host =>
      cases cmds with
      | nil => exact .inr (.inl ⟨sched, rfl, rfl, rfl⟩)
      | cons frame cmds =>
        cases hd : decode frame with
        | error r =>
          refine .inr (.inr (.inl ⟨sched, frame, cmds, r, rfl, rfl, hd, ?_⟩))
          simp only [step, nextTurn, runTurn, hostTurn, runFrame, hd]
          rfl
        | ok i =>
          refine .inr (.inr (.inr (.inl ⟨sched, frame, cmds, i, rfl, rfl, hd, ?_⟩)))
          simp only [step, nextTurn, runTurn, hostTurn, runFrame, hd]
    | clock => exact .inr (.inr (.inr (.inr (.inl ⟨sched, rfl, rfl⟩))))
    | rxByte => exact .inr (.inr (.inr (.inr (.inr (.inl ⟨sched, rfl, rfl⟩)))))
    | rxError => exact .inr (.inr (.inr (.inr (.inr (.inr ⟨sched, rfl, rfl⟩)))))

end Sys2Proof.Machine
end

