-- ==== Sys2Proof/Laws/Events.lean ====
section
/-! SUPPORT. Everything an environment event can do, said once for each: claims about Tick, RxByte and RxError go through these. -/

namespace Sys2Proof.Machine

@[simp] theorem timeoutReached_some (n t : U32) : timeoutReached n (some t) = decide (t.toNat ≤ n.toNat) := rfl

@[simp] theorem timeoutReached_none (n : U32) : timeoutReached n none = false := rfl

/-- Everything `reader_tick` can do (42_byte_framer.md R166, R167). -/
theorem readerTick_cases (s : State) :
    ((s.blk.rstate = .off ∨ s.blk.rstate = .held) ∧ readerTick s = s) ∨
    (s.blk.rstate = .waitFirst ∧ ∃ n, (n = 0#32 ∨ (n = s.blk.icnt + 1#32 ∧ timeoutReached n s.blk.tInit = false)) ∧
      readerTick s = s.setBlk { s.blk with icnt := n }) ∨
    (s.blk.rstate = .accum ∧ timeoutReached (s.blk.ibcnt + 1#32) s.blk.tIb = false ∧
      readerTick s = s.setBlk { s.blk with ibcnt := s.blk.ibcnt + 1#32 }) ∨
    (s.blk.rstate = .accum ∧ timeoutReached (s.blk.ibcnt + 1#32) s.blk.tIb = true ∧
      readerTick s = complete (s.setBlk { s.blk with ibcnt := s.blk.ibcnt + 1#32 })) := by
  cases hr : s.blk.rstate with
  | off => exact .inl ⟨.inl rfl, by simp only [readerTick, hr]⟩
  | held => exact .inl ⟨.inr rfl, by simp only [readerTick, hr]⟩
  | waitFirst =>
    refine .inr (.inl ⟨rfl, if timeoutReached (s.blk.icnt + 1#32) s.blk.tInit then 0#32 else s.blk.icnt + 1#32, ?_,
      by simp only [readerTick, hr]⟩)
    cases ht : timeoutReached (s.blk.icnt + 1#32) s.blk.tInit with
    | false => exact .inr ⟨by simp, by simpa using ht⟩
    | true => exact .inl (by simp)
  | accum =>
    cases ht : timeoutReached (s.blk.ibcnt + 1#32) s.blk.tIb with
    | false => exact .inr (.inr (.inl ⟨rfl, rfl, by simp only [readerTick, hr, ht, Bool.false_eq_true, if_false]⟩))
    | true => exact .inr (.inr (.inr ⟨rfl, rfl, by simp only [readerTick, hr, ht, if_true]⟩))

/-- Everything `recv_tick` can do (R171). -/
theorem recvTick_cases (s : State) :
    (s.blk.recv = none ∧ recvTick s = s) ∨
    (s.blk.recv = some 1#32 ∧ recvTick s = State.answered { s with blk := { s.blk with recv := none } } [0x01#8]) ∨
    (∃ r, s.blk.recv = some r ∧ r ≠ 1#32 ∧ recvTick s = s.setBlk { s.blk with recv := some (r - 1#32) }) := by
  cases hr : s.blk.recv with
  | none => exact .inl ⟨rfl, by simp only [recvTick, hr]⟩
  | some r =>
    by_cases h : r = 1#32
    · subst h
      exact .inr (.inl ⟨rfl, by simp only [recvTick, hr, if_true]; rfl⟩)
    · exact .inr (.inr ⟨r, rfl, h, by simp only [recvTick, hr, h, if_false]⟩)

/-- The buffer filled, or not yet (R161, R162). -/
theorem completeIfFull_cases (s : State) :
    (s.blk.chunk.length ≠ s.par.chunkMax ∧ completeIfFull s = s) ∨
    (s.blk.chunk.length = s.par.chunkMax ∧ completeIfFull s = complete s) := by
  by_cases h : s.blk.chunk.length = s.par.chunkMax
  · exact .inr ⟨h, by simp [completeIfFull, h]⟩
  · exact .inl ⟨h, by simp [completeIfFull, h]⟩

/-- Everything a turn of the RX line can do (R161 to R164). -/
theorem rxTurn_cases (s : State) :
    ((s.rxLine = [] ∨ s.blk.rstate = .held) ∧ rxTurn s = s) ∨
    (∃ x line, s.rxLine = x :: line ∧ s.blk.rstate = .off ∧ rxTurn s = { s with rxLine := line }) ∨
    (∃ x line, s.rxLine = x :: line ∧ s.blk.rstate = .waitFirst ∧ rxTurn s = completeIfFull
      { s with rxLine := line, blk := { s.blk with chunk := [x], icnt := 0#32, ibcnt := 0#32, rstate := .accum } }) ∨
    (∃ x line, s.rxLine = x :: line ∧ s.blk.rstate = .accum ∧ rxTurn s = completeIfFull
      { s with rxLine := line, blk := { s.blk with chunk := s.blk.chunk ++ [x], ibcnt := 0#32 } }) := by
  cases hl : s.rxLine with
  | nil => exact .inl ⟨.inl rfl, by simp only [rxTurn, hl]⟩
  | cons x line =>
    cases hr : s.blk.rstate with
    | held => exact .inl ⟨.inr rfl, by simp [rxTurn, hl, rxReady, hr]⟩
    | off => exact .inr (.inl ⟨x, line, rfl, rfl, by simp [rxTurn, hl, rxReady, hr, rxByte]⟩)
    | waitFirst =>
      exact .inr (.inr (.inl ⟨x, line, rfl, rfl, by simp [rxTurn, hl, rxReady, hr, rxByte, State.setBlk]⟩))
    | accum =>
      exact .inr (.inr (.inr ⟨x, line, rfl, rfl, by simp [rxTurn, hl, rxReady, hr, rxByte, State.setBlk]⟩))

/-- Everything a transport error can do (R172, R173). -/
theorem rxError_cases (s : State) :
    (s.blk.fstate ≠ .running ∧ rxError s = s) ∨ (s.blk.fstate = .running ∧ rxError s = enterFault .transport s) := by
  by_cases h : s.blk.fstate = .running
  · exact .inr ⟨h, by simp [rxError, h]⟩
  · exact .inl ⟨h, by simp [rxError, h]⟩

end Sys2Proof.Machine
end

