-- ==== Sys2Proof/Laws/PerInstr.lean ====
section
/-! SUPPORT. Per-instruction families. RoundTrip: the decoder reads back every well-formed command from its command frame
(30_encoding.md R81, R82, R102). -/

namespace Sys2Proof.Laws

/-- The length of a well-formed byte string, read back from its length field. -/
theorem lenField (s : Bytes) (h : strFits s = true) :
    s.length = (u16OfLe (BitVec.ofNat 8 s.length) (BitVec.ofNat 8 (s.length / 256))).toNat := by
  have := of_decide_eq_true h
  rw [u16OfLe_toNat]
  simp
  omega

/-- A format S operand reads back. -/
theorem fieldsS_lenPrefixed (s : Bytes) (mk : Bytes → Instr) (h : strFits s = true) :
    fieldsS (lenPrefixed s) mk = .ok (mk s) := by
  rw [lenPrefixed_eq, Machine.strBytes, fieldsS, if_pos (lenField s h)]

/-- RoundTrip: decoding the encoding of a well-formed command gives the command. -/
def RoundTrip.Statement (i : Instr) : Prop := i.wellFormed = true → decode (encode i) = .ok i

theorem RoundTrip.reset : RoundTrip.Statement .reset := fun _ => rfl
theorem RoundTrip.cfgRd (idx : Byte) : RoundTrip.Statement (.cfgRd idx) := fun _ => rfl
theorem RoundTrip.cfgWr (idx : Byte) (v : U32) : RoundTrip.Statement (.cfgWr idx v) :=
  fun _ => congrArg (fun x => Except.ok (Instr.cfgWr idx x)) (u32OfLe_le32 v)
theorem RoundTrip.crcInit : RoundTrip.Statement .crcInit := fun _ => rfl
theorem RoundTrip.crcUpdate (b : Byte) : RoundTrip.Statement (.crcUpdate b) := fun _ => rfl
theorem RoundTrip.crcRead : RoundTrip.Statement .crcRead := fun _ => rfl
theorem RoundTrip.crcCompute (str : Bytes) : RoundTrip.Statement (.crcCompute str) :=
  fun h => fieldsS_lenPrefixed str .crcCompute h
theorem RoundTrip.lrcInit : RoundTrip.Statement .lrcInit := fun _ => rfl
theorem RoundTrip.lrcUpdate (b : Byte) : RoundTrip.Statement (.lrcUpdate b) := fun _ => rfl
theorem RoundTrip.lrcRead : RoundTrip.Statement .lrcRead := fun _ => rfl
theorem RoundTrip.lrcCompute (str : Bytes) : RoundTrip.Statement (.lrcCompute str) :=
  fun h => fieldsS_lenPrefixed str .lrcCompute h
theorem RoundTrip.encAscii (a f : Byte) (d : Bytes) : RoundTrip.Statement (.encAscii a f d) :=
  fun h => fieldsS_lenPrefixed d (.encAscii a f) h
theorem RoundTrip.encRtu (a f : Byte) (d : Bytes) : RoundTrip.Statement (.encRtu a f d) :=
  fun h => fieldsS_lenPrefixed d (.encRtu a f) h
theorem RoundTrip.decAsciiFrame (str : Bytes) : RoundTrip.Statement (.decAsciiFrame str) :=
  fun h => fieldsS_lenPrefixed str .decAsciiFrame h
theorem RoundTrip.decRtuCand (k : Byte) (str : Bytes) : RoundTrip.Statement (.decRtuCand k str) :=
  fun h => fieldsS_lenPrefixed str (.decRtuCand k) h
theorem RoundTrip.pdecAscii (str : Bytes) : RoundTrip.Statement (.pdecAscii str) :=
  fun h => fieldsS_lenPrefixed str .pdecAscii h
theorem RoundTrip.pdecRtu (str : Bytes) : RoundTrip.Statement (.pdecRtu str) :=
  fun h => fieldsS_lenPrefixed str .pdecRtu h
theorem RoundTrip.pdecReset : RoundTrip.Statement .pdecReset := fun _ => rfl
theorem RoundTrip.frStart : RoundTrip.Statement .frStart := fun _ => rfl
theorem RoundTrip.frStop : RoundTrip.Statement .frStop := fun _ => rfl
theorem RoundTrip.frSend (str : Bytes) : RoundTrip.Statement (.frSend str) :=
  fun h => fieldsS_lenPrefixed str .frSend h
theorem RoundTrip.frRecv (t : U32) : RoundTrip.Statement (.frRecv t) :=
  fun _ => congrArg (fun x => Except.ok (Instr.frRecv x)) (u32OfLe_le32 t)
theorem RoundTrip.frFlush : RoundTrip.Statement .frFlush := fun _ => rfl

end Sys2Proof.Laws
end

