-- ==== Sys2Proof/Machine/Asm.lean ====
section
/-! DEFINITION. The assembler syntax of 30_encoding.md R103, with the pseudo-instructions of R104 and the environment events, and
the loading of an assembled program into the machine: its command frames onto the command port, its received bytes onto the RX
line, and one turn for each step, in the order of the lines (log 7, log 11). -/

namespace Sys2Proof.Machine

/-- One line of a program. -/
inductive Line
  /-- The commands of a line: one, or a pseudo-instruction's, or none for a blank or comment line. -/
  | cmds (is : List Instr)
  /-- `@TICK*n`. -/
  | ticks (n : Nat)
  /-- `@RX [bytes]`: one RxByte for each byte, in order. -/
  | rx (bs : Bytes)
  /-- `@RXERR`. -/
  | rxErr
  deriving DecidableEq, Repr

/-! ### Tokens -/

/-- A token: a comma, a byte string, or a word (a mnemonic, a register name, a number or an event). -/
inductive Tok
  | comma
  | bytes (bs : Bytes)
  | word (cs : List Char)
  deriving DecidableEq, Repr

/-- The value of a hex digit of either case. -/
def hexVal (c : Char) : Option Nat :=
  if 48 ≤ c.toNat ∧ c.toNat ≤ 57 then some (c.toNat - 48)
  else if 65 ≤ c.toNat ∧ c.toNat ≤ 70 then some (c.toNat - 55)
  else if 97 ≤ c.toNat ∧ c.toNat ≤ 102 then some (c.toNat - 87)
  else none

/-- Space or tab. -/
def isBlankChar (c : Char) : Bool := decide (c.toNat = 32 ∨ c.toNat = 9 ∨ c.toNat = 13)

/-- The hex bytes up to `]`, and what follows it. -/
def lexHex : List Char → Option (Bytes × List Char)
  | [] => none
  | [c] => if c.toNat = 93 then some ([], []) else none
  | c0 :: c1 :: t =>
    if c0.toNat = 93 then some ([], c1 :: t)
    else if isBlankChar c0 then lexHex (c1 :: t)
    else
      match hexVal c0, hexVal c1, lexHex t with
      | some v0, some v1, some (bs, t') => some (BitVec.ofNat 8 (16 * v0 + v1) :: bs, t')
      | _, _, _ => none

/-- The ASCII text up to the closing double quote, with the escapes for CR and LF, and what follows it. -/
def lexText : List Char → Option (Bytes × List Char)
  | [] => none
  | [c] => if c.toNat = 34 then some ([], []) else none
  | c0 :: c1 :: t =>
    if c0.toNat = 34 then some ([], c1 :: t)
    else if c0.toNat = 92 then
      match lexText t with
      | none => none
      | some (bs, t') =>
        if c1.toNat = 114 then some (0x0D#8 :: bs, t')
        else if c1.toNat = 110 then some (0x0A#8 :: bs, t')
        else none
    else if c0.toNat < 128 then
      match lexText (c1 :: t) with
      | none => none
      | some (bs, t') => some (BitVec.ofNat 8 c0.toNat :: bs, t')
    else none

/-- A character that no word holds: blank, comma, semicolon, square bracket or double quote. -/
def endsWord (c : Char) : Bool :=
  isBlankChar c || decide (c.toNat = 44 ∨ c.toNat = 59 ∨ c.toNat = 91 ∨ c.toNat = 93 ∨ c.toNat = 34)

/-- The tokens of a line; a semicolon starts a comment. The fuel bounds the rounds; each takes at least one character. -/
def lexLine : Nat → List Char → Option (List Tok)
  | 0, cs => if cs.isEmpty then some [] else none
  | fuel + 1, cs =>
    match cs with
    | [] => some []
    | c :: t =>
      if c.toNat = 59 then some []
      else if isBlankChar c then lexLine fuel t
      else if c.toNat = 44 then (lexLine fuel t).map (Tok.comma :: ·)
      else if c.toNat = 91 then
        match lexHex t with
        | none => none
        | some (bs, t') => (lexLine fuel t').map (Tok.bytes bs :: ·)
      else if c.toNat = 34 then
        match lexText t with
        | none => none
        | some (bs, t') => (lexLine fuel t').map (Tok.bytes bs :: ·)
      else if c.toNat = 93 then none
      else
        let w := (c :: t).takeWhile (fun x => !endsWord x)
        (lexLine fuel ((c :: t).dropWhile (fun x => !endsWord x))).map (Tok.word w :: ·)

/-! ### Numbers and operands -/

/-- A numeral in base `base` (10 or 16), most significant digit first. -/
def digitsVal (base : Nat) (acc : Nat) : List Char → Option Nat
  | [] => some acc
  | c :: t =>
    match hexVal c with
    | some v => if v < base then digitsVal base (base * acc + v) t else none
    | none => none

/-- A number: decimal, or hexadecimal with the prefix `0x` (R103). -/
def numVal (w : List Char) : Option Nat :=
  match w with
  | [] => none
  | c0 :: c1 :: c2 :: t =>
    if c0.toNat = 48 ∧ c1.toNat = 120 then digitsVal 16 0 (c2 :: t) else digitsVal 10 0 (c0 :: c1 :: c2 :: t)
  | w => digitsVal 10 0 w

/-- A byte operand. -/
def byteArg (w : List Char) : Option Byte :=
  match numVal w with
  | some n => if n < 256 then some (BitVec.ofNat 8 n) else none
  | none => none

/-- A u32 operand. -/
def wordArg (w : List Char) : Option U32 :=
  match numVal w with
  | some n => if n < 4294967296 then some (BitVec.ofNat 32 n) else none
  | none => none

/-- The register names of 10_state.md R46 with their indices. -/
def regNames : List (String × Byte) :=
  [("T_INIT", 0x00#8), ("T_IB", 0x01#8), ("PORT", 0x02#8), ("BAUD", 0x03#8), ("DUPLEX", 0x04#8), ("TERM", 0x05#8)] ++
  [("STATUS", 0x10#8), ("QCOUNT", 0x11#8), ("NOW", 0x12#8), ("CNT_ASCII_DROP", 0x13#8), ("CNT_RTU_DROP", 0x14#8)] ++
  [("CNT_CHUNK_DROP", 0x15#8), ("REMLEN", 0x16#8), ("CRC_ACC", 0x17#8), ("LRC_ACC", 0x18#8), ("CHUNKLEN", 0x19#8)]

/-- A register index, by name or as a number (R103). -/
def regArg (w : List Char) : Option Byte :=
  match regNames.findSome? (fun row => if row.1.toList = w then some row.2 else none) with
  | some idx => some idx
  | none => byteArg w

/-- The operands of a line: tokens separated by commas. -/
def splitArgs : List Tok → Option (List Tok)
  | [] => some []
  | [.comma] => none
  | [a] => some [a]
  | .comma :: _ => none
  | a :: .comma :: b :: t => (splitArgs (b :: t)).map (a :: ·)
  | _ => none

/-! ### Commands -/

/-- Formats N, and a pseudo-instruction without operands: none. -/
def asmN (i : Instr) : List Tok → Option (List Instr)
  | [] => some [i]
  | _ => none

/-- Format B. -/
def asmB (mk : Byte → Instr) : List Tok → Option (List Instr)
  | [.word w] => (byteArg w).map (fun b => [mk b])
  | _ => none

/-- Format R. -/
def asmR (mk : Byte → Instr) : List Tok → Option (List Instr)
  | [.word w] => (regArg w).map (fun b => [mk b])
  | _ => none

/-- Format W. -/
def asmW (mk : Byte → U32 → Instr) : List Tok → Option (List Instr)
  | [.word w, .word v] =>
    match regArg w, wordArg v with
    | some idx, some v => some [mk idx v]
    | _, _ => none
  | _ => none

/-- Format T. -/
def asmT (mk : U32 → Instr) : List Tok → Option (List Instr)
  | [.word w] => (wordArg w).map (fun t => [mk t])
  | _ => none

/-- Format S, and a pseudo-instruction with its operand: a byte string. -/
def asmS (mk : Bytes → List Instr) : List Tok → Option (List Instr)
  | [.bytes bs] => some (mk bs)
  | _ => none

/-- Format K. -/
def asmK (mk : Byte → Bytes → Instr) : List Tok → Option (List Instr)
  | [.word w, .bytes bs] => (byteArg w).map (fun k => [mk k bs])
  | _ => none

/-- Format M, and a pseudo-instruction with its operands: a, f and the data. -/
def asmM (mk : Byte → Byte → Bytes → List Instr) : List Tok → Option (List Instr)
  | [.word a, .word f, .bytes d] =>
    match byteArg a, byteArg f with
    | some a, some f => some (mk a f d)
    | _, _ => none
  | _ => none

/-- `CFG_LOAD`: six u32 values. -/
def asmLoad : List Tok → Option (List Instr)
  | [.word w0, .word w1, .word w2, .word w3, .word w4, .word w5] =>
    match wordArg w0, wordArg w1, wordArg w2, wordArg w3, wordArg w4, wordArg w5 with
    | some v0, some v1, some v2, some v3, some v4, some v5 => some (cfgLoad v0 v1 v2 v3 v4 v5)
    | _, _, _, _, _, _ => none
  | _ => none

/-- The mnemonics of R82 and R104, each with its operands. -/
def mnemonics : List (String × (List Tok → Option (List Instr))) :=
  [("RESET", asmN .reset), ("CFG_RD", asmR .cfgRd), ("CFG_WR", asmW .cfgWr)] ++
  [("CRC_INIT", asmN .crcInit), ("CRC_UPDATE", asmB .crcUpdate), ("CRC_READ", asmN .crcRead)] ++
  [("CRC_COMPUTE", asmS (fun s => [.crcCompute s]))] ++
  [("LRC_INIT", asmN .lrcInit), ("LRC_UPDATE", asmB .lrcUpdate), ("LRC_READ", asmN .lrcRead)] ++
  [("LRC_COMPUTE", asmS (fun s => [.lrcCompute s]))] ++
  [("ENC_ASCII", asmM (fun a f d => [.encAscii a f d])), ("ENC_RTU", asmM (fun a f d => [.encRtu a f d]))] ++
  [("DEC_ASCII_FRAME", asmS (fun s => [.decAsciiFrame s])), ("DEC_RTU_CAND", asmK .decRtuCand)] ++
  [("PDEC_ASCII", asmS (fun s => [.pdecAscii s])), ("PDEC_RTU", asmS (fun s => [.pdecRtu s]))] ++
  [("PDEC_RESET", asmN .pdecReset), ("FR_START", asmN .frStart), ("FR_STOP", asmN .frStop)] ++
  [("FR_SEND", asmS (fun s => [.frSend s])), ("FR_RECV", asmT .frRecv), ("FR_FLUSH", asmN .frFlush)] ++
  [("CRC_BLOCK", asmS crcBlock), ("LRC_BLOCK", asmS lrcBlock), ("SEND_RTU", asmM sendRtu)] ++
  [("SEND_ASCII", asmM sendAscii), ("REQUEST_RTU", asmM requestRtu), ("REQUEST_ASCII", asmM requestAscii)] ++
  [("CFG_LOAD", asmLoad)]

/-- An event: `@TICK`, `@TICK*n`, `@RX` with its bytes, `@RXERR`; `none` for any other line. -/
def asmEvent (w : List Char) (args : List Tok) : Option Line :=
  match args with
  | [] =>
    if w = "@TICK".toList then some (.ticks 1)
    else if w = "@RXERR".toList then some .rxErr
    else if w.take 6 = "@TICK*".toList then (numVal (w.drop 6)).map .ticks
    else none
  | [.bytes bs] => if w = "@RX".toList then some (.rx bs) else none
  | _ => none

/-- A line of a program; `none` when it is not of R103's syntax, or a byte string is too long for its field (R81). -/
def assembleLine (cs : List Char) : Option Line :=
  match lexLine cs.length cs with
  | some [] => some (.cmds [])
  | some (.word w :: toks) =>
    match splitArgs toks with
    | none => none
    | some args =>
      match asmEvent w args with
      | some l => some l
      | none =>
        match mnemonics.findSome? (fun row => if row.1.toList = w then row.2 args else none) with
        | some is => if is.all Instr.wellFormed then some (.cmds is) else none
        | none => none
  | _ => none

/-! ### Loading -/

/-- A line's steps appended to what the machine's environment still holds. -/
def Line.load (l : Line) (s : State) : State :=
  match l with
  | .cmds is => { s with cmds := s.cmds ++ is.map encode, sched := s.sched ++ is.map (fun _ => .host) }
  | .ticks n => { s with sched := s.sched ++ List.replicate n .clock }
  | .rx bs => { s with rxLine := s.rxLine ++ bs, sched := s.sched ++ bs.map (fun _ => .rxByte) }
  | .rxErr => { s with sched := s.sched ++ [.rxError] }

/-- A program loaded line by line. -/
def loadProgram (ls : List Line) (s : State) : State := ls.foldl (fun s l => l.load s) s

end Sys2Proof.Machine
end

