-- ==== Sys2Proof/Tests/Slice0.lean ====
section
/-! SUPPORT. The model's own tests: the WellFormed smoke tests, a command word written out for every constructor, one or two small
tests of each command and event with values from 95_test_vectors.md, and for every obligation with hypotheses a concrete
state and operands that meet them. -/

set_option maxRecDepth 20000

namespace Sys2Proof.Tests

open Sys2Proof.Machine

/-! ### Helpers -/

/-- A byte string from numbers. -/
def bs (l : List Nat) : Bytes := l.map (BitVec.ofNat 8)

/-- The instance of 95_test_vectors.md section 0 with another block state. -/
def withBlk (b : Block) : State := { State.reset with blk := b }

/-- `CFG_LOAD 0, 3, 1, 9600, 0, 0` done (95_test_vectors.md section 6). -/
def configured : Block :=
  { Block.reset with tInit := some 0#32, tIb := some 3#32, port := some 1#32, baud := some 9600#32, duplex := some 0#1 }

/-- `FR_START` done. -/
def running : Block := { configured with fstate := .running, rstate := .waitFirst }

/-- `@RX [05]` done. -/
def gathering : Block := { running with rstate := .accum, chunk := [0x05#8] }

/-- One chunk queued. -/
def queued : Block := { running with q := [[0x01#8, 0x02#8]] }

/-- A receive pending with 5 ticks left. -/
def pending : Block := { running with recv := some 5#32 }

/-- The framer faulted by the transport. -/
def faulted : Block := { configured with fstate := .faulted, fcode := .transport }

/-- Parameters with a queue of one chunk and the policy `p` (95_test_vectors.md P4). -/
def depthOne (p : QFullPolicy) : Params := { Params.standard with qdepth := 1, qfullPolicy := p }

/-- P4 line 2: the queue full, and a second chunk about to complete. -/
def fullQueue (p : QFullPolicy) : State :=
  { withBlk { gathering with q := [[0x11#8, 0x22#8]], ibcnt := 2#32 } with par := depthOne p }

/-- The reader holds a completed chunk (P4a after line 2). -/
def holding : State :=
  { withBlk { running with q := [[0x11#8, 0x22#8]], chunk := [0x33#8], rstate := .held } with par := depthOne .block }

/-- The next state of an outcome. -/
def nextOf (r : Result) : Option State :=
  match r with
  | .next s => some s
  | .fault _ => none
  | .refused _ => none

/-- The result frames after a command on an idle machine. -/
def answers (i : Instr) (b : Block) : Option (List Bytes) := (nextOf (exec i (withBlk b))).map State.results

/-- The block after a command. -/
def blkAfter (i : Instr) (b : Block) : Option Block := (nextOf (exec i (withBlk b))).map State.blk

/-- The ASCII frame A of 95_test_vectors.md section 5. -/
def frameA : Bytes :=
  bs [0x3A, 0x30, 0x31, 0x30, 0x33, 0x30, 0x30, 0x30, 0x30, 0x30, 0x30, 0x30, 0x41, 0x46, 0x32, 0x0D, 0x0A]

/-- The RTU frame of (01, 03, [00 00 00 0A]). -/
def frameR : Bytes := bs [0x01, 0x03, 0x00, 0x00, 0x00, 0x0A, 0xC5, 0xCD]

/-! ### WellFormed: one ill-formed term for each check, refused -/

/-- One byte more than the length field n can say (30_encoding.md R81). -/
def tooLong : Bytes := List.replicate 65536 0x00#8

theorem test_tooLong_unfit : strFits tooLong = false :=
  decide_eq_false (by rw [tooLong, List.length_replicate]; omega)

theorem test_longest_fits : strFits (List.replicate 65535 0x00#8) = true :=
  decide_eq_true (by rw [List.length_replicate]; omega)

theorem test_illFormed_refused :
    (Instr.crcCompute tooLong).wellFormed = false ∧ (Instr.lrcCompute tooLong).wellFormed = false ∧
    (Instr.encAscii 0x01#8 0x03#8 tooLong).wellFormed = false ∧ (Instr.encRtu 0x01#8 0x03#8 tooLong).wellFormed = false ∧
    (Instr.decAsciiFrame tooLong).wellFormed = false ∧ (Instr.decRtuCand 0x00#8 tooLong).wellFormed = false ∧
    (Instr.pdecAscii tooLong).wellFormed = false ∧ (Instr.pdecRtu tooLong).wellFormed = false ∧
    (Instr.frSend tooLong).wellFormed = false :=
  ⟨test_tooLong_unfit, test_tooLong_unfit, test_tooLong_unfit, test_tooLong_unfit, test_tooLong_unfit, test_tooLong_unfit,
    test_tooLong_unfit, test_tooLong_unfit, test_tooLong_unfit⟩

/-! ### Decoding: a word written out for every constructor -/

/-- 30_encoding.md R82, formats N and B: the opcode bytes as the opcode map gives them. -/
theorem test_decode_fixed :
    decode (bs [0x01]) = .ok .reset ∧ decode (bs [0x02, 0x17]) = .ok (.cfgRd 0x17#8) ∧
    decode (bs [0x10]) = .ok .crcInit ∧ decode (bs [0x11, 0x03]) = .ok (.crcUpdate 0x03#8) ∧
    decode (bs [0x12]) = .ok .crcRead ∧ decode (bs [0x18]) = .ok .lrcInit ∧
    decode (bs [0x19, 0xFF]) = .ok (.lrcUpdate 0xFF#8) ∧ decode (bs [0x1A]) = .ok .lrcRead ∧
    decode (bs [0x32]) = .ok .pdecReset ∧ decode (bs [0x40]) = .ok .frStart ∧ decode (bs [0x41]) = .ok .frStop ∧
    decode (bs [0x44]) = .ok .frFlush :=
  ⟨rfl, rfl, rfl, rfl, rfl, rfl, rfl, rfl, rfl, rfl, rfl, rfl⟩

/-- Formats W and T, little-endian (20_memory.md R65): section 8 row 15, and V-FR-11. -/
theorem test_decode_u32 :
    decode (bs [0x03, 0x03, 0x80, 0x25, 0x00, 0x00]) = .ok (.cfgWr 0x03#8 9600#32) ∧
    decode (bs [0x03, 0x02, 0x01, 0x02, 0x03, 0x04]) = .ok (.cfgWr 0x02#8 0x04030201#32) ∧
    decode (bs [0x43, 0x64, 0x00, 0x00, 0x00]) = .ok (.frRecv 100#32) :=
  ⟨rfl, rfl, rfl⟩

/-- Format S. -/
theorem test_decode_strings :
    decode (bs [0x13, 0x01, 0x00, 0xAA]) = .ok (.crcCompute [0xAA#8]) ∧
    decode (bs [0x1B, 0x00, 0x00]) = .ok (.lrcCompute []) ∧
    decode (bs [0x28, 0x02, 0x00, 0x0D, 0x0A]) = .ok (.decAsciiFrame [0x0D#8, 0x0A#8]) ∧
    decode (bs [0x30, 0x01, 0x00, 0x3A]) = .ok (.pdecAscii [0x3A#8]) ∧
    decode (bs [0x31, 0x04, 0x00, 0x03, 0x03, 0x41, 0x41]) = .ok (.pdecRtu [0x03#8, 0x03#8, 0x41#8, 0x41#8]) ∧
    decode (bs [0x42, 0x01, 0x00, 0x78]) = .ok (.frSend [0x78#8]) :=
  ⟨rfl, rfl, rfl, rfl, rfl, rfl⟩

/-- Formats K and M: V-CODEC-12 and V-CODEC-3. -/
theorem test_decode_km :
    decode (bs [0x29, 0x00, 0x03, 0x00, 0x03, 0x03, 0x41]) = .ok (.decRtuCand 0x00#8 [0x03#8, 0x03#8, 0x41#8]) ∧
    decode (bs [0x21, 0x01, 0x83, 0x01, 0x00, 0x02]) = .ok (.encRtu 0x01#8 0x83#8 [0x02#8]) ∧
    decode (bs [0x20, 0x03, 0x04, 0x00, 0x00]) = .ok (.encAscii 0x03#8 0x04#8 []) :=
  ⟨rfl, rfl, rfl⟩

/-- 95_test_vectors.md section 8, rows 1 to 9. -/
theorem test_decode_rejects :
    decode (bs [0x00]) = .error .illegal ∧ decode (bs [0x45]) = .error .illegal ∧
    decode (bs [0xFF, 0x01, 0x02]) = .error .illegal ∧ decode (bs [0x14]) = .error .illegal ∧
    decode [] = .error .malformed ∧ decode (bs [0x10, 0x00]) = .error .malformed ∧
    decode (bs [0x11]) = .error .malformed ∧ decode (bs [0x13, 0x03, 0x00, 0x01]) = .error .malformed ∧
    decode (bs [0x43, 0x01, 0x00, 0x00]) = .error .malformed :=
  ⟨rfl, rfl, rfl, rfl, rfl, rfl, rfl, rfl, rfl⟩

/-- spec/opcode_table.json numbers byte 0 as bits 7..0; the operand bytes it does not give are zeros. -/
theorem test_decodeTableWord :
    decodeTableWord 8 0x40 = some .frStart ∧ decodeTableWord 8 0x43 = some (.frRecv 0#32) ∧
    decodeTableWord 16 0x1711 = some (.crcUpdate 0x17#8) ∧ decodeTableWord 8 0x14 = none := by
  decide

theorem test_withFetchWord :
    (nextOf (step (State.reset.withFetchWord 8 0x12))).map State.results = some [[0x00#8, 0xFF#8, 0xFF#8]] := by
  decide

/-! ### Control (section 7) -/

theorem test_cfgRd :
    answers (.cfgRd 0x00#8) Block.reset = some [[0x87#8]] ∧ answers (.cfgRd 0x06#8) Block.reset = some [[0x86#8]] ∧
    answers (.cfgRd 0x03#8) configured = some [bs [0x00, 0x80, 0x25, 0x00, 0x00]] ∧
    answers (.cfgRd 0x10#8) faulted = some [bs [0x00, 0x07, 0x00, 0x00, 0x00]] := by
  decide

theorem test_cfgWr :
    answers (.cfgWr 0x01#8 0#32) Block.reset = some [[0x85#8]] ∧ answers (.cfgWr 0x01#8 0#32) running = some [[0x84#8]] ∧
    answers (.cfgWr 0x10#8 0#32) running = some [[0x86#8]] ∧
    blkAfter (.cfgWr 0x04#8 1#32) Block.reset = some { Block.reset with duplex := some 1#1 } := by
  decide

theorem test_reset :
    answers .reset pending = some [[0x02#8], [0x00#8]] ∧ blkAfter .reset pending = some Block.reset := by
  decide

/-- P2 line 6, P4a line 2 and P5 line 8: STATUS 0x111, 0x1B1 and 0x61. -/
theorem test_status :
    statusWord Params.standard queued = 0x111#32 ∧ statusWord holding.par holding.blk = 0x1B1#32 ∧
    statusWord Params.standard { gathering with recv := some 7#32 } = 0x61#32 := by
  decide

/-! ### Checksums (section 2) -/

theorem test_crc16 :
    crc16 (bs [0x31, 0x32, 0x33, 0x34, 0x35, 0x36, 0x37, 0x38, 0x39]) = 0x4B37#16 ∧
    crc16 (bs [0x01, 0x03, 0x00, 0x00, 0x00, 0x0A]) = 0xCDC5#16 ∧ crc16 frameR = 0x0000#16 := by
  decide

theorem test_crcStep :
    crcStep 0x0000#16 0x00#8 = 0x0000#16 ∧ crcStep 0x0000#16 0x01#8 = 0xC0C1#16 ∧ crcStep 0xFFFF#16 0x01#8 = 0x807E#16 := by
  decide

theorem test_lrc :
    lrc (bs [0x80, 0x80]) = 0x00#8 ∧ lrc (bs [0xFF]) = 0x01#8 ∧ lrc (bs [0x11, 0x03, 0x00, 0x6B, 0x00, 0x03]) = 0x7E#8 := by
  decide

theorem test_crc_commands :
    (blkAfter .crcInit { Block.reset with crcAcc := 0x1234#16 }).map Block.crcAcc = some 0xFFFF#16 ∧
    (blkAfter (.crcUpdate 0x01#8) Block.reset).map Block.crcAcc = some 0x807E#16 ∧
    answers .crcRead { Block.reset with crcAcc := 0x807E#16 } = some [bs [0x00, 0x7E, 0x80]] ∧
    answers (.crcCompute []) Block.reset = some [bs [0x00, 0xFF, 0xFF]] := by
  decide

theorem test_lrc_commands :
    (blkAfter .lrcInit { Block.reset with lrcAcc := 0x12#8 }).map Block.lrcAcc = some 0x00#8 ∧
    (blkAfter (.lrcUpdate 0x01#8) { Block.reset with lrcAcc := 0xFF#8 }).map Block.lrcAcc = some 0x00#8 ∧
    answers .lrcRead { Block.reset with lrcAcc := 0xFF#8 } = some [bs [0x00, 0x01]] ∧
    answers (.lrcCompute (bs [0x01, 0x03, 0x00, 0x00, 0x00, 0x0A])) Block.reset = some [bs [0x00, 0xF2]] := by
  decide

/-! ### Frame codec (section 3) -/

/-- V-CODEC-1 and V-CODEC-2. -/
theorem test_encAscii :
    asciiFrame 0x01#8 0x03#8 (bs [0x00, 0x00, 0x00, 0x0A]) = frameA ∧
    answers (.encAscii 0x03#8 0x03#8 []) Block.reset =
      some [bs [0x00, 0x09, 0x00, 0x3A, 0x30, 0x33, 0x30, 0x33, 0x46, 0x41, 0x0D, 0x0A]] := by
  decide

/-- V-CODEC-3. -/
theorem test_encRtu :
    answers (.encRtu 0x01#8 0x83#8 [0x02#8]) Block.reset = some [bs [0x00, 0x05, 0x00, 0x01, 0x83, 0x02, 0xC0, 0xF1]] := by
  decide

/-- V-CODEC-5 and V-CODEC-8. -/
theorem test_decAsciiFrame :
    answers (.decAsciiFrame frameA) Block.reset =
      some [bs [0x00, 0x01, 0x03, 0x00, 0x00, 0x00, 0x00, 0x04, 0x00, 0x00, 0x00, 0x00, 0x0A]] ∧
    blkAfter (.decAsciiFrame (bs [0x3A, 0x30, 0x33, 0x46, 0x43, 0x0D, 0x0A])) Block.reset =
      some { Block.reset with cntAsciiDrop := 1#32 } := by
  decide

/-- V-CODEC-9 and V-CODEC-12. -/
theorem test_decRtuCand :
    answers (.decRtuCand 0x04#8 (frameR ++ [0xAA#8])) Block.reset =
      some [bs [0x00, 0x01, 0x01, 0x03, 0x00, 0x00, 0x00, 0x00, 0x04, 0x00, 0x00, 0x00, 0x00, 0x0A, 0x01, 0x00, 0xAA]] ∧
    answers (.decRtuCand 0x00#8 (bs [0x03, 0x03, 0x41])) Block.reset = some [bs [0x01, 0x00, 0x03, 0x00, 0x03, 0x03, 0x41]] := by
  decide

/-! ### Protocol decoder (sections 4 and 5) -/

/-- V-RTU-20 and V-RTU-12. -/
theorem test_pdecRtu :
    answers (.pdecRtu (bs [0x03, 0x03, 0x41, 0x41, 0x01, 0x83, 0x02, 0xC0, 0xF1])) Block.reset = some [bs
      [0x00, 0x02, 0x00, 0x03, 0x03, 0x00, 0x00, 0x00, 0x00, 0x00, 0x00, 0x01, 0x83, 0x00, 0x00, 0x00, 0x00, 0x01, 0x00, 0x02]] ∧
    (blkAfter (.pdecRtu (frameR ++ bs [0xDE, 0xAD, 0xBE])) Block.reset).map Block.cntRtuDrop = some 1#32 := by
  decide

/-- V-ASC-17 and V-ASC-9. -/
theorem test_pdecAscii :
    (blkAfter (.pdecAscii (bs [0x3A, 0x30, 0x33, 0x30, 0x33, 0x46, 0x41, 0x0D, 0x0A, 0x3A, 0x30, 0x31])) Block.reset).map
      Block.rem = some (bs [0x3A, 0x30, 0x31]) ∧
    blkAfter (.pdecAscii (bs [0x0D, 0x0A])) Block.reset = some { Block.reset with cntAsciiDrop := 1#32 } := by
  decide

/-- V-ASC-4 and V-ASC-11: a CR is kept as the last byte only. -/
theorem test_keepPartial :
    keepPartial 513 (bs [0x3A, 0x30, 0x0D]) = bs [0x3A, 0x30, 0x0D] ∧ keepPartial 513 (bs [0x3A, 0x0D, 0x30]) = [] ∧
    keepPartial 2 (bs [0x3A, 0x30, 0x31]) = [] := by
  decide

theorem test_pdecReset : blkAfter .pdecReset { Block.reset with rem := [0x3A#8] } = some Block.reset := by decide

/-! ### Byte framer (section 6, P4, P7) -/

theorem test_frStart :
    blkAfter .frStart configured = some running ∧ answers .frStart Block.reset = some [[0x85#8]] := by
  decide

/-- P7 line 5: the pending receive's result first. -/
theorem test_frStop :
    answers .frStop { gathering with recv := some 97#32 } = some [[0x02#8], [0x00#8]] ∧
    blkAfter .frStop { gathering with recv := some 97#32 } = some { configured with fstate := .stopped } := by
  decide

/-- V-FR-13 and V-FR-15. -/
theorem test_frSend :
    (nextOf (exec (.frSend [0x01#8, 0x02#8]) (withBlk running))).map State.tx = some [0x01#8, 0x02#8] ∧
    answers (.frSend [0x01#8]) faulted = some [[0x03#8, 0x01#8]] := by
  decide

/-- V-FR-11, and P4a line 3: the held chunk moves into the freed place. -/
theorem test_frRecv :
    answers (.frRecv 0#32) queued = some [bs [0x00, 0x02, 0x00, 0x01, 0x02]] ∧
    (nextOf (exec (.frRecv 0#32) holding)).map State.blk = some { running with q := [[0x33#8]] } := by
  decide

/-- V-FR-9. -/
theorem test_frFlush : blkAfter .frFlush { gathering with recv := some 5#32 } = some pending := by decide

/-- V-FR-5: on the tick of the deadline the chunk completes first, and goes to the receive. -/
theorem test_tick_tie :
    tick (withBlk { gathering with ibcnt := 2#32, recv := some 1#32, now := 0xFFFFFFFF#32 }) =
      { withBlk running with results := [bs [0x00, 0x01, 0x00, 0x05]] } := by
  decide

/-- P4: the three policies. -/
theorem test_queueFull :
    (tick (fullQueue .block)).blk = { holding.blk with chunk := [0x05#8], now := 1#32 } ∧
    (tick (fullQueue .drop)).blk.cntChunkDrop = 1#32 ∧ (tick (fullQueue .drop)).blk.q = [[0x11#8, 0x22#8]] ∧
    statusWord (depthOne .fault) (tick (fullQueue .fault)).blk = 0x18B#32 := by
  decide

/-- V-FR-4 and V-FR-8. -/
theorem test_rxByte :
    (rxTurn { withBlk running with par := { Params.standard with chunkMax := 1 }, rxLine := [0x07#8, 0x08#8] }).blk.q =
      [[0x07#8]] ∧
    rxTurn { State.reset with rxLine := [0x01#8] } = State.reset := by
  decide

/-- V-FR-13 and P7 line 11. -/
theorem test_rxError :
    rxError State.reset = State.reset ∧ (rxError (withBlk pending)).results = [[0x03#8, 0x01#8]] ∧
    statusWord Params.standard (rxError (withBlk pending)).blk = 0x07#32 := by
  decide

/-! ### Pseudo-instructions and the assembler (30_encoding.md R103, R104) -/

theorem test_cfgLoad :
    (nextOf (execAll (cfgLoad 0#32 3#32 1#32 9600#32 0#32 0#32) State.reset)).map State.blk = some configured := by
  decide

theorem test_assembleLine :
    assembleLine "CFG_WR T_IB, 3 ; three ticks".toList = some (.cmds [.cfgWr 0x01#8 3#32]) ∧
    assembleLine "PDEC_ASCII \":01\\r\"".toList = some (.cmds [.pdecAscii (bs [0x3A, 0x30, 0x31, 0x0D])]) ∧
    assembleLine "@TICK*12".toList = some (.ticks 12) := by
  decide

/-! ### Witnesses: for each obligation with hypotheses, states and operands that meet them -/

/-- A machine with one command frame and the Host's turn. -/
def withFrame (frame : Bytes) (b : Block) : State := { withBlk b with cmds := [frame], sched := [.host] }

theorem witness_StepRunsDecodedCommand :
    (withFrame (bs [0x10]) running).sched = .host :: [] ∧ (withFrame (bs [0x10]) running).cmds = bs [0x10] :: [] ∧
    decode (bs [0x10]) = .ok .crcInit :=
  ⟨rfl, rfl, rfl⟩

theorem witness_StepGivesEachAgentItsTurn :
    { withBlk gathering with sched := [.clock] }.sched = .clock :: [] ∧
    { withBlk gathering with sched := [.rxByte], rxLine := [0x01#8] }.sched = .rxByte :: [] ∧
    { withBlk gathering with sched := [.rxError] }.sched = .rxError :: [] ∧
    ({ withBlk gathering with sched := [.host] }.sched = .host :: [] ∧
      { withBlk gathering with sched := [.host] }.cmds = []) ∧
    (withBlk gathering).rxLine = [] ∧ (withBlk gathering).sched = [] :=
  ⟨rfl, rfl, rfl, ⟨rfl, rfl⟩, rfl, rfl⟩

/-- Opcodes just outside the map's blocks, the empty frame, and frames one byte short and one byte long. -/
theorem witness_RejectedFramesChangeNothing :
    (0x00#8).toNat ∉ legalOpcodes ∧ (0x04#8).toNat ∉ legalOpcodes ∧ (0x45#8).toNat ∉ legalOpcodes ∧
    (0xFF#8).toNat ∉ legalOpcodes ∧
    ((0x01#8).toNat ∈ legalOpcodes ∧ frameLength (bs [0x01, 0x00]) ≠ some 2) ∧
    ((0x44#8).toNat ∈ legalOpcodes ∧ frameLength (bs [0x44, 0x00]) ≠ some 2) ∧
    ((0x11#8).toNat ∈ legalOpcodes ∧ frameLength (bs [0x11]) ≠ some 1) ∧
    ((0x13#8).toNat ∈ legalOpcodes ∧ frameLength (bs [0x13, 0x00]) ≠ some 2) ∧
    (withFrame [] running).sched = .host :: [] ∧ (withFrame [] running).cmds = [] :: [] := by
  decide

theorem witness_FrameLengthFollowsFormat :
    (0x01#8).toNat ∈ [0x01, 0x10, 0x12, 0x18, 0x1A, 0x32, 0x40, 0x41, 0x44] ∧
    (0x19#8).toNat ∈ [0x02, 0x11, 0x19] ∧ (0x03#8).toNat = 0x03 ∧ (0x43#8).toNat = 0x43 ∧
    (0x42#8).toNat ∈ [0x13, 0x1B, 0x28, 0x30, 0x31, 0x42] ∧ (0x29#8).toNat = 0x29 ∧ (0x21#8).toNat ∈ [0x20, 0x21] := by
  decide

/-- The instance of section 0, and the smallest and the largest legal values. -/
theorem witness_Legal :
    Params.standard.Legal ∧
    Params.Legal ⟨1, 1, .drop, Hyp.defaultOrder, 2, 1, 1⟩ ∧
    Params.Legal ⟨32763, 65535, .fault, Hyp.defaultOrder.reverse, 65535, 32763, 1000⟩ := by
  refine ⟨?_, ?_, ?_⟩ <;> refine ⟨by decide, by decide, by decide, by decide, by decide, by decide, by decide, ?_, by decide⟩
  · exact List.Perm.refl _
  · exact List.Perm.refl _
  · exact List.reverse_perm _

theorem witness_ResetStateValues : (State.resetWith Params.standard).par.Legal := witness_Legal.1

theorem witness_CfgRdReadsRegisterMap :
    (0x06 ≤ (0x06#8).toNat ∧ (0x06#8).toNat ≤ 0x0F) ∧ (0x06 ≤ (0x0F#8).toNat ∧ (0x0F#8).toNat ≤ 0x0F) ∧
    0x1A ≤ (0x1A#8).toNat ∧ 0x1A ≤ (0xFF#8).toNat := by
  decide

theorem witness_CfgWrWritesOneRegister :
    0x06 ≤ (0x06#8).toNat ∧ 0x06 ≤ (0xFF#8).toNat ∧
    ((0x00#8).toNat ≤ 0x05 ∧ (0x05#8).toNat ≤ 0x05 ∧ (withBlk running).blk.fstate = .running) ∧
    ((withBlk faulted).blk.fstate ≠ .running ∧ 1#32 ≠ 0#32 ∧ (1#32).toNat ≤ 1 ∧ 2 ≤ (2#32).toNat) := by
  decide

theorem witness_WrittenRegisterReadsBack :
    exec (.cfgWr 0x01#8 1#32) State.reset =
      .next (State.answered (withBlk { Block.reset with tIb := some 1#32 }) okFrame) ∧
    (State.answered (withBlk { Block.reset with tIb := some 1#32 }) okFrame).results =
      State.reset.results ++ [okFrame] :=
  ⟨rfl, rfl⟩

/-- A tick, a RESET frame, and a CFG_WR frame. -/
theorem witness_ConfigurationChangesOnlyByCfgWrAndReset :
    (∃ t, step { withBlk running with sched := [.clock] } = .next t) ∧
    (∃ t, step (withFrame (bs [0x01]) running) = .next t) ∧
    (∃ t, step (withFrame (bs [0x03, 0x05, 0x01, 0x00, 0x00, 0x00]) configured) = .next t) :=
  ⟨⟨_, rfl⟩, ⟨_, rfl⟩, ⟨_, rfl⟩⟩

/-- A string at the bound and one over it; the bound 4 as in section 2.3. -/
def boundFour : State := { State.reset with par := { Params.standard with chunkMax := 4, operMax := 4 } }

theorem witness_OperandBound :
    (bs [0, 0, 0, 0]).length < 65536 ∧ (bs [0, 0, 0, 0]).length ≤ boundFour.par.operMax ∧
    boundFour.par.operMax < (bs [0, 0, 0, 0, 0]).length := by
  decide

theorem witness_ChecksumComputeCommands :
    (bs [0, 0, 0, 0]).length < 65536 ∧ (bs [0, 0, 0, 0]).length ≤ boundFour.par.operMax ∧
    boundFour.par.operMax < (bs [0, 0, 0, 0, 0]).length :=
  witness_OperandBound

/-- Digits at the ends of the ranges, and "aB0F" of R92's mixed case as a string that decodes. -/
theorem witness_HexDigitRules :
    unhex 0x46#8 = some 0xF#4 ∧ unhex 0x61#8 = some 0xA#4 ∧ unhex 0x30#8 = some 0x0#4 ∧
    unhexPairs (bs [0x61, 0x42, 0x30, 0x46]) = some (bs [0xAB, 0x0F]) := by
  decide

theorem witness_EncAsciiGivesAsciiFrame :
    (bs [0, 0, 0, 0]).length < 65536 ∧ (bs [0, 0, 0, 0]).length ≤ boundFour.par.operMax ∧
    boundFour.par.operMax < (bs [0, 0, 0, 0, 0]).length :=
  witness_OperandBound

theorem witness_EncRtuGivesRtuFrame :
    (bs [0, 0, 0, 0]).length < 65536 ∧ (bs [0, 0, 0, 0]).length ≤ boundFour.par.operMax ∧
    boundFour.par.operMax < (bs [0, 0, 0, 0, 0]).length :=
  witness_OperandBound

/-- Both sides of the equivalence hold of frame A, and hex parts of 5 and 7 digits and one with a stray CR meet the refusal; V-CODEC-9, V-CODEC-10 and V-CODEC-12 for the RTU test. -/
theorem witness_AsciiParseAcceptsExactly :
    asciiParse frameA = some (0x01#8, 0x03#8, bs [0x00, 0x00, 0x00, 0x0A]) ∧
    frameA = [] ++ [0x3A#8] ++ (frameA.drop 1).take 14 ++ [0x0D#8, 0x0A#8] ∧
    ((0x3A#8 : Byte) ∉ bs [0x30, 0x30, 0x30, 0x30, 0x30] ∧ (bs [0x30, 0x30, 0x30, 0x30, 0x30]).length < 6) ∧
    ((0x3A#8 : Byte) ∉ List.replicate 7 0x30#8 ∧ (List.replicate 7 0x30#8).length % 2 = 1) ∧
    ((0x3A#8 : Byte) ∉ bs [0x30, 0x30, 0x0D, 0x30, 0x30, 0x30] ∧
      ∃ c ∈ bs [0x30, 0x30, 0x0D, 0x30, 0x30, 0x30], unhex c = none) := by
  decide

theorem witness_RtuCandidateAcceptsExactly :
    rtuCandidate (frameR ++ [0xAA#8]) 4 = (some (0x01#8, 0x03#8, bs [0x00, 0x00, 0x00, 0x0A]), [0xAA#8]) ∧
    rtuCandidate (frameR ++ [0xAA#8]) 5 = (none, frameR ++ [0xAA#8]) ∧ (bs [0x03, 0x03, 0x41]).length < 0 + 4 := by
  decide

theorem witness_DecAsciiFrameDecodesOneFrame :
    frameA.length < 65536 ∧ frameA.length ≤ State.reset.par.operMax ∧
    asciiParse frameA = some (0x01#8, 0x03#8, bs [0x00, 0x00, 0x00, 0x0A]) ∧
    asciiParse (frameA.drop 1) = none ∧ (frameA.drop 1).length ≤ State.reset.par.operMax ∧
    boundFour.par.operMax < frameA.length := by
  decide

theorem witness_DecRtuCandTestsOneLength :
    frameR.length < 65536 ∧ frameR.length ≤ State.reset.par.operMax ∧
    rtuCandidate frameR (0x04#8).toNat = (some (0x01#8, 0x03#8, bs [0x00, 0x00, 0x00, 0x0A]), []) ∧
    (rtuCandidate frameR (0x05#8).toNat).1 = none ∧ boundFour.par.operMax < frameR.length := by
  decide

theorem witness_AsciiRoundTrip : 2 * (bs [0x00, 0x00, 0x00, 0x0A]).length + 9 ≤ State.reset.par.operMax := by decide

/-- The first byte, the last byte, one bit and all bits. -/
theorem witness_RtuDetectsEveryOneByteError :
    0 < (rtuFrame 0x03#8 0x03#8 []).length ∧ 3 < (rtuFrame 0x03#8 0x03#8 []).length ∧ 0x01#8 ≠ 0x00#8 ∧ 0xFF#8 ≠ 0x00#8 := by
  decide

/-- V-RTU-2 under F0, the first hypothesis, with nothing before it; V-RTU-1 under F4, with four before it; V-RTU-16, with none. -/
theorem witness_RtuDecodeTriesHypothesesInOrder :
    (datalen .f0 (bs [0x03, 0x03, 0x41, 0x41]) = some 0 ∧
      rtuCandidate (bs [0x03, 0x03, 0x41, 0x41]) 0 = (some (0x03#8, 0x03#8, []), [])) ∧
    ((∀ g ∈ [Hyp.f0, Hyp.f1, Hyp.f2, Hyp.f3], ∀ j, datalen g frameR = some j → (rtuCandidate frameR j).1 = none) ∧
      datalen .f4 frameR = some 4 ∧
      rtuCandidate frameR 4 = (some (0x01#8, 0x03#8, bs [0x00, 0x00, 0x00, 0x0A]), [])) ∧
    (bs [0x01, 0x03, 0x00] ≠ [] ∧
      ∀ g ∈ Hyp.defaultOrder, ∀ j, datalen g (bs [0x01, 0x03, 0x00]) = some j →
        (rtuCandidate (bs [0x01, 0x03, 0x00]) j).1 = none) := by
  refine ⟨by decide, ⟨?_, by decide, by decide⟩, by decide, ?_⟩
  · intro g hg
    exact tryHyp_eq_none.mp ((by decide : ∀ g ∈ [Hyp.f0, Hyp.f1, Hyp.f2, Hyp.f3], tryHyp frameR g = none) g hg)
  · intro g hg
    exact tryHyp_eq_none.mp ((by decide : ∀ g ∈ Hyp.defaultOrder, tryHyp (bs [0x01, 0x03, 0x00]) g = none) g hg)

theorem witness_PdecRtuDecodesOneBurst :
    frameR.length < 65536 ∧ frameR.length ≤ State.reset.par.operMax ∧
    (rtuDecode State.reset.par.hypOrder frameR).2 = false ∧ (rtuDecode State.reset.par.hypOrder []).2 = false ∧
    (rtuDecode State.reset.par.hypOrder (frameR ++ [0xDE#8])).2 = true ∧ boundFour.par.operMax < frameR.length := by
  decide

theorem witness_RtuMessagesHaveDecodableLength :
    (0x01#8, 0x03#8, bs [0x00, 0x00, 0x00, 0x0A]) ∈ (rtuDecode Hyp.defaultOrder frameR).1 := by
  decide

/-- V-RTU-1's kind of frame: F4 gives its length, and no hypothesis of another length validates. -/
theorem witness_RtuRoundTripWithoutCollision :
    Hyp.f4 ∈ Hyp.defaultOrder ∧
    datalen .f4 (rtuFrame 0x01#8 0x03#8 (bs [0x00, 0x00, 0x00, 0x0A]) ++ []) = some (bs [0x00, 0x00, 0x00, 0x0A]).length ∧
    (∀ g ∈ Hyp.defaultOrder, ∀ k, datalen g (rtuFrame 0x01#8 0x03#8 (bs [0x00, 0x00, 0x00, 0x0A]) ++ []) = some k →
      (rtuCandidate (rtuFrame 0x01#8 0x03#8 (bs [0x00, 0x00, 0x00, 0x0A]) ++ []) k).1 ≠ none →
      k = (bs [0x00, 0x00, 0x00, 0x0A]).length) := by
  refine ⟨by decide, by decide, ?_⟩
  intro g hg k hk hc
  have key : ∀ g ∈ Hyp.defaultOrder,
      (datalen g (rtuFrame 0x01#8 0x03#8 (bs [0x00, 0x00, 0x00, 0x0A]) ++ [])).all (fun k =>
        k == 4 || (rtuCandidate (rtuFrame 0x01#8 0x03#8 (bs [0x00, 0x00, 0x00, 0x0A]) ++ []) k).1.isNone) = true := by
    decide
  have := key g hg
  rw [hk] at this
  simp only [Option.all_some, Bool.or_eq_true, beq_iff_eq, Option.isNone_iff_eq_none] at this
  rcases this with h | h
  · exact h
  · exact (hc h).elim

/-- A buffer without CR LF (a CR last, an LF first), and one with two. -/
theorem witness_AsciiSpansEndAtFirstCrlf :
    (∀ i, ¬ ((bs [0x0A, 0x0D])[i]? = some 0x0D#8 ∧ (bs [0x0A, 0x0D])[i + 1]? = some 0x0A#8)) ∧
    ((bs [0x0D, 0x0D, 0x0A, 0x0D, 0x0A])[1]? = some 0x0D#8 ∧ (bs [0x0D, 0x0D, 0x0A, 0x0D, 0x0A])[1 + 1]? = some 0x0A#8 ∧
      ∀ j, j < 1 → ¬ ((bs [0x0D, 0x0D, 0x0A, 0x0D, 0x0A])[j]? = some 0x0D#8 ∧
        (bs [0x0D, 0x0D, 0x0A, 0x0D, 0x0A])[j + 1]? = some 0x0A#8)) :=
  ⟨crlfIndex_eq_none.mp (by decide), by decide⟩

/-- The bound met exactly and passed by one, a digit and a CR, and a bad digit. -/
theorem witness_KeepPartialKeepsWellFormedTail :
    (0x3A#8 : Byte) ∉ bs [0x30] ∧
    ((0x3A#8 : Byte) ∉ bs [0x30, 0x0D] ∧ (bs [0x30, 0x0D]).length + 1 ≤ 3 ∧
      ∃ digits cr, bs [0x30, 0x0D] = digits ++ cr ∧ (∀ c ∈ digits, unhex c ≠ none) ∧ (cr = [] ∨ cr = [0x0D#8])) ∧
    2 < (bs [0x30, 0x0D]).length + 1 ∧
    ¬ ∃ digits cr, bs [0x0D, 0x30] = digits ++ cr ∧ (∀ c ∈ digits, unhex c ≠ none) ∧ (cr = [] ∨ cr = [0x0D#8]) :=
  ⟨by decide, ⟨by decide, by decide, partialTail_iff.mp (by decide)⟩, by decide,
    fun h => absurd (partialTail_iff.mpr h) (by decide)⟩

theorem witness_PdecAsciiDecodesSpans :
    frameA.length < 65536 ∧ frameA.length ≤ State.reset.par.operMax ∧
    asciiSpans ((withBlk { Block.reset with rem := [] }).blk.rem ++ frameA) = ([frameA], []) ∧
    boundFour.par.operMax < frameA.length := by
  decide

/-- V-ASC-3: the cut of frame A; the partial frame of 11 bytes meets the bound 11 exactly. -/
theorem witness_AsciiMessagesIgnoreChunking :
    ∀ h, afterLastColon (asciiSpans (frameA.take 11)).2 = some h → h.length + 1 ≤ 11 := by
  intro h e
  have : afterLastColon (asciiSpans (frameA.take 11)).2 = some ((frameA.take 11).drop 1) := by decide
  rw [this] at e
  cases e
  decide

theorem witness_FrStartBeginsReadCalls :
    (withBlk running).blk.fstate = .running ∧ (withBlk faulted).blk.fstate = .faulted ∧
    (State.reset.blk.fstate = .idle ∧ State.reset.blk.tInit = none) ∧
    ((withBlk { configured with fstate := .stopped, duplex := none }).blk.fstate = .stopped ∧
      (withBlk { configured with fstate := .stopped, duplex := none }).blk.duplex = none) ∧
    ((withBlk configured).blk.fstate = .idle ∧ (withBlk configured).blk.tInit ≠ none ∧
      (withBlk configured).blk.tIb ≠ none ∧ (withBlk configured).blk.port ≠ none ∧
      (withBlk configured).blk.baud ≠ none ∧ (withBlk configured).blk.duplex ≠ none) := by
  decide

theorem witness_FrStopStopsAndWakesReceiver :
    State.reset.blk.fstate ≠ .running ∧ (withBlk faulted).blk.fstate ≠ .running ∧ (withBlk pending).blk.fstate = .running := by
  decide

theorem witness_FrSendEmitsOperand :
    boundFour.par.operMax < (bs [0, 0, 0, 0, 0]).length ∧ (bs [0, 0, 0, 0]).length < 65536 ∧
    (bs [0, 0, 0, 0]).length ≤ (withBlk running).par.operMax ∧ (withBlk running).blk.fstate = .running ∧
    (withBlk faulted).blk.fstate = .faulted ∧ State.reset.blk.fstate = .idle ∧
    (withBlk { configured with fstate := .stopped }).blk.fstate = .stopped := by
  decide

theorem witness_FrRecvDeliversOrPends :
    (withBlk pending).blk.recv ≠ none ∧
    ((withBlk queued).blk.recv = none ∧ (withBlk queued).blk.q = [0x01#8, 0x02#8] :: [] ∧ (withBlk queued).blk.rstate ≠ .held) ∧
    (holding.blk.recv = none ∧ holding.blk.q = [0x11#8, 0x22#8] :: [] ∧ holding.blk.rstate = .held) ∧
    ((withBlk faulted).blk.recv = none ∧ (withBlk faulted).blk.q = [] ∧ (withBlk faulted).blk.fstate = .faulted) ∧
    (withBlk { configured with fstate := .stopped }).blk.fstate = .stopped ∧ State.reset.blk.fstate = .idle ∧
    ((withBlk running).blk.recv = none ∧ (withBlk running).blk.q = [] ∧ (withBlk running).blk.fstate = .running ∧
      1#32 ≠ 0#32) := by
  decide

theorem witness_FrFlushForgetsGatheredBytes :
    (withBlk gathering).blk.rstate = .accum ∧ holding.blk.rstate = .held ∧ State.reset.blk.rstate = .off ∧
    (withBlk running).blk.rstate = .waitFirst ∧
    exec .frFlush (withBlk queued) = .next (State.answered (withBlk running) okFrame) :=
  ⟨rfl, rfl, rfl, rfl, rfl⟩

/-- A frame that meets the operand bound exactly. -/
theorem witness_RequestRtuFlushesThenSendsFrame :
    { boundFour with blk := gathering }.blk.fstate = .running ∧
    ([] : Bytes).length + 4 ≤ { boundFour with blk := gathering }.par.operMax := by
  decide

theorem witness_RxByteGathersOrDiscardsOrWaits :
    ({ State.reset with rxLine := [0x01#8] }.rxLine = 0x01#8 :: [] ∧ State.reset.blk.rstate = .off) ∧
    holding.blk.rstate = .held ∧
    ((withBlk running).blk.rstate = .waitFirst ∧ (withBlk running).par.chunkMax ≠ 1) ∧
    { withBlk running with par := { Params.standard with chunkMax := 1 } }.par.chunkMax = 1 ∧
    ((withBlk gathering).blk.rstate = .accum ∧ (withBlk gathering).blk.chunk.length + 1 ≠ (withBlk gathering).par.chunkMax) ∧
    ((withBlk gathering).blk.chunk.length + 1 =
      { withBlk gathering with par := { Params.standard with chunkMax := 2 } }.par.chunkMax) := by
  decide

theorem witness_CompletedChunkGoesOn :
    (withBlk { gathering with recv := some 1#32 }).blk.recv ≠ none ∧
    ((withBlk gathering).blk.recv = none ∧ (withBlk gathering).blk.q.length < (withBlk gathering).par.qdepth) ∧
    ((fullQueue .block).blk.recv = none ∧ (fullQueue .block).par.qdepth ≤ (fullQueue .block).blk.q.length) ∧
    (fullQueue .block).par.qfullPolicy = .block ∧ (fullQueue .drop).par.qfullPolicy = .drop ∧
    (fullQueue .fault).par.qfullPolicy = .fault := by
  decide

theorem witness_TickAdvancesTimeReaderReceiver :
    State.reset.blk.rstate = .off ∧ holding.blk.rstate = .held ∧
    ((withBlk running).blk.rstate = .waitFirst ∧ (withBlk running).blk.tInit = some 0#32 ∧
      (0#32).toNat ≤ ((withBlk running).blk.icnt + 1#32).toNat) ∧
    ((withBlk { running with tInit := some 2#32 }).blk.icnt + 1#32).toNat < (2#32).toNat ∧
    ((withBlk { gathering with ibcnt := 2#32 }).blk.rstate = .accum ∧
      (withBlk { gathering with ibcnt := 2#32 }).blk.tIb = some 3#32 ∧
      (3#32).toNat ≤ ((withBlk { gathering with ibcnt := 2#32 }).blk.ibcnt + 1#32).toNat) ∧
    ((withBlk { gathering with ibcnt := 1#32 }).blk.ibcnt + 1#32).toNat < (3#32).toNat ∧
    (withBlk running).blk.recv = none ∧ (withBlk { gathering with recv := some 1#32 }).blk.recv = some 1#32 ∧
    ((withBlk pending).blk.recv = some 5#32 ∧ 5#32 ≠ 1#32) := by
  decide

theorem witness_RxErrorFaultsRunningFramer :
    (withBlk faulted).blk.fstate ≠ .running ∧
    ((withBlk gathering).blk.fstate = .running ∧ (withBlk gathering).blk.recv = none) ∧
    ((withBlk pending).blk.fstate = .running ∧ (withBlk pending).blk.recv ≠ none) := by
  decide

/-- A running state that meets every invariant. -/
theorem running_safe : Safe (withBlk running) := by
  refine ⟨witness_Legal.1, ?_, ?_⟩
  · constructor <;> simp [withBlk, running, configured, Block.reset]
  · constructor <;> simp [withBlk, running, configured, Block.reset, configIncomplete]

/-- A gathering state, one tick short of its timeout, that meets every invariant. -/
theorem gathering_safe : Safe (withBlk { gathering with ibcnt := 2#32 }) := by
  refine ⟨witness_Legal.1, ?_, ?_⟩
  · constructor <;>
      simp [withBlk, gathering, running, configured, Block.reset, State.reset, State.resetWith, Params.standard]
  · constructor <;> simp [withBlk, gathering, running, configured, Block.reset, configIncomplete]

theorem witness_ResetStateIsSafe : Params.standard.Legal ∧ Params.Legal ⟨1, 1, .drop, Hyp.defaultOrder, 2, 1, 1⟩ :=
  ⟨witness_Legal.1, witness_Legal.2.1⟩

/-- A tick that completes a chunk, and a command. -/
theorem witness_EveryStepKeepsSafe :
    (Safe { withBlk { gathering with ibcnt := 2#32 } with sched := [.clock] } ∧
      ∃ t, step { withBlk { gathering with ibcnt := 2#32 } with sched := [.clock] } = .next t) ∧
    (Safe (withFrame (bs [0x44]) running) ∧ ∃ t, step (withFrame (bs [0x44]) running) = .next t) :=
  ⟨⟨⟨gathering_safe.legal, gathering_safe.state, gathering_safe.support⟩, _, rfl⟩,
    ⟨⟨running_safe.legal, running_safe.state, running_safe.support⟩, _, rfl⟩⟩

/-- A command frame, a receive that pends, and a tick. -/
theorem witness_EveryCommandFrameGetsOneResult :
    ((∃ t, step (withFrame (bs [0x43, 0x05, 0x00, 0x00, 0x00]) running) = .next t) ∧
      ∃ sched frame cmds, (withFrame (bs [0x43, 0x05, 0x00, 0x00, 0x00]) running).sched = .host :: sched ∧
        (withFrame (bs [0x43, 0x05, 0x00, 0x00, 0x00]) running).cmds = frame :: cmds) ∧
    ((∃ t, step { withBlk pending with sched := [.clock] } = .next t) ∧
      ¬ ∃ sched frame cmds, { withBlk pending with sched := [.clock] }.sched = Turn.host :: sched ∧
        { withBlk pending with sched := [.clock] }.cmds = frame :: cmds) :=
  ⟨⟨⟨_, rfl⟩, [], _, [], rfl, rfl⟩, ⟨_, rfl⟩, by rintro ⟨sched, frame, cmds, h, -⟩; cases h⟩

theorem witness_ErrorStatusLeavesStateUnchanged :
    exec (.frRecv 1#32) (withBlk pending) = .next ((withBlk pending).answered [0x83#8]) ∧
    ((withBlk pending).answered [0x83#8]).results = (withBlk pending).results ++ [[0x83#8]] ∧
    0x80 ≤ (0x83#8).toNat ∧ 0x80 ≤ (0x80#8).toNat :=
  ⟨rfl, rfl, by decide, by decide⟩

theorem faulted_inv : StateInvariants (withBlk faulted).par (withBlk faulted).blk := by
  constructor <;> simp [withBlk, faulted, configured, Block.reset]

/-- A command that leaves the fault, one that does not, and a tick. -/
theorem witness_FaultLeftOnlyByReset :
    StateInvariants (withBlk faulted).par (withBlk faulted).blk ∧ (withBlk faulted).blk.fstate = .faulted ∧
    (∃ t, step (withFrame (bs [0x01]) faulted) = .next t) ∧ (∃ t, step (withFrame (bs [0x41]) faulted) = .next t) ∧
    (∃ t, step { withBlk faulted with sched := [.clock] } = .next t) :=
  ⟨faulted_inv, rfl, ⟨_, rfl⟩, ⟨_, rfl⟩, ⟨_, rfl⟩⟩

/-- Five ticks left, and exactly five clock turns among seven. -/
theorem witness_PendingReceiveEndsWithinItsTicks :
    { withBlk pending with sched := [.clock, .rxByte, .clock, .clock, .rxByte, .clock, .clock] }.blk.recv = some 5#32 ∧
    5#32 ≠ 0#32 ∧
    (5#32).toNat ≤ (({ withBlk pending with
      sched := [.clock, .rxByte, .clock, .clock, .rxByte, .clock, .clock] }.sched.take 7).count Turn.clock) := by
  decide

theorem witness_ChunkClosesAfterInterByteTimeout :
    (withBlk gathering).blk.rstate = .accum ∧ (withBlk gathering).blk.ibcnt = 0#32 ∧
    (withBlk gathering).blk.tIb = some 3#32 ∧ 3#32 ≠ 0#32 ∧ 0 < (3#32).toNat ∧ 2 < (3#32).toNat := by
  decide

/-- `ICNT` 0 and 5; `T_INIT` 0 and 1000 (V-FR-7). -/
theorem witness_InitialTimeoutIsUnobservable :
    SameButIcnt { withBlk running with sched := [.clock] }
      { withBlk { running with icnt := 5#32 } with sched := [.clock] } ∧
    SameButInitialTimeout { withBlk running with sched := [.clock] }
      { withBlk { running with icnt := 5#32, tInit := some 1000#32 } with sched := [.clock] } ∧
    (¬ ∃ sched cmds, { withBlk running with sched := [.clock] }.sched = Turn.host :: sched ∧
      { withBlk running with sched := [.clock] }.cmds = [0x02#8, 0x00#8] :: cmds) ∧
    ∃ t, step { withBlk running with sched := [.clock] } = .next t :=
  ⟨⟨5#32, rfl⟩, ⟨5#32, some 1000#32, rfl, rfl⟩, (by rintro ⟨sched, cmds, h, -⟩; cases h), _, rfl⟩

theorem queued_inv : StateInvariants (withBlk queued).par (withBlk queued).blk := by
  constructor <;>
    simp [withBlk, queued, running, configured, Block.reset, State.reset, State.resetWith, Params.standard]

/-- Waiting for a first byte, gathering, and a queued chunk to take. -/
theorem witness_GatheredBytesKeepTheirOrder :
    (StateInvariants (withBlk running).par (withBlk running).blk ∧ (withBlk running).par.qfullPolicy = .block ∧
      { withBlk running with rxLine := [0x07#8] }.rxLine = 0x07#8 :: [] ∧ (withBlk running).blk.rstate = .waitFirst) ∧
    (StateInvariants (withBlk { gathering with ibcnt := 2#32 }).par (withBlk { gathering with ibcnt := 2#32 }).blk ∧
      (withBlk { gathering with ibcnt := 2#32 }).blk.rstate = .accum) ∧
    (StateInvariants (withBlk queued).par (withBlk queued).blk ∧ (withBlk queued).blk.recv = none ∧
      (withBlk queued).blk.q = [0x01#8, 0x02#8] :: [] ∧
      exec (.frRecv 0#32) (withBlk queued) = .next (State.answered (withBlk running) (okStr [0x01#8, 0x02#8]))) :=
  ⟨⟨running_safe.state, rfl, rfl, rfl⟩, ⟨gathering_safe.state, rfl⟩, queued_inv, rfl, rfl, rfl⟩

/-- One command of each kind, `match` by `match`. -/
theorem witness_ReadingCommandsChangeNothing :
    (match Instr.cfgRd 0x12#8 with
      | .cfgRd _ => True
      | .crcRead => True
      | .lrcRead => True
      | .crcCompute _ => True
      | .lrcCompute _ => True
      | .encAscii _ _ _ => True
      | .encRtu _ _ _ => True
      | .decRtuCand _ _ => True
      | _ => False) ∧
    (match Instr.decRtuCand 0x04#8 frameR with
      | .cfgRd _ => True
      | .crcRead => True
      | .lrcRead => True
      | .crcCompute _ => True
      | .lrcCompute _ => True
      | .encAscii _ _ _ => True
      | .encRtu _ _ _ => True
      | .decRtuCand _ _ => True
      | _ => False) :=
  ⟨trivial, trivial⟩

end Sys2Proof.Tests
end

section
/-! What a command frame that decodes says: one lemma per format (30_encoding.md R81), then the decoder (R82), then the Host's turn. -/

namespace Sys2Proof

/-- Format N: the frame is the opcode alone. -/
theorem fieldsN_ok {opc b : Byte} {rest : Bytes} {i j : Instr} (hopc : opc.toNat = b.toNat) (h : fieldsN rest i = .ok j)
    (hw : i.wellFormed = true) (he : encode i = [b]) : j.wellFormed = true ∧ encode j = opc :: rest := by
  cases byte_ext hopc
  unfold fieldsN at h
  split at h
  · cases h
    exact ⟨hw, he⟩
  · cases h

/-- Formats B and R: one byte stands after the opcode. -/
theorem fieldsB_ok {opc b : Byte} {rest : Bytes} {mk : Byte → Instr} {j : Instr} (hopc : opc.toNat = b.toNat)
    (h : fieldsB rest mk = .ok j) (hw : ∀ x, (mk x).wellFormed = true) (he : ∀ x, encode (mk x) = [b, x]) :
    j.wellFormed = true ∧ encode j = opc :: rest := by
  cases byte_ext hopc
  unfold fieldsB at h
  split at h
  · cases h
    exact ⟨hw _, he _⟩
  · cases h

/-- Format W: an index and a u32 stand after the opcode. -/
theorem fieldsW_ok {opc b : Byte} {rest : Bytes} {mk : Byte → U32 → Instr} {j : Instr} (hopc : opc.toNat = b.toNat)
    (h : fieldsW rest mk = .ok j) (hw : ∀ x v, (mk x v).wellFormed = true) (he : ∀ x v, encode (mk x v) = b :: x :: le32 v) :
    j.wellFormed = true ∧ encode j = opc :: rest := by
  cases byte_ext hopc
  unfold fieldsW at h
  split at h
  · cases h
    exact ⟨hw _ _, by rw [he, le32_u32OfLe]⟩
  · cases h

/-- Format T: a u32 stands after the opcode. -/
theorem fieldsT_ok {opc b : Byte} {rest : Bytes} {mk : U32 → Instr} {j : Instr} (hopc : opc.toNat = b.toNat)
    (h : fieldsT rest mk = .ok j) (hw : ∀ v, (mk v).wellFormed = true) (he : ∀ v, encode (mk v) = b :: le32 v) :
    j.wellFormed = true ∧ encode j = opc :: rest := by
  cases byte_ext hopc
  unfold fieldsT at h
  split at h
  · cases h
    exact ⟨hw _, by rw [he, le32_u32OfLe]⟩
  · cases h

/-- A length field followed by as many bytes holds a string whose length fits a u16, behind its own length (R81). -/
theorem exists_lenPrefixed_of_fieldsS {rest : Bytes} {mk : Bytes → Instr} {j : Instr} (h : fieldsS rest mk = .ok j) :
    ∃ str, j = mk str ∧ strFits str = true ∧ rest = lenPrefixed str := by
  unfold fieldsS at h
  split at h
  · next n0 n1 str =>
    split at h
    · next hlen =>
      cases h
      refine ⟨str, rfl, decide_eq_true (hlen ▸ (u16OfLe n0 n1).isLt), ?_⟩
      rw [lenPrefixed, hlen, BitVec.ofNat_toNat, BitVec.setWidth_eq, le16_u16OfLe]
      rfl
    · cases h
  · cases h

/-- Format S: a byte string behind its length stands after the opcode. -/
theorem fieldsS_ok {opc b : Byte} {rest : Bytes} {mk : Bytes → Instr} {j : Instr} (hopc : opc.toNat = b.toNat)
    (h : fieldsS rest mk = .ok j) (hw : ∀ str, (mk str).wellFormed = strFits str)
    (he : ∀ str, encode (mk str) = b :: lenPrefixed str) : j.wellFormed = true ∧ encode j = opc :: rest := by
  cases byte_ext hopc
  obtain ⟨str, rfl, hfits, rfl⟩ := exists_lenPrefixed_of_fieldsS h
  exact ⟨(hw str).trans hfits, he str⟩

/-- Format K: one byte, then a byte string behind its length. -/
theorem fieldsK_ok {opc b : Byte} {rest : Bytes} {mk : Byte → Bytes → Instr} {j : Instr} (hopc : opc.toNat = b.toNat)
    (h : fieldsK rest mk = .ok j) (hw : ∀ k str, (mk k str).wellFormed = strFits str)
    (he : ∀ k str, encode (mk k str) = b :: k :: lenPrefixed str) : j.wellFormed = true ∧ encode j = opc :: rest := by
  cases byte_ext hopc
  unfold fieldsK at h
  split at h
  · next k rest' =>
    obtain ⟨str, rfl, hfits, rfl⟩ := exists_lenPrefixed_of_fieldsS h
    exact ⟨(hw k str).trans hfits, he k str⟩
  · cases h

/-- Format M: two bytes, then a byte string behind its length. -/
theorem fieldsM_ok {opc b : Byte} {rest : Bytes} {mk : Byte → Byte → Bytes → Instr} {j : Instr} (hopc : opc.toNat = b.toNat)
    (h : fieldsM rest mk = .ok j) (hw : ∀ a f str, (mk a f str).wellFormed = strFits str)
    (he : ∀ a f str, encode (mk a f str) = b :: a :: f :: lenPrefixed str) :
    j.wellFormed = true ∧ encode j = opc :: rest := by
  cases byte_ext hopc
  unfold fieldsM at h
  split at h
  · next a f rest' =>
    obtain ⟨str, rfl, hfits, rfl⟩ := exists_lenPrefixed_of_fieldsS h
    exact ⟨(hw a f str).trans hfits, he a f str⟩
  · cases h

/-- A frame that decodes is the encoding of a well-formed command: by the opcode, then by its format. -/
theorem wellFormed_and_encode_of_decode {frame : Bytes} {i : Instr} (h : decode frame = .ok i) :
    i.wellFormed = true ∧ encode i = frame := by
  unfold decode at h
  split at h
  · cases h
  · split at h
    · next hopc => exact fieldsN_ok (b := 0x01#8) hopc h rfl rfl
    · next hopc => exact fieldsB_ok (b := 0x02#8) hopc h (fun _ => rfl) fun _ => rfl
    · next hopc => exact fieldsW_ok (b := 0x03#8) hopc h (fun _ _ => rfl) fun _ _ => rfl
    · next hopc => exact fieldsN_ok (b := 0x10#8) hopc h rfl rfl
    · next hopc => exact fieldsB_ok (b := 0x11#8) hopc h (fun _ => rfl) fun _ => rfl
    · next hopc => exact fieldsN_ok (b := 0x12#8) hopc h rfl rfl
    · next hopc => exact fieldsS_ok (b := 0x13#8) hopc h (fun _ => rfl) fun _ => rfl
    · next hopc => exact fieldsN_ok (b := 0x18#8) hopc h rfl rfl
    · next hopc => exact fieldsB_ok (b := 0x19#8) hopc h (fun _ => rfl) fun _ => rfl
    · next hopc => exact fieldsN_ok (b := 0x1A#8) hopc h rfl rfl
    · next hopc => exact fieldsS_ok (b := 0x1B#8) hopc h (fun _ => rfl) fun _ => rfl
    · next hopc => exact fieldsM_ok (b := 0x20#8) hopc h (fun _ _ _ => rfl) fun _ _ _ => rfl
    · next hopc => exact fieldsM_ok (b := 0x21#8) hopc h (fun _ _ _ => rfl) fun _ _ _ => rfl
    · next hopc => exact fieldsS_ok (b := 0x28#8) hopc h (fun _ => rfl) fun _ => rfl
    · next hopc => exact fieldsK_ok (b := 0x29#8) hopc h (fun _ _ => rfl) fun _ _ => rfl
    · next hopc => exact fieldsS_ok (b := 0x30#8) hopc h (fun _ => rfl) fun _ => rfl
    · next hopc => exact fieldsS_ok (b := 0x31#8) hopc h (fun _ => rfl) fun _ => rfl
    · next hopc => exact fieldsN_ok (b := 0x32#8) hopc h rfl rfl
    · next hopc => exact fieldsN_ok (b := 0x40#8) hopc h rfl rfl
    · next hopc => exact fieldsN_ok (b := 0x41#8) hopc h rfl rfl
    · next hopc => exact fieldsS_ok (b := 0x42#8) hopc h (fun _ => rfl) fun _ => rfl
    · next hopc => exact fieldsT_ok (b := 0x43#8) hopc h (fun _ => rfl) fun _ => rfl
    · next hopc => exact fieldsN_ok (b := 0x44#8) hopc h rfl rfl
    · cases h

namespace Machine

/-- On the Host's turn the port's next frame is taken, the turn is used up, and the block takes the frame. -/
theorem step_host_frame {s : State} {frame : Bytes} {cmds : List Bytes} {sched : List Turn}
    (hsched : s.sched = .host :: sched) (hcmds : s.cmds = frame :: cmds) :
    step s = runFrame frame { s with cmds := cmds, sched := sched } := by
  simp only [step, nextTurn, hsched, runTurn, hostTurn, hcmds]

/-- A frame that decodes runs its command. -/
theorem runFrame_of_decode_ok {frame : Bytes} {i : Instr} (h : decode frame = .ok i) (s : State) :
    runFrame frame s = exec i s := by
  simp only [runFrame, h]

end Machine

open Machine

/-- Settles O1: a frame that decodes encodes a well-formed command, and the Host's turn runs that command. -/
theorem stepRunsDecodedCommand : Obligations.StepRunsDecodedCommand := by
  intro s frame cmds sched i hsched hcmds hdec
  obtain ⟨hwf, -⟩ := wellFormed_and_encode_of_decode hdec
  exact ⟨hwf, (step_host_frame hsched hcmds).trans (runFrame_of_decode_ok hdec _)⟩

end Sys2Proof
end

section
/-! The safe states (10_state.md R47, log 12): which updates of the block keep a state safe, one lemma for each update; then
each operation, each event, each command and the step. -/

namespace Sys2Proof.Machine

variable {s t : State}

/-! ### What a safe state says -/

/-- A reader that is not off belongs to a running framer (10_state.md R47). -/
theorem Safe.running_of_rstate (h : Safe s) (hr : s.blk.rstate ≠ .off) : s.blk.fstate = .running := by
  by_contra hne
  exact hr (h.state.readerOff.mpr hne)

/-- The initial timeout of a running framer is set (R174). -/
theorem Safe.exists_initialTimeout (h : Safe s) (hrun : s.blk.fstate = .running) : ∃ v, s.blk.tInit = some v := by
  have hcfg := h.support.runningConfigured hrun
  cases htInit : s.blk.tInit with
  | none => simp [configIncomplete, htInit] at hcfg
  | some v => exact ⟨v, rfl⟩

/-- The inter-byte timeout of a running framer is set, and is not 0 (10_state.md R25, R174). -/
theorem Safe.exists_interByteTimeout (h : Safe s) (hrun : s.blk.fstate = .running) :
    ∃ v, s.blk.tIb = some v ∧ (0#32).toNat < v.toNat := by
  have hcfg := h.support.runningConfigured hrun
  cases htIb : s.blk.tIb with
  | none => simp [configIncomplete, htIb] at hcfg
  | some v =>
    have hv : v ≠ 0#32 := fun hv => h.support.interByteLegal (htIb.trans (congrArg some hv))
    exact ⟨v, rfl, by bv_omega⟩

/-- A count that has not reached a set timeout is below it. -/
theorem lt_of_timeoutReached_eq_false {n v : U32} {timeout : Option U32} (hv : timeout = some v)
    (h : timeoutReached n timeout = false) : n.toNat < v.toNat := by
  simpa [hv] using h

/-- A flush leaves a reader that was on waiting for a first byte (R178). -/
theorem afterFlush_of_ne_off {r : RState} (h : r ≠ .off) : afterFlush r = .waitFirst := by
  cases r with
  | off => exact absurd rfl h
  | waitFirst => rfl
  | accum => rfl
  | held => rfl

/-! ### Updates of the block -/

/-- The invariants speak of the parameters and the block only: the environment may change. -/
theorem Safe.of_eq (h : Safe s) (hpar : t.par = s.par) (hblk : t.blk = s.blk) : Safe t := by
  refine ⟨?_, ?_, ?_⟩
  · exact hpar ▸ h.legal
  · rw [hpar, hblk]
    exact h.state
  · exact hblk ▸ h.support

/-- One more result frame. -/
theorem Safe.answered (h : Safe s) (frame : Bytes) : Safe (s.answered frame) := h.of_eq rfl rfl

/-- No invariant reads an accumulator, the clock or a drop counter. -/
theorem Safe.setCounters (h : Safe s) (crc : U16) (lrc : Byte) (now ascii rtu chunk : U32) :
    Safe (s.setBlk { s.blk with
      crcAcc := crc, lrcAcc := lrc, now := now, cntAsciiDrop := ascii, cntRtuDrop := rtu, cntChunkDrop := chunk }) :=
  ⟨h.legal, { h.state with }, { h.support with }⟩

/-- The reset block under legal parameters (10_state.md R49). -/
theorem safe_of_reset (hlegal : s.par.Legal) (hblk : s.blk = Block.reset) : Safe s := by
  refine ⟨hlegal, ?_, ?_⟩
  · rw [hblk]
    constructor <;> simp [Block.reset]
  · rw [hblk]
    constructor <;> simp [Block.reset]

/-- What the decoder keeps is a partial frame within its bound (43_protocol_decoder.md R204, 10_state.md R47). -/
theorem keepPartial_remainder (bound : Nat) (buf : Bytes) :
    (keepPartial bound buf).length ≤ bound ∧ (keepPartial bound buf ≠ [] →
      ∃ digits cr, keepPartial bound buf = chColon :: (digits ++ cr) ∧ (∀ c ∈ digits, isHex c = true) ∧
        (cr = [] ∨ cr = [chCr])) := by
  unfold keepPartial
  split
  · simp
  · next h _ =>
    split
    · next hkeep =>
      obtain ⟨digits, cr, rfl, hdigits, hcr⟩ := partialTail_iff.mp hkeep.1
      exact ⟨hkeep.2, fun _ => ⟨digits, cr, rfl, fun c hc => Option.isSome_iff_ne_none.mpr (hdigits c hc), hcr⟩⟩
    · simp

/-- The remainder replaced by what `keep_partial` gives, or emptied (R204, R205). -/
theorem Safe.setRem (h : Safe s) {rem : Bytes}
    (hrem : rem = s.blk.rem ∨ rem = [] ∨ ∃ buf, rem = keepPartial s.par.asciiRemMax buf) :
    Safe (s.setBlk { s.blk with rem := rem }) := by
  refine ⟨h.legal, { h.state with remainder := ?_ }, { h.support with }⟩
  obtain rfl | rfl | ⟨buf, rfl⟩ := hrem
  · exact h.state.remainder
  · simp
  · exact keepPartial_remainder _ buf

/-- A pending receive ended (42_byte_framer.md R170). -/
theorem Safe.endReceive (h : Safe s) : Safe (s.setBlk { s.blk with recv := none }) :=
  ⟨h.legal, { h.state with receivePending := nofun }, { h.support with }⟩

/-- A receive pending while the framer runs and the queue is empty (R177). -/
theorem Safe.pendReceive (h : Safe s) {r : U32} (hr : r ≠ 0#32) (hrun : s.blk.fstate = .running) (hq : s.blk.q = []) :
    Safe (s.setBlk { s.blk with recv := some r }) := by
  refine ⟨h.legal, { h.state with receivePending := ?_ }, { h.support with }⟩
  rintro _ ⟨⟩
  refine ⟨hrun, by simp [hq], ?_⟩
  bv_omega

/-- The framer halted, with a cause exactly when it is faulted: the reader is off and gives up its chunk, and no receive is
pending (R173, R175). -/
theorem Safe.halt (h : Safe s) {f : FState} {code : FCode} (hf : f ≠ .running) (hcode : code ≠ .none ↔ f = .faulted) :
    Safe (s.setBlk { clearChunk s.blk with fstate := f, fcode := code, rstate := .off, recv := none }) where
  legal := h.legal
  state := { h.state with
    readerOff := iff_of_true rfl hf
    faultCode := hcode
    receivePending := nofun
    noReadData := fun _ => ⟨rfl, rfl⟩
    accumulating := nofun
    held := nofun
    initialCount := fun _ => rfl }
  support := { h.support with
    runningConfigured := fun hrun => absurd hrun hf
    heldCount := nofun
    initialBound := .inl rfl }

/-- The framer running and configured with no cause of a fault, and the reader waiting for a first byte with nothing
gathered (R168, R174). -/
theorem Safe.wait (h : Safe s) (hfault : s.blk.fstate ≠ .faulted) (hcfg : configIncomplete s.blk = false) :
    Safe (s.setBlk { clearChunk s.blk with fstate := .running, rstate := .waitFirst }) where
  legal := h.legal
  state := { h.state with
    readerOff := by simp
    faultCode := iff_of_false (fun hc => hfault (h.state.faultCode.mp hc)) nofun
    receivePending := fun r hr => ⟨rfl, (h.state.receivePending r hr).2⟩
    noReadData := fun _ => ⟨rfl, rfl⟩
    accumulating := nofun
    held := nofun
    initialCount := fun hne => absurd rfl hne }
  support := { h.support with
    runningConfigured := fun _ => hcfg
    heldCount := nofun
    initialBound := .inl rfl }

/-- The running framer's reader given a fresh read call (R168, R178). -/
theorem Safe.rewait (h : Safe s) (hrun : s.blk.fstate = .running) :
    Safe (s.setBlk { clearChunk s.blk with rstate := .waitFirst }) :=
  (h.wait (by simp [hrun]) (h.support.runningConfigured hrun)).of_eq rfl (by simp [← hrun])

/-- Configuration registers replaced by legal values while the framer does not run (10_state.md R24 to R31). -/
theorem Safe.setConfig (h : Safe s) (hrun : s.blk.fstate ≠ .running) {tInit tIb port baud : Option U32}
    {duplex : Option (BitVec 1)} {term : BitVec 1} (htIb : tIb ≠ some 0#32) (hbaud : baud ≠ some 0#32) :
    Safe (s.setBlk { s.blk with
      tInit := tInit, tIb := tIb, port := port, baud := baud, duplex := duplex, term := term }) := by
  have hoff : s.blk.rstate = .off := h.state.readerOff.mpr hrun
  exact ⟨h.legal,
    { h.state with accumulating := by simp [hoff] },
    { h.support with
      interByteLegal := htIb
      baudLegal := hbaud
      runningConfigured := fun hr => absurd hr hrun
      initialBound := .inl (h.state.initialCount (by simp [hoff])) }⟩

/-- The queue replaced, while no receive is pending and no chunk is held (R168, R177, R178). -/
theorem Safe.setQueue (h : Safe s) {q : List Bytes} (hrecv : s.blk.recv = none ∨ q = []) (hheld : s.blk.rstate ≠ .held)
    (hlen : q.length ≤ s.par.qdepth) (hq : ∀ c ∈ q, 1 ≤ c.length ∧ c.length ≤ s.par.chunkMax) :
    Safe (s.setBlk { s.blk with q := q }) := by
  refine ⟨h.legal, { h.state with receivePending := ?_, held := fun hr => absurd hr hheld, queue := ⟨hlen, hq⟩ },
    { h.support with }⟩
  intro r hr
  obtain ⟨hrun, -, hpos⟩ := h.state.receivePending r hr
  obtain hnone | rfl := hrecv
  · cases hnone.symm.trans hr
  · exact ⟨hrun, rfl, hpos⟩

/-- A chunk that is neither empty nor full, gathered by the reader of a configured framer, with its inter-byte count short of
the timeout (R161, R162, R167). -/
theorem Safe.gather (h : Safe s) (hrun : s.blk.fstate = .running) {c : Bytes} {n : U32} (hpos : 1 ≤ c.length)
    (hlt : c.length < s.par.chunkMax) (hn : ∃ v, s.blk.tIb = some v ∧ n.toNat < v.toNat) :
    Safe (s.setBlk { s.blk with chunk := c, icnt := 0#32, ibcnt := n, rstate := .accum }) where
  legal := h.legal
  state := { h.state with
    readerOff := iff_of_false nofun (fun hne => hne hrun)
    noReadData := nofun
    accumulating := fun _ => ⟨hpos, hlt, hn⟩
    held := nofun
    initialCount := fun _ => rfl }
  support := { h.support with
    heldCount := nofun
    initialBound := .inl rfl }

/-- A completed chunk held for want of room in the queue (R169). -/
theorem Safe.hold (h : Safe s) (hrun : s.blk.fstate = .running) (hpolicy : s.par.qfullPolicy = .block)
    (hfull : s.par.qdepth ≤ s.blk.q.length) {c : Bytes} (hpos : 1 ≤ c.length) (hle : c.length ≤ s.par.chunkMax) :
    Safe (s.setBlk { clearChunk s.blk with chunk := c, rstate := .held }) where
  legal := h.legal
  state := { h.state with
    readerOff := iff_of_false nofun (fun hne => hne hrun)
    noReadData := nofun
    accumulating := nofun
    held := fun _ => ⟨hpolicy, Nat.le_antisymm h.state.queue.1 hfull, hpos, hle⟩
    initialCount := fun _ => rfl }
  support := { h.support with
    heldCount := fun _ => rfl
    initialBound := .inl rfl }

/-! ### Shared operations -/

/-- Fault entry with a cause (R173). -/
theorem Safe.enterFault (h : Safe s) {code : FCode} (hcode : code ≠ .none) : Safe (enterFault code s) := by
  obtain ⟨hpar, -, -, -, -, hblk⟩ := enterFault_frame code s
  exact (h.halt (f := .faulted) nofun (iff_of_true hcode rfl)).of_eq hpar hblk

/-- `complete()` (R168, R169) of a chunk within its bounds: the state is safe after it when it is safe with the chunk given up.
The state before it need not be: the chunk may be full, or its inter-byte count at the timeout. -/
theorem safe_complete (h : Safe (s.setBlk { clearChunk s.blk with rstate := .waitFirst }))
    (hrun : s.blk.fstate = .running) (hpos : 1 ≤ s.blk.chunk.length) (hle : s.blk.chunk.length ≤ s.par.chunkMax) :
    Safe (complete s) := by
  rcases complete_cases s with ⟨r, -, he⟩ | ⟨hrecv, hroom, he⟩ | ⟨-, hfull, hpolicy, he⟩ | ⟨-, -, -, he⟩ |
    ⟨hrecv, -, -, he⟩ <;> rw [he]
  · exact (h.endReceive.answered _).of_eq rfl rfl
  · refine (h.setQueue (q := s.blk.q ++ [s.blk.chunk]) (.inl hrecv) nofun ?_ ?_).of_eq rfl rfl
    · simpa using hroom
    · intro c hc
      obtain hc | rfl : c ∈ s.blk.q ∨ c = s.blk.chunk := by simpa using hc
      · exact h.state.queue.2 c hc
      · exact ⟨hpos, hle⟩
  · exact (h.hold hrun hpolicy hfull hpos hle).of_eq rfl rfl
  · exact (h.setCounters _ _ _ _ _ _).of_eq rfl rfl
  · exact (h.halt (f := .faulted) (code := .backpressure) nofun (by simp)).of_eq rfl (by simp [hrecv, clearChunk])

/-- A byte string the reader has just extended: gathered on, or completed when it is full (R161, R162). -/
theorem Safe.completeIfFull (h : Safe s) (hrun : s.blk.fstate = .running) {c : Bytes} (hpos : 1 ≤ c.length)
    (hle : c.length ≤ s.par.chunkMax) :
    Safe (completeIfFull (s.setBlk { s.blk with chunk := c, icnt := 0#32, ibcnt := 0#32, rstate := .accum })) := by
  rcases completeIfFull_cases (s.setBlk { s.blk with chunk := c, icnt := 0#32, ibcnt := 0#32, rstate := .accum }) with
    ⟨hne, he⟩ | ⟨-, he⟩ <;> rw [he]
  · exact h.gather hrun hpos (Nat.lt_of_le_of_ne hle hne) (h.exists_interByteTimeout hrun)
  · exact safe_complete ((h.rewait hrun).of_eq rfl rfl) hrun hpos hle

/-! ### Events -/

/-- Event RxByte (R161 to R164). -/
theorem Safe.rxTurn (h : Safe s) : Safe (rxTurn s) := by
  rcases rxTurn_cases s with ⟨-, he⟩ | ⟨x, line, -, -, he⟩ | ⟨x, line, -, hr, he⟩ | ⟨x, line, -, hr, he⟩ <;> rw [he]
  · exact h
  · exact h.of_eq rfl rfl
  · have hrun : s.blk.fstate = .running := h.running_of_rstate (by simp [hr])
    have hline : Safe { s with rxLine := line } := h.of_eq rfl rfl
    obtain ⟨hroom, -⟩ := h.legal
    exact hline.completeIfFull hrun (c := [x]) (Nat.le_refl 1) hroom
  · have hrun : s.blk.fstate = .running := h.running_of_rstate (by simp [hr])
    have hline : Safe { s with rxLine := line } := h.of_eq rfl rfl
    obtain ⟨-, hlt, -⟩ := h.state.accumulating hr
    have hicnt : s.blk.icnt = 0#32 := h.state.initialCount (by simp [hr])
    have hfull := hline.completeIfFull hrun (c := s.blk.chunk ++ [x]) (by simp) (by simpa using hlt)
    simpa only [State.setBlk, ← hicnt, ← hr] using hfull

/-- `reader_tick` (R166, R167). -/
theorem Safe.readerTick (h : Safe s) : Safe (readerTick s) := by
  rcases readerTick_cases s with ⟨-, he⟩ | ⟨hr, n, hn, he⟩ | ⟨hr, hshort, he⟩ | ⟨hr, -, he⟩
  · rwa [he]
  · rw [he]
    refine ⟨h.legal, { h.state with initialCount := fun hne => absurd hr hne },
      { h.support with initialBound := hn.imp_right fun ⟨_, hshort⟩ => ?_ }⟩
    obtain ⟨v, hv⟩ := h.exists_initialTimeout (h.running_of_rstate (by simp [hr]))
    exact ⟨v, hv, lt_of_timeoutReached_eq_false hv hshort⟩
  · rw [he]
    obtain ⟨hpos, hlt, v, hv, -⟩ := h.state.accumulating hr
    have hcount := lt_of_timeoutReached_eq_false hv hshort
    exact ⟨h.legal,
      { h.state with
        noReadData := by simp [hr]
        accumulating := fun _ => ⟨hpos, hlt, v, hv, hcount⟩ },
      { h.support with heldCount := by simp [hr] }⟩
  · rw [he]
    have hrun : s.blk.fstate = .running := h.running_of_rstate (by simp [hr])
    obtain ⟨hpos, hlt, -⟩ := h.state.accumulating hr
    exact safe_complete ((h.rewait hrun).of_eq rfl rfl) hrun hpos (Nat.le_of_lt hlt)

/-- `recv_tick` (R171). -/
theorem Safe.recvTick (h : Safe s) : Safe (recvTick s) := by
  rcases recvTick_cases s with ⟨-, he⟩ | ⟨-, he⟩ | ⟨r, hr, hne, he⟩ <;> rw [he]
  · exact h
  · exact h.endReceive.answered _
  · obtain ⟨hrun, hq, hpos⟩ := h.state.receivePending r hr
    exact h.pendReceive (by bv_omega) hrun (List.eq_nil_of_length_eq_zero hq)

/-- Event Tick (R165). -/
theorem Safe.tick (h : Safe s) : Safe (tick s) :=
  ((h.setCounters _ _ _ _ _ _).of_eq rfl rfl : Safe (s.setBlk { s.blk with now := s.blk.now + 1#32 })).readerTick.recvTick

/-- Event RxError (R172). -/
theorem Safe.rxError (h : Safe s) : Safe (rxError s) := by
  rcases rxError_cases s with ⟨-, he⟩ | ⟨-, he⟩ <;> rw [he]
  · exact h
  · exact h.enterFault nofun

/-! ### Commands -/

/-- `CFG_WR` of an accepted value while the framer does not run (44_control.md R222). -/
theorem Safe.writeCfg (h : Safe s) (hrun : s.blk.fstate ≠ .running) {r : CfgReg} {v : U32} (hv : r.accepts v = true) :
    Safe (s.setBlk (writeCfg r v s.blk)) := by
  cases r with
  | tInit => exact h.setConfig hrun h.support.interByteLegal h.support.baudLegal
  | tIb => exact h.setConfig hrun (by simpa [CfgReg.accepts] using hv) h.support.baudLegal
  | port => exact h.setConfig hrun h.support.interByteLegal h.support.baudLegal
  | baud => exact h.setConfig hrun h.support.interByteLegal (by simpa [CfgReg.accepts] using hv)
  | duplex => exact h.setConfig hrun h.support.interByteLegal h.support.baudLegal
  | term => exact h.setConfig hrun h.support.interByteLegal h.support.baudLegal

/-- `FR_STOP` of a running framer (R175). -/
theorem Safe.stop (h : Safe s) (hrun : s.blk.fstate = .running) :
    Safe (s.setBlk { clearChunk s.blk with fstate := .stopped, rstate := .off, recv := none }) := by
  have hcode : ¬ s.blk.fcode ≠ .none := fun hc => nomatch hrun.symm.trans (h.state.faultCode.mp hc)
  exact h.halt (f := .stopped) nofun (iff_of_false hcode nofun)

/-- `FR_RECV` of a queued chunk, with a held chunk moving into the freed place (R177). -/
theorem Safe.afterPop (h : Safe s) {c : Bytes} {q : List Bytes} (hrecv : s.blk.recv = none) (hq : s.blk.q = c :: q) :
    Safe (s.setBlk (afterPop q s.blk)) := by
  obtain ⟨hlen, hmem⟩ := h.state.queue
  rw [hq] at hlen hmem
  have hrest : ∀ x ∈ q, 1 ≤ x.length ∧ x.length ≤ s.par.chunkMax := fun x hx => hmem x (.tail _ hx)
  by_cases hheld : s.blk.rstate = .held
  · obtain ⟨-, -, hchunk⟩ := h.state.held hheld
    have hicnt : s.blk.icnt = 0#32 := h.state.initialCount (by simp [hheld])
    have hibcnt : s.blk.ibcnt = 0#32 := h.support.heldCount hheld
    have hrun : s.blk.fstate = .running := h.running_of_rstate (by simp [hheld])
    refine ((h.rewait hrun).setQueue (q := q ++ [s.blk.chunk]) (.inl hrecv) nofun (by simpa using hlen) ?_).of_eq rfl ?_
    · intro x hx
      obtain hx | rfl : x ∈ q ∨ x = s.blk.chunk := by simpa using hx
      · exact hrest x hx
      · exact hchunk
    · simp [Machine.afterPop, hheld, clearChunk, hicnt, hibcnt]
  · rw [Machine.afterPop, if_neg hheld]
    exact h.setQueue (.inl hrecv) hheld (by simp at hlen; omega) hrest

/-- `FR_FLUSH` (R178). -/
theorem Safe.flush (h : Safe s) :
    Safe (s.setBlk { clearChunk s.blk with q := [], rstate := afterFlush s.blk.rstate }) := by
  by_cases hoff : s.blk.rstate = .off
  · obtain ⟨hchunk, hibcnt⟩ := h.state.noReadData (.inr hoff)
    have hicnt : s.blk.icnt = 0#32 := h.state.initialCount (by simp [hoff])
    refine (h.setQueue (q := []) (.inr rfl) (by simp [hoff]) (Nat.zero_le _) nofun).of_eq rfl ?_
    simp [clearChunk, afterFlush, hchunk, hibcnt, hicnt, hoff]
  · refine ((h.rewait (h.running_of_rstate hoff)).setQueue (q := []) (.inr rfl) nofun (Nat.zero_le _) nofun).of_eq rfl ?_
    simp [afterFlush_of_ne_off hoff]

/-- Every command keeps a state safe. -/
theorem Safe.exec (h : Safe s) {i : Instr} (he : exec i s = .next t) : Safe t := by
  rcases exec_cases i s with ⟨frame, hi⟩ | ⟨-, hi⟩ | ⟨idx, v, r, -, -, hrun, hv, hi⟩ | ⟨crc, lrc, hi⟩ | ⟨n, hi⟩ |
    ⟨n, m, rem, ms, hrem, hi⟩ | ⟨-, hf, hcfg, hi⟩ | ⟨-, hrun, hi⟩ | ⟨str, -, -, hi⟩ | ⟨v, c, q, -, hrecv, hq, hi⟩ |
    ⟨v, -, hv, -, hq, hrun, hi⟩ | ⟨-, hi⟩ <;> cases hi.symm.trans he
  · exact h.answered frame
  · exact safe_of_reset h.legal rfl
  · exact (h.writeCfg hrun hv).answered okFrame
  · exact (h.setCounters crc lrc _ _ _ _).of_eq rfl rfl
  · exact (h.setCounters _ _ _ n _ _).of_eq rfl rfl
  · exact ((h.setCounters _ _ _ n m _).setRem hrem).of_eq rfl rfl
  · have hfault : s.blk.fstate ≠ .faulted := by rcases hf with hf | hf <;> simp [hf]
    exact (h.wait hfault hcfg).answered okFrame
  · exact (h.stop hrun).of_eq rfl rfl
  · exact h.of_eq rfl rfl
  · exact (h.afterPop hrecv hq).answered _
  · exact h.pendReceive hv hrun hq
  · exact h.flush.answered okFrame

/-! ### The step -/

/-- Every step of every agent keeps a state safe. -/
theorem Safe.step (h : Safe s) (he : step s = .next t) : Safe t := by
  rcases step_cases s with ⟨-, hs⟩ | ⟨sched, -, -, hs⟩ | ⟨sched, frame, cmds, r, -, -, -, hs⟩ |
    ⟨sched, frame, cmds, i, -, -, -, hs⟩ | ⟨sched, -, hs⟩ | ⟨sched, -, hs⟩ | ⟨sched, -, hs⟩
  · cases hs.symm.trans he
    exact h
  · cases hs.symm.trans he
    exact h.of_eq rfl rfl
  · cases hs.symm.trans he
    exact h.of_eq rfl rfl
  · exact (h.of_eq rfl rfl : Safe { s with cmds := cmds, sched := sched }).exec (hs.symm.trans he)
  · cases hs.symm.trans he
    exact (h.of_eq rfl rfl : Safe { s with sched := sched }).tick
  · cases hs.symm.trans he
    exact (h.of_eq rfl rfl : Safe { s with sched := sched }).rxTurn
  · cases hs.symm.trans he
    exact (h.of_eq rfl rfl : Safe { s with sched := sched }).rxError

end Sys2Proof.Machine

namespace Sys2Proof

open Machine

/-- Settles O52: each event and each command moves by updates of the block that keep it safe. -/
theorem everyStepKeepsSafe : Obligations.EveryStepKeepsSafe := fun _ _ h he => h.step he

/-- Settles O51: under legal parameters the reset block meets every invariant. -/
theorem resetStateIsSafe : Obligations.ResetStateIsSafe := fun _ hlegal => safe_of_reset hlegal rfl

end Sys2Proof
end

section
/-! The configuration registers (10_state.md R30, R31): which operations leave all six as they were, and what the others do. -/

namespace Sys2Proof.Machine

/-- Two blocks with the same six configuration registers. -/
def SameConfig (b c : Block) : Prop :=
  c.tInit = b.tInit ∧ c.tIb = b.tIb ∧ c.port = b.port ∧ c.baud = b.baud ∧ c.duplex = b.duplex ∧ c.term = b.term

theorem SameConfig.refl (b : Block) : SameConfig b b := ⟨rfl, rfl, rfl, rfl, rfl, rfl⟩

theorem SameConfig.trans {b c d : Block} (h : SameConfig b c) (h' : SameConfig c d) : SameConfig b d := by
  obtain ⟨h1, h2, h3, h4, h5, h6⟩ := h
  obtain ⟨h1', h2', h3', h4', h5', h6'⟩ := h'
  exact ⟨h1'.trans h1, h2'.trans h2, h3'.trans h3, h4'.trans h4, h5'.trans h5, h6'.trans h6⟩

/-- Every register set before is set after: no register of `c` went back to `UNSET`. -/
def KeepsSet (b c : Block) : Prop :=
  (b.tInit.isSome = true → c.tInit.isSome = true) ∧ (b.tIb.isSome = true → c.tIb.isSome = true) ∧
  (b.port.isSome = true → c.port.isSome = true) ∧ (b.baud.isSome = true → c.baud.isSome = true) ∧
  (b.duplex.isSome = true → c.duplex.isSome = true)

/-- A write gives its register a value and leaves the others (44_control.md R222, 10_state.md R30). -/
theorem keepsSet_writeCfg (r : CfgReg) (v : U32) (b : Block) : KeepsSet b (writeCfg r v b) := by
  cases r with
  | tInit => exact ⟨fun _ => rfl, id, id, id, id⟩
  | tIb => exact ⟨id, fun _ => rfl, id, id, id⟩
  | port => exact ⟨id, id, fun _ => rfl, id, id⟩
  | baud => exact ⟨id, id, id, fun _ => rfl, id⟩
  | duplex => exact ⟨id, id, id, id, fun _ => rfl⟩
  | term => exact ⟨id, id, id, id, id⟩

/-! ### Events -/

theorem sameConfig_enterFault (code : FCode) (s : State) : SameConfig s.blk (enterFault code s).blk := by
  obtain ⟨-, -, -, -, -, hblk⟩ := enterFault_frame code s
  rw [hblk]
  exact .refl _

theorem sameConfig_complete (s : State) : SameConfig s.blk (complete s).blk := by
  rcases complete_cases s with ⟨r, -, he⟩ | ⟨-, -, he⟩ | ⟨-, -, -, he⟩ | ⟨-, -, -, he⟩ | ⟨-, -, -, he⟩ <;> rw [he]
  all_goals exact .refl _

theorem sameConfig_completeIfFull (s : State) : SameConfig s.blk (completeIfFull s).blk := by
  rcases completeIfFull_cases s with ⟨-, he⟩ | ⟨-, he⟩ <;> rw [he]
  · exact .refl _
  · exact sameConfig_complete s

theorem sameConfig_rxTurn (s : State) : SameConfig s.blk (rxTurn s).blk := by
  rcases rxTurn_cases s with ⟨-, he⟩ | ⟨x, line, -, -, he⟩ | ⟨x, line, -, -, he⟩ | ⟨x, line, -, -, he⟩ <;> rw [he]
  · exact .refl _
  · exact .refl _
  · exact sameConfig_completeIfFull _
  · exact sameConfig_completeIfFull _

theorem sameConfig_readerTick (s : State) : SameConfig s.blk (readerTick s).blk := by
  rcases readerTick_cases s with ⟨-, he⟩ | ⟨-, n, -, he⟩ | ⟨-, -, he⟩ | ⟨-, -, he⟩ <;> rw [he]
  · exact .refl _
  · exact .refl _
  · exact .refl _
  · exact sameConfig_complete _

theorem sameConfig_recvTick (s : State) : SameConfig s.blk (recvTick s).blk := by
  rcases recvTick_cases s with ⟨-, he⟩ | ⟨-, he⟩ | ⟨r, -, -, he⟩ <;> rw [he]
  all_goals exact .refl _

theorem sameConfig_tick (s : State) : SameConfig s.blk (tick s).blk :=
  (sameConfig_readerTick (s.setBlk { s.blk with now := s.blk.now + 1#32 })).trans (sameConfig_recvTick _)

theorem sameConfig_rxError (s : State) : SameConfig s.blk (rxError s).blk := by
  rcases rxError_cases s with ⟨-, he⟩ | ⟨-, he⟩ <;> rw [he]
  · exact .refl _
  · exact sameConfig_enterFault _ s

/-! ### Commands -/

theorem sameConfig_afterPop (q : List Bytes) (b : Block) : SameConfig b (afterPop q b) := by
  unfold afterPop
  split
  · exact .refl _
  · exact .refl _

/-- A command changes no configuration register, or it is RESET, or a CFG_WR while the framer does not run. -/
theorem exec_config {s t : State} {i : Instr} (he : exec i s = .next t) :
    SameConfig s.blk t.blk ∨ i = .reset ∨
      (∃ idx v, i = .cfgWr idx v) ∧ s.blk.fstate ≠ .running ∧ KeepsSet s.blk t.blk := by
  rcases exec_cases i s with ⟨frame, hi⟩ | ⟨hreset, hi⟩ | ⟨idx, v, r, hwr, -, hrun, -, hi⟩ | ⟨crc, lrc, hi⟩ | ⟨n, hi⟩ |
    ⟨n, m, rem, ms, -, hi⟩ | ⟨-, -, -, hi⟩ | ⟨-, -, hi⟩ | ⟨str, -, -, hi⟩ | ⟨v, c, q, -, -, -, hi⟩ |
    ⟨v, -, -, -, -, -, hi⟩ | ⟨-, hi⟩ <;> cases hi.symm.trans he
  · exact .inl (.refl _)
  · exact .inr (.inl hreset)
  · exact .inr (.inr ⟨⟨idx, v, hwr⟩, hrun, keepsSet_writeCfg r v s.blk⟩)
  · exact .inl (.refl _)
  · exact .inl (.refl _)
  · exact .inl (.refl _)
  · exact .inl (.refl _)
  · exact .inl (.refl _)
  · exact .inl (.refl _)
  · exact .inl (sameConfig_afterPop q s.blk)
  · exact .inl (.refl _)
  · exact .inl (.refl _)

end Sys2Proof.Machine

namespace Sys2Proof

open Machine

/-- Settles O12: events leave the configuration alone, and of the commands only RESET and CFG_WR do not. -/
theorem configurationChangesOnlyByCfgWrAndReset : Obligations.ConfigurationChangesOnlyByCfgWrAndReset := by
  intro s t he
  rcases step_cases s with ⟨-, hs⟩ | ⟨sched, -, -, hs⟩ | ⟨sched, frame, cmds, r, -, -, -, hs⟩ |
    ⟨sched, frame, cmds, i, hsched, hcmds, hdec, hs⟩ | ⟨sched, -, hs⟩ | ⟨sched, -, hs⟩ | ⟨sched, -, hs⟩
  · cases hs.symm.trans he
    exact .inl (SameConfig.refl _)
  · cases hs.symm.trans he
    exact .inl (SameConfig.refl _)
  · cases hs.symm.trans he
    exact .inl (SameConfig.refl _)
  · rcases exec_config (hs.symm.trans he) with hsame | rfl | ⟨⟨idx, v, rfl⟩, hrun, hset⟩
    · exact .inl hsame
    · exact .inr ⟨sched, cmds, frame, hsched, hcmds, .inl hdec⟩
    · exact .inr ⟨sched, cmds, frame, hsched, hcmds, .inr ⟨⟨idx, v, hdec⟩, hrun, hset⟩⟩
  · cases hs.symm.trans he
    exact .inl (sameConfig_tick _)
  · cases hs.symm.trans he
    exact .inl (sameConfig_rxTurn _)
  · cases hs.symm.trans he
    exact .inl (sameConfig_rxError _)

end Sys2Proof
end

section
/-! STATUS (10_state.md R43) and the reset values (R49). -/

namespace Sys2Proof

open Machine

/-- Two words agree when what stands below a field agrees and the field does. -/
theorem add_field {low low' field field' : Nat} (place : Nat) (hlow : low = low') (hfield : field = field') :
    low + place * field = low' + place * field' := by
  rw [hlow, hfield]

/-- A flag as a bit. -/
theorem decide_toNat (p : Prop) [Decidable p] : (decide p).toNat = if p then 1 else 0 := by
  by_cases hp : p <;> simp [hp]

/-- Settles O13: STATUS as a number is the sum of its fields' codes, each at its bit; every field is read off by cases. -/
theorem statusWordFields : Obligations.StatusWordFields := by
  intro p b
  rw [statusWord_toNat]
  refine add_field 1024 (add_field 512 (add_field 256 (add_field 128 (add_field 64 (add_field 16 (add_field 4
    ?fstate ?fcode) ?rstate) ?rxp) ?qfull) ?qne) ?remne) rfl
  case fstate => cases b.fstate <;> rfl
  case fcode => cases b.fcode <;> rfl
  case rstate => cases b.rstate <;> rfl
  case rxp =>
    unfold flagRxp
    cases b.recv <;> rfl
  case qfull => exact decide_toNat _
  case qne => exact decide_toNat _
  case remne => exact decide_toNat _

/-- Settles O7: the reset block's fields are all 0, and its empty queue is not full, a legal queue holding at least one chunk. -/
theorem resetStateValues : Obligations.ResetStateValues := by
  intro p hlegal
  refine ⟨rfl, rfl, rfl, ?_⟩
  obtain ⟨-, -, -, hdepth, -⟩ := hlegal
  have hq : flagQfull p Block.reset = false := decide_eq_false (Nat.ne_of_lt hdepth)
  have hword : (statusWord p Block.reset).toNat = 0 := by
    rw [statusWord_toNat, hq]
    rfl
  exact BitVec.eq_of_toNat_eq hword

end Sys2Proof
end

section
/-! The order of the gathered bytes (20_memory.md R72): what the shared operations of the reader do to `gathered`, then each event
and FR_RECV. -/

namespace Sys2Proof.Machine

variable {s t : State} {bs : Bytes}

/-- From `s` to `t` the gathered bytes became `bs`, with no result; or the receive pending in `s` got all of `bs` as its result,
and none is left. -/
def GathersOrDelivers (s t : State) (bs : Bytes) : Prop :=
  (gathered t.blk = bs ∧ t.results = s.results ∧ t.blk.recv = s.blk.recv) ∨
  (gathered t.blk = [] ∧ t.results = s.results ++ [okStr bs] ∧ t.blk.recv = none ∧ s.blk.recv ≠ none)

/-- Only the results and the pending receive of the state before matter. -/
theorem GathersOrDelivers.of_eq {u : State} (h : GathersOrDelivers u t bs) (hresults : u.results = s.results)
    (hrecv : u.blk.recv = s.blk.recv) : GathersOrDelivers s t bs := by
  rwa [GathersOrDelivers, hresults, hrecv] at h

/-- A receive pends on an empty queue only (10_state.md R47). -/
theorem StateInvariants.q_eq_nil_of_pending {p : Params} {b : Block} (h : StateInvariants p b) (hrecv : b.recv ≠ none) :
    b.q = [] := by
  obtain ⟨r, hr⟩ := Option.ne_none_iff_exists'.mp hrecv
  obtain ⟨-, hlen, -⟩ := h.receivePending r hr
  exact List.eq_nil_of_length_eq_zero hlen

/-- Under BLOCK a completed chunk is delivered, queued or held (42_byte_framer.md R168, R169), and its bytes stay last. -/
theorem gathersOrDelivers_complete (hpolicy : s.par.qfullPolicy = .block) (hq : s.blk.recv ≠ none → s.blk.q = []) :
    GathersOrDelivers s (complete s) (gathered s.blk) := by
  rcases complete_cases s with ⟨r, hr, he⟩ | ⟨hr, -, he⟩ | ⟨hr, -, -, he⟩ | ⟨-, -, hdrop, -⟩ | ⟨-, -, hfault, -⟩
  · have hrecv : s.blk.recv ≠ none := by simp [hr]
    exact .inr (by simp [he, gathered, hq hrecv, hrecv])
  · exact .inl (by simp [he, gathered, hr])
  · exact .inl (by simp [he, gathered, hr])
  · exact nomatch hpolicy.symm.trans hdrop
  · exact nomatch hpolicy.symm.trans hfault

/-- A byte that fills the buffer completes the chunk; any other leaves it open (R161, R162). -/
theorem gathersOrDelivers_completeIfFull (hpolicy : s.par.qfullPolicy = .block) (hq : s.blk.recv ≠ none → s.blk.q = []) :
    GathersOrDelivers s (completeIfFull s) (gathered s.blk) := by
  rcases completeIfFull_cases s with ⟨-, he⟩ | ⟨-, he⟩ <;> rw [he]
  · exact .inl ⟨rfl, rfl, rfl⟩
  · exact gathersOrDelivers_complete hpolicy hq

/-- A byte the reader accepts comes after all that was gathered (R161, R162). -/
theorem gathersOrDelivers_rxTurn (h : StateInvariants s.par s.blk) (hpolicy : s.par.qfullPolicy = .block) {x : Byte}
    {line : Bytes} (hline : s.rxLine = x :: line) (hrstate : s.blk.rstate = .waitFirst ∨ s.blk.rstate = .accum) :
    GathersOrDelivers s (rxTurn s) (gathered s.blk ++ [x]) := by
  rcases rxTurn_cases s with ⟨hidle, -⟩ | ⟨_, _, -, hoff, -⟩ | ⟨y, l, hl, hr, he⟩ | ⟨y, l, hl, hr, he⟩
  · obtain hnil | hheld := hidle
    · simp [hline] at hnil
    · simp [hheld] at hrstate
  · simp [hoff] at hrstate
  all_goals
    obtain ⟨rfl, rfl⟩ := List.cons.inj (hline.symm.trans hl)
    rw [he]
  · obtain ⟨hchunk, -⟩ := h.noReadData (.inl hr)
    simpa [gathered, hchunk] using (gathersOrDelivers_completeIfFull (s := { s with
      rxLine := line, blk := { s.blk with chunk := [x], icnt := 0#32, ibcnt := 0#32, rstate := .accum } })
      hpolicy h.q_eq_nil_of_pending).of_eq (s := s) rfl rfl
  · simpa [gathered] using (gathersOrDelivers_completeIfFull (s := { s with
      rxLine := line, blk := { s.blk with chunk := s.blk.chunk ++ [x], ibcnt := 0#32 } })
      hpolicy h.q_eq_nil_of_pending).of_eq (s := s) rfl rfl

/-- `reader_tick` counts, or completes the chunk at the inter-byte timeout (R166, R167). -/
theorem gathersOrDelivers_readerTick (hpolicy : s.par.qfullPolicy = .block) (hq : s.blk.recv ≠ none → s.blk.q = []) :
    GathersOrDelivers s (readerTick s) (gathered s.blk) := by
  rcases readerTick_cases s with ⟨-, he⟩ | ⟨-, n, -, he⟩ | ⟨-, -, he⟩ | ⟨-, -, he⟩ <;> rw [he]
  · exact .inl ⟨rfl, rfl, rfl⟩
  · exact .inl ⟨rfl, rfl, rfl⟩
  · exact .inl ⟨rfl, rfl, rfl⟩
  · exact (gathersOrDelivers_complete (s := s.setBlk { s.blk with ibcnt := s.blk.ibcnt + 1#32 }) hpolicy hq).of_eq rfl rfl

/-- `recv_tick` moves no byte (R171). -/
theorem gathered_recvTick (s : State) : gathered (recvTick s).blk = gathered s.blk := by
  rcases recvTick_cases s with ⟨-, he⟩ | ⟨-, he⟩ | ⟨r, -, -, he⟩ <;> rw [he] <;> rfl

/-- With no receive pending `recv_tick` does nothing (R171). -/
theorem recvTick_of_none (hrecv : s.blk.recv = none) : recvTick s = s := by
  simp only [recvTick, hrecv]

/-- A Tick moves no byte, or hands all of them to the pending receive: once that is done none pends, so the receive's own tick
adds nothing (R165). -/
theorem tick_gathered (h : StateInvariants s.par s.blk) (hpolicy : s.par.qfullPolicy = .block) :
    (gathered (tick s).blk = gathered s.blk ∧ (s.blk.recv = none → (tick s).results = s.results)) ∨
    (gathered (tick s).blk = [] ∧ (tick s).results = s.results ++ [okStr (gathered s.blk)] ∧ s.blk.recv ≠ none) := by
  have hreader := gathersOrDelivers_readerTick (s := s.setBlk { s.blk with now := s.blk.now + 1#32 }) hpolicy
    h.q_eq_nil_of_pending
  rcases hreader with ⟨hgathered, hresults, hrecv⟩ | ⟨hgathered, hresults, hrecv, hpending⟩
  · refine .inl ⟨(gathered_recvTick _).trans hgathered, fun hnone => ?_⟩
    rw [tick, recvTick_of_none (hrecv.trans hnone)]
    exact hresults
  · rw [tick, recvTick_of_none hrecv]
    exact .inr ⟨hgathered, hresults, hpending⟩

/-- Popping the queue's head takes it from the front, whether or not a held chunk moves up (R177). -/
theorem gathered_afterPop {b : Block} {c : Bytes} {q : List Bytes} (hq : b.q = c :: q) :
    gathered b = c ++ gathered (afterPop q b) := by
  unfold afterPop
  split
  · simp [gathered, hq]
  · simp [gathered, hq]

/-- `FR_RECV` of a queued chunk pops the queue (R177). -/
theorem blk_of_exec_frRecv_queued {w : U32} {c : Bytes} {q : List Bytes} (hrecv : s.blk.recv = none) (hq : s.blk.q = c :: q)
    (he : exec (.frRecv w) s = .next t) : t.blk = afterPop q s.blk := by
  simp only [exec, execFrRecv, hrecv, hq, ret_eq] at he
  cases he
  rfl

end Sys2Proof.Machine

namespace Sys2Proof

open Machine

/-- Settles O59: an accepted byte is put last, a completed chunk keeps its place behind the queue or is all that a pending receive
waits for, and FR_RECV pops the front. -/
theorem gatheredBytesKeepTheirOrder : Obligations.GatheredBytesKeepTheirOrder := by
  intro s h hpolicy
  refine ⟨fun x line hline hrstate => ?_, tick_gathered h hpolicy, fun w c q t hrecv hq he => ?_⟩
  · rcases gathersOrDelivers_rxTurn h hpolicy hline hrstate with
      ⟨hgathered, hresults, -⟩ | ⟨hgathered, hresults, -, hpending⟩
    · exact .inl ⟨hgathered, hresults⟩
    · exact .inr ⟨hgathered, hresults, hpending⟩
  · rw [blk_of_exec_frRecv_queued hrecv hq he]
    exact gathered_afterPop hq

end Sys2Proof
end

section
/-! The turns (20_memory.md R71): the agent whose turn it is takes its step, in the state with that turn used up. -/

namespace Sys2Proof.Machine

theorem step_of_turn {s : State} {turn : Turn} {sched : List Turn} (hsched : s.sched = turn :: sched) :
    step s = runTurn turn { s with sched := sched } := by
  simp only [step, nextTurn, hsched]

theorem step_of_no_turn {s : State} (hsched : s.sched = []) : step s = .next s := by
  simp only [step, nextTurn, hsched]

theorem hostTurn_of_no_frame {s : State} (hcmds : s.cmds = []) : hostTurn s = .next s := by
  simp only [hostTurn, hcmds]

theorem rxTurn_of_empty_line {s : State} (hline : s.rxLine = []) : rxTurn s = s := by
  simp only [rxTurn, hline]

end Sys2Proof.Machine

namespace Sys2Proof

open Machine

/-- Settles O2: the schedule's head says whose step it is; an agent with nothing to do leaves the rest alone. -/
theorem stepGivesEachAgentItsTurn : Obligations.StepGivesEachAgentItsTurn := by
  refine ⟨?clock, ?rxByte, ?rxError, ?host, ?emptyLine, ?noTurn⟩
  case clock => exact fun _ _ hsched => step_of_turn hsched
  case rxByte => exact fun _ _ hsched => step_of_turn hsched
  case rxError => exact fun _ _ hsched => step_of_turn hsched
  case host => exact fun _ _ hsched hcmds => (step_of_turn hsched).trans (hostTurn_of_no_frame hcmds)
  case emptyLine => exact fun _ => rxTurn_of_empty_line
  case noTurn => exact fun _ => step_of_no_turn

end Sys2Proof
end

section
/-! The commands that change no state (20_memory.md R69): their result frame is a function of the parameters and the block. -/

namespace Sys2Proof.Machine

/-- In every state with the parameters and the block of `s` the command gives one and the same frame, and changes nothing else. -/
def AnswersFromBlock (i : Instr) (s : State) : Prop :=
  ∃ frame, ∀ u : State, u.par = s.par → u.blk = s.blk → exec i u = .next (u.answered frame)

/-- Such a command leaves the block it reads alone, so it answers the same again. -/
theorem AnswersFromBlock.repeats {i : Instr} {s : State} (h : AnswersFromBlock i s) :
    ∃ frame, exec i s = .next (s.answered frame) ∧ exec i (s.answered frame) = .next ((s.answered frame).answered frame) := by
  obtain ⟨frame, hframe⟩ := h
  exact ⟨frame, hframe s rfl rfl, hframe (s.answered frame) rfl rfl⟩

/-- A format S, K or M command whose result the block determines: `ERR_LEN`, or that result (44_control.md R225). -/
theorem answersFromBlock_of_withOperand {i : Instr} {s : State} {str : Bytes} {st : Status} {p : Payload}
    (h : ∀ u : State, u.blk = s.blk → exec i u = withOperand str u (ret st p u)) : AnswersFromBlock i s := by
  rcases Nat.lt_or_ge s.par.operMax str.length with hlong | hfits
  · exact ⟨_, fun u hpar hblk => (h u hblk).trans (withOperand_of_lt _ (hpar ▸ hlong))⟩
  · exact ⟨_, fun u hpar hblk => (h u hblk).trans (withOperand_of_le _ (hpar ▸ hfits))⟩

/-- A register is read from the parameters and the block (10_state.md R43 to R46). -/
theorem readReg_congr {s u : State} (hpar : u.par = s.par) (hblk : u.blk = s.blk) (r : Reg) : readReg r u = readReg r s := by
  cases r with
  | cfg r => simp only [readReg, hblk]
  | ro r => simp only [readReg, readRo, hpar, hblk]

/-- `CFG_RD`: `ERR_REG`, `ERR_UNSET`, or the register's value (44_control.md R221). -/
theorem answersFromBlock_cfgRd (idx : Byte) (s : State) : AnswersFromBlock (.cfgRd idx) s := by
  cases hr : Reg.ofIndex idx with
  | none => exact ⟨_, fun u _ _ => by simp only [exec, execCfgRd, hr]; rfl⟩
  | some r =>
    cases hv : readReg r s with
    | none => exact ⟨_, fun u hpar hblk => by simp only [exec, execCfgRd, hr, readReg_congr hpar hblk, hv]; rfl⟩
    | some v => exact ⟨_, fun u hpar hblk => by simp only [exec, execCfgRd, hr, readReg_congr hpar hblk, hv]; rfl⟩

/-- `DEC_RTU_CAND`: the candidate, stamped with `NOW`, or the string given back (41_frame_codec.md R145). -/
theorem answersFromBlock_decRtuCand (k : Byte) (str : Bytes) (s : State) : AnswersFromBlock (.decRtuCand k str) s := by
  rcases hc : rtuCandidate str k.toNat with ⟨_ | m, rest⟩
  · exact answersFromBlock_of_withOperand fun u _ => by simp only [exec, execDecRtuCand, hc]; rfl
  · exact answersFromBlock_of_withOperand fun u hblk => by simp only [exec, execDecRtuCand, hc, hblk]; rfl

end Sys2Proof.Machine

namespace Sys2Proof

open Machine

/-- Settles O60: each of the eight answers from the parameters and the block, which its answer leaves alone. -/
theorem readingCommandsChangeNothing : Obligations.ReadingCommandsChangeNothing := by
  intro i s hi
  apply AnswersFromBlock.repeats
  split at hi
  · exact answersFromBlock_cfgRd _ s
  · exact ⟨_, fun u _ hblk => by simp only [exec, execCrcRead, hblk]; rfl⟩
  · exact ⟨_, fun u _ hblk => by simp only [exec, execLrcRead, hblk]; rfl⟩
  · exact answersFromBlock_of_withOperand fun _ _ => rfl
  · exact answersFromBlock_of_withOperand fun _ _ => rfl
  · exact answersFromBlock_of_withOperand fun _ _ => rfl
  · exact answersFromBlock_of_withOperand fun _ _ => rfl
  · exact answersFromBlock_decRtuCand _ _ s
  · exact hi.elim

end Sys2Proof
end

section
/-! Decoding and encoding (30_encoding.md R81, R82, R101): the decoder reads back every command's frame, and takes no other. -/

namespace Sys2Proof

/-- A well-formed command's frame decodes to that command. -/
theorem decode_encode {i : Instr} (h : i.wellFormed = true) : decode (encode i) = .ok i := by
  cases i with
  | reset => exact Laws.RoundTrip.reset h
  | cfgRd idx => exact Laws.RoundTrip.cfgRd idx h
  | cfgWr idx v => exact Laws.RoundTrip.cfgWr idx v h
  | crcInit => exact Laws.RoundTrip.crcInit h
  | crcUpdate b => exact Laws.RoundTrip.crcUpdate b h
  | crcRead => exact Laws.RoundTrip.crcRead h
  | crcCompute str => exact Laws.RoundTrip.crcCompute str h
  | lrcInit => exact Laws.RoundTrip.lrcInit h
  | lrcUpdate b => exact Laws.RoundTrip.lrcUpdate b h
  | lrcRead => exact Laws.RoundTrip.lrcRead h
  | lrcCompute str => exact Laws.RoundTrip.lrcCompute str h
  | encAscii a f d => exact Laws.RoundTrip.encAscii a f d h
  | encRtu a f d => exact Laws.RoundTrip.encRtu a f d h
  | decAsciiFrame str => exact Laws.RoundTrip.decAsciiFrame str h
  | decRtuCand k str => exact Laws.RoundTrip.decRtuCand k str h
  | pdecAscii str => exact Laws.RoundTrip.pdecAscii str h
  | pdecRtu str => exact Laws.RoundTrip.pdecRtu str h
  | pdecReset => exact Laws.RoundTrip.pdecReset h
  | frStart => exact Laws.RoundTrip.frStart h
  | frStop => exact Laws.RoundTrip.frStop h
  | frSend str => exact Laws.RoundTrip.frSend str h
  | frRecv t => exact Laws.RoundTrip.frRecv t h
  | frFlush => exact Laws.RoundTrip.frFlush h

/-- Settles O5: what decodes is a well-formed command's encoding, by the frame's format; and every such encoding decodes, by the
command. -/
theorem decodeAndEncodeAgree : Obligations.DecodeAndEncodeAgree := by
  intro frame i
  constructor
  · exact wellFormed_and_encode_of_decode
  · rintro ⟨hwf, rfl⟩
    exact decode_encode hwf

/-- Settles O6: each of the five commands encodes to its frame; the last two frames are rejected. -/
theorem sampleFramesDecode : Obligations.SampleFramesDecode := by
  refine ⟨?_, ?_, ?_, ?_, ?_, rfl, rfl⟩
  all_goals exact (decodeAndEncodeAgree _ _).mpr ⟨rfl, rfl⟩

end Sys2Proof
end

section
/-! The frame length (30_encoding.md R102): the opcode gives the format, the format the length, and a frame decodes exactly when it has
that length. -/

namespace Sys2Proof

/-! ### The format gives the length -/

section

variable {opc : Byte} {rest : Bytes}

theorem frameLength_of_formatN (h : formatOf opc = some .N) : frameLength (opc :: rest) = some 1 := by
  simp only [frameLength, h]

theorem frameLength_of_formatB (h : formatOf opc = some .B) : frameLength (opc :: rest) = some 2 := by
  simp only [frameLength, h]

theorem frameLength_of_formatR (h : formatOf opc = some .R) : frameLength (opc :: rest) = some 2 := by
  simp only [frameLength, h]

theorem frameLength_of_formatW (h : formatOf opc = some .W) : frameLength (opc :: rest) = some 6 := by
  simp only [frameLength, h]

theorem frameLength_of_formatT (h : formatOf opc = some .T) : frameLength (opc :: rest) = some 5 := by
  simp only [frameLength, h]

theorem frameLength_of_formatS {n0 n1 : Byte} (h : formatOf opc = some .S) :
    frameLength (opc :: n0 :: n1 :: rest) = some (3 + (n0.toNat + 256 * n1.toNat)) := by
  simp only [frameLength, h, u16OfLe_toNat]

theorem frameLength_of_formatK {k n0 n1 : Byte} (h : formatOf opc = some .K) :
    frameLength (opc :: k :: n0 :: n1 :: rest) = some (4 + (n0.toNat + 256 * n1.toNat)) := by
  simp only [frameLength, h, u16OfLe_toNat]

theorem frameLength_of_formatM {a f n0 n1 : Byte} (h : formatOf opc = some .M) :
    frameLength (opc :: a :: f :: n0 :: n1 :: rest) = some (5 + (n0.toNat + 256 * n1.toNat)) := by
  simp only [frameLength, h, u16OfLe_toNat]

/-- Every length field ends within the first 5 bytes. -/
theorem frameLength_take_five (frame : Bytes) : frameLength frame = frameLength (frame.take 5) := by
  rcases frame with _ | ⟨opc, _ | ⟨b1, _ | ⟨b2, _ | ⟨b3, _ | ⟨b4, tail⟩⟩⟩⟩⟩
  all_goals rfl

/-! ### A frame decodes exactly when it has its format's length -/

theorem fieldsN_ok_iff {i : Instr} (h : formatOf opc = some .N) :
    (∃ j, fieldsN rest i = .ok j) ↔ frameLength (opc :: rest) = some (opc :: rest).length := by
  rw [frameLength_of_formatN h]
  rcases rest with _ | ⟨b, tail⟩
  · simp [fieldsN]
  · simp [fieldsN]

/-- Formats B and R differ in name only: both have length 2. -/
theorem fieldsB_ok_iff {mk : Byte → Instr} (h : frameLength (opc :: rest) = some 2) :
    (∃ j, fieldsB rest mk = .ok j) ↔ frameLength (opc :: rest) = some (opc :: rest).length := by
  rw [h]
  rcases rest with _ | ⟨b, _ | ⟨c, tail⟩⟩
  · simp [fieldsB]
  · simp [fieldsB]
  · simp [fieldsB]

theorem fieldsW_ok_iff {mk : Byte → U32 → Instr} (h : formatOf opc = some .W) :
    (∃ j, fieldsW rest mk = .ok j) ↔ frameLength (opc :: rest) = some (opc :: rest).length := by
  rw [frameLength_of_formatW h]
  rcases rest with _ | ⟨idx, _ | ⟨p0, _ | ⟨p1, _ | ⟨p2, _ | ⟨p3, _ | ⟨c, tail⟩⟩⟩⟩⟩⟩
  all_goals simp [fieldsW]

theorem fieldsT_ok_iff {mk : U32 → Instr} (h : formatOf opc = some .T) :
    (∃ j, fieldsT rest mk = .ok j) ↔ frameLength (opc :: rest) = some (opc :: rest).length := by
  rw [frameLength_of_formatT h]
  rcases rest with _ | ⟨p0, _ | ⟨p1, _ | ⟨p2, _ | ⟨p3, _ | ⟨c, tail⟩⟩⟩⟩⟩
  all_goals simp [fieldsT]

/-- A length field and a string decode exactly when the field gives the string's length. -/
theorem fieldsS_cons_ok_iff {mk : Bytes → Instr} {n0 n1 : Byte} {str : Bytes} :
    (∃ j, fieldsS (n0 :: n1 :: str) mk = .ok j) ↔ str.length = n0.toNat + 256 * n1.toNat := by
  simp only [fieldsS, u16OfLe_toNat]
  split
  · next hlen => simp [hlen]
  · next hlen => simp [hlen]

theorem fieldsS_ok_iff {mk : Bytes → Instr} (h : formatOf opc = some .S) :
    (∃ j, fieldsS rest mk = .ok j) ↔ frameLength (opc :: rest) = some (opc :: rest).length := by
  rcases rest with _ | ⟨n0, _ | ⟨n1, str⟩⟩
  · simp [fieldsS, frameLength, h]
  · simp [fieldsS, frameLength, h]
  · rw [fieldsS_cons_ok_iff, frameLength_of_formatS h]
    simp only [List.length_cons, Option.some.injEq]
    omega

theorem fieldsK_ok_iff {mk : Byte → Bytes → Instr} (h : formatOf opc = some .K) :
    (∃ j, fieldsK rest mk = .ok j) ↔ frameLength (opc :: rest) = some (opc :: rest).length := by
  rcases rest with _ | ⟨k, _ | ⟨n0, _ | ⟨n1, str⟩⟩⟩
  · simp [fieldsK, frameLength, h]
  · simp [fieldsK, fieldsS, frameLength, h]
  · simp [fieldsK, fieldsS, frameLength, h]
  · rw [fieldsK, fieldsS_cons_ok_iff, frameLength_of_formatK h]
    simp only [List.length_cons, Option.some.injEq]
    omega

theorem fieldsM_ok_iff {mk : Byte → Byte → Bytes → Instr} (h : formatOf opc = some .M) :
    (∃ j, fieldsM rest mk = .ok j) ↔ frameLength (opc :: rest) = some (opc :: rest).length := by
  rcases rest with _ | ⟨a, _ | ⟨f, _ | ⟨n0, _ | ⟨n1, str⟩⟩⟩⟩
  · simp [fieldsM, frameLength, h]
  · simp [fieldsM, frameLength, h]
  · simp [fieldsM, fieldsS, frameLength, h]
  · simp [fieldsM, fieldsS, frameLength, h]
  · rw [fieldsM, fieldsS_cons_ok_iff, frameLength_of_formatM h]
    simp only [List.length_cons, Option.some.injEq]
    omega

end

/-- The format of a legal opcode, by its number (R82). -/
theorem formatOf_of_toNat {opc b : Byte} {fmt : Option Format} (hopc : opc.toNat = b.toNat) (hb : formatOf b = fmt) :
    formatOf opc = fmt := by
  rwa [byte_ext hopc]

/-- The decoder takes a frame exactly when it has the length its opcode gives: by the opcode, then by its format. -/
theorem decode_ok_iff_frameLength (frame : Bytes) :
    (∃ i, decode frame = .ok i) ↔ frameLength frame = some frame.length := by
  rcases frame with _ | ⟨opc, rest⟩
  · simp [decode, frameLength]
  · unfold decode
    dsimp only
    split
    · next hopc => exact fieldsN_ok_iff (formatOf_of_toNat (b := 0x01#8) hopc rfl)
    · next hopc => exact fieldsB_ok_iff (frameLength_of_formatR (formatOf_of_toNat (b := 0x02#8) hopc rfl))
    · next hopc => exact fieldsW_ok_iff (formatOf_of_toNat (b := 0x03#8) hopc rfl)
    · next hopc => exact fieldsN_ok_iff (formatOf_of_toNat (b := 0x10#8) hopc rfl)
    · next hopc => exact fieldsB_ok_iff (frameLength_of_formatB (formatOf_of_toNat (b := 0x11#8) hopc rfl))
    · next hopc => exact fieldsN_ok_iff (formatOf_of_toNat (b := 0x12#8) hopc rfl)
    · next hopc => exact fieldsS_ok_iff (formatOf_of_toNat (b := 0x13#8) hopc rfl)
    · next hopc => exact fieldsN_ok_iff (formatOf_of_toNat (b := 0x18#8) hopc rfl)
    · next hopc => exact fieldsB_ok_iff (frameLength_of_formatB (formatOf_of_toNat (b := 0x19#8) hopc rfl))
    · next hopc => exact fieldsN_ok_iff (formatOf_of_toNat (b := 0x1A#8) hopc rfl)
    · next hopc => exact fieldsS_ok_iff (formatOf_of_toNat (b := 0x1B#8) hopc rfl)
    · next hopc => exact fieldsM_ok_iff (formatOf_of_toNat (b := 0x20#8) hopc rfl)
    · next hopc => exact fieldsM_ok_iff (formatOf_of_toNat (b := 0x21#8) hopc rfl)
    · next hopc => exact fieldsS_ok_iff (formatOf_of_toNat (b := 0x28#8) hopc rfl)
    · next hopc => exact fieldsK_ok_iff (formatOf_of_toNat (b := 0x29#8) hopc rfl)
    · next hopc => exact fieldsS_ok_iff (formatOf_of_toNat (b := 0x30#8) hopc rfl)
    · next hopc => exact fieldsS_ok_iff (formatOf_of_toNat (b := 0x31#8) hopc rfl)
    · next hopc => exact fieldsN_ok_iff (formatOf_of_toNat (b := 0x32#8) hopc rfl)
    · next hopc => exact fieldsN_ok_iff (formatOf_of_toNat (b := 0x40#8) hopc rfl)
    · next hopc => exact fieldsN_ok_iff (formatOf_of_toNat (b := 0x41#8) hopc rfl)
    · next hopc => exact fieldsS_ok_iff (formatOf_of_toNat (b := 0x42#8) hopc rfl)
    · next hopc => exact fieldsT_ok_iff (formatOf_of_toNat (b := 0x43#8) hopc rfl)
    · next hopc => exact fieldsN_ok_iff (formatOf_of_toNat (b := 0x44#8) hopc rfl)
    · have hnone : formatOf opc = none := by simp [formatOf, *]
      simp [frameLength, hnone]

/-- The format of every opcode of a list, read off the opcode map. -/
theorem formatOf_of_mem {opc : Byte} {fmt : Option Format} {opcodes : List Nat}
    (hall : ∀ n ∈ opcodes, formatOf (BitVec.ofNat 8 n) = fmt) (h : opc.toNat ∈ opcodes) : formatOf opc = fmt := by
  simpa using hall opc.toNat h

/-- Settles O4: the opcode map gives the format, the format the length; no length field goes beyond the fifth byte. -/
theorem frameLengthFollowsFormat : Obligations.FrameLengthFollowsFormat := by
  refine ⟨fun opc rest => ⟨fun h => ?N, fun h => ?BR, fun h => ?W, fun h => ?T⟩, fun opc n0 n1 rest h => ?S,
    fun opc k n0 n1 rest h => ?K, fun opc a f n0 n1 rest h => ?M, frameLength_take_five, decode_ok_iff_frameLength⟩
  case N => exact frameLength_of_formatN (formatOf_of_mem (by decide) h)
  case BR =>
    obtain hR | hB : opc.toNat = 0x02 ∨ opc.toNat ∈ [0x11, 0x19] := List.mem_cons.mp h
    · exact frameLength_of_formatR (formatOf_of_toNat (b := 0x02#8) hR rfl)
    · exact frameLength_of_formatB (formatOf_of_mem (by decide) hB)
  case W => exact frameLength_of_formatW (formatOf_of_toNat (b := 0x03#8) h rfl)
  case T => exact frameLength_of_formatT (formatOf_of_toNat (b := 0x43#8) h rfl)
  case S => exact frameLength_of_formatS (formatOf_of_mem (by decide) h)
  case K => exact frameLength_of_formatK (formatOf_of_toNat (b := 0x29#8) h rfl)
  case M => exact frameLength_of_formatM (formatOf_of_mem (by decide) h)

end Sys2Proof
end

section
/-! The pseudo-instructions (30_encoding.md R104): commands run one after another. Each command below is stated with its whole next
state; then the blocks of checksum commands, and REQUEST_RTU. -/

namespace Sys2Proof.Machine

/-- A command that answers a next state hands it to the commands after it. -/
theorem execAll_cons {i : Instr} {is : List Instr} {s t : State} (h : exec i s = .next t) :
    execAll (i :: is) s = execAll is t := by
  simp only [execAll, h]

/-! ### The CRC block -/

theorem exec_crcInit (s : State) :
    exec .crcInit s = .next (State.answered { s with blk := { s.blk with crcAcc := 0xFFFF#16 } } okFrame) := rfl

theorem exec_crcUpdate (b : Byte) (s : State) : exec (.crcUpdate b) s =
    .next (State.answered { s with blk := { s.blk with crcAcc := crcStep s.blk.crcAcc b } } okFrame) := rfl

theorem exec_crcRead (s : State) : exec .crcRead s = .next (s.answered (okU16 s.blk.crcAcc)) := by
  simp only [exec, execCrcRead, ret_eq, resultFrame_ok_u16]

/-- The CRC updates of a string run the CRC loop over it, each with the result `OK` (40_checksum.md R121, R127). -/
theorem execAll_crcUpdates (str : Bytes) (is : List Instr) (s : State) :
    execAll (str.map .crcUpdate ++ is) s = execAll is { s with
      blk := { s.blk with crcAcc := crcFrom s.blk.crcAcc str },
      results := s.results ++ List.replicate str.length okFrame } := by
  induction str generalizing s with
  | nil => simp
  | cons b str ih =>
    rw [List.map_cons, List.cons_append, execAll_cons (exec_crcUpdate b s), ih]
    simp [State.answered, List.replicate_succ]

/-- The CRC block: the initial value, the updates, and the read of what they leave. -/
theorem execAll_crcBlock (str : Bytes) (s : State) :
    execAll (crcBlock str) s = .next { s with
      blk := { s.blk with crcAcc := crc16 str },
      results := s.results ++ List.replicate (str.length + 1) okFrame ++ [okU16 (crc16 str)] } := by
  rw [crcBlock, execAll_cons (exec_crcInit s), execAll_crcUpdates, execAll_cons (exec_crcRead _), execAll]
  simp [State.answered, List.replicate_succ, crc16]

/-! ### The LRC block -/

theorem exec_lrcInit (s : State) :
    exec .lrcInit s = .next (State.answered { s with blk := { s.blk with lrcAcc := 0x00#8 } } okFrame) := rfl

theorem exec_lrcUpdate (b : Byte) (s : State) : exec (.lrcUpdate b) s =
    .next (State.answered { s with blk := { s.blk with lrcAcc := s.blk.lrcAcc + b } } okFrame) := rfl

theorem exec_lrcRead (s : State) :
    exec .lrcRead s = .next (s.answered [0x00#8, lrcOfSum s.blk.lrcAcc]) := rfl

/-- The LRC updates of a string add its bytes to the sum, each with the result `OK` (40_checksum.md R124, R131). -/
theorem execAll_lrcUpdates (str : Bytes) (is : List Instr) (s : State) :
    execAll (str.map .lrcUpdate ++ is) s = execAll is { s with
      blk := { s.blk with lrcAcc := str.foldl (fun acc b => acc + b) s.blk.lrcAcc },
      results := s.results ++ List.replicate str.length okFrame } := by
  induction str generalizing s with
  | nil => simp
  | cons b str ih =>
    rw [List.map_cons, List.cons_append, execAll_cons (exec_lrcUpdate b s), ih]
    simp [State.answered, List.replicate_succ]

/-- The LRC block: the sum from 0, and the read that negates it. -/
theorem execAll_lrcBlock (str : Bytes) (s : State) :
    execAll (lrcBlock str) s = .next { s with
      blk := { s.blk with lrcAcc := byteSum str },
      results := s.results ++ List.replicate (str.length + 1) okFrame ++ [[0x00#8, lrc str]] } := by
  rw [lrcBlock, execAll_cons (exec_lrcInit s), execAll_lrcUpdates, execAll_cons (exec_lrcRead _), execAll]
  simp [State.answered, List.replicate_succ, lrc, byteSum]

/-- The byte sum is the sum of the bytes' numbers, as a byte. -/
theorem byteSum_eq_ofNat (str : Bytes) : byteSum str = BitVec.ofNat 8 (str.map BitVec.toNat).sum :=
  BitVec.eq_of_toNat_eq ((byteSum_toNat str).trans (BitVec.toNat_ofNat _ 8).symm)

/-! ### REQUEST_RTU -/

/-- `FR_FLUSH` (42_byte_framer.md R178). -/
theorem exec_frFlush (s : State) : exec .frFlush s = .next (State.answered
    { s with blk := { clearChunk s.blk with q := [], rstate := afterFlush s.blk.rstate } } okFrame) := rfl

/-- `ENC_RTU` within the operand bound (41_frame_codec.md R141). -/
theorem exec_encRtu_of_le {s : State} {d : Bytes} (a f : Byte) (hd : d.length ≤ s.par.operMax) :
    exec (.encRtu a f d) s = .next (s.answered (okStr (rtuFrame a f d))) := by
  simp only [exec, execEncRtu, withOperand_of_le _ hd, ret_eq, resultFrame_ok_str]

/-- `FR_SEND` within the operand bound, while the framer runs (42_byte_framer.md R176). -/
theorem exec_frSend_of_running {s : State} {str : Bytes} (hstr : str.length ≤ s.par.operMax)
    (hrun : s.blk.fstate = .running) :
    exec (.frSend str) s = .next (State.answered { s with tx := s.tx ++ str } okFrame) := by
  simp only [exec, execFrSend, withOperand_of_le _ hstr, hrun]
  rfl

/-- The commands of REQUEST_RTU, each from the state the one before it left (70_reset_and_hazards.md R283). -/
theorem execAll_requestRtu {s : State} {d : Bytes} (a f : Byte) (hrun : s.blk.fstate = .running)
    (hd : d.length + 4 ≤ s.par.operMax) :
    execAll (requestRtu a f d) s = .next { s with
      blk := { clearChunk s.blk with q := [], rstate := afterFlush s.blk.rstate },
      tx := s.tx ++ rtuFrame a f d,
      results := s.results ++ [okFrame, okStr (rtuFrame a f d), okFrame] } := by
  rw [requestRtu, execAll_cons (exec_frFlush s), sendRtu, execAll_cons (exec_encRtu_of_le a f ?data),
    execAll_cons (exec_frSend_of_running ?frame ?running), execAll]
  · simp [State.answered]
  case data => exact Nat.le_of_add_right_le hd
  case frame => rwa [rtuFrame_length]
  case running => exact hrun

end Sys2Proof.Machine

namespace Sys2Proof

open Machine

/-- Settles O20: the updates fold the string into the accumulator, one `OK` for each, and the read gives its checksum. -/
theorem checksumBlocksEqualComputes : Obligations.ChecksumBlocksEqualComputes := by
  intro s str
  refine ⟨execAll_crcBlock str s, ?_⟩
  rw [execAll_lrcBlock, byteSum_eq_ofNat]

/-- Settles O45: the flush leaves the framer running and the parameters as they were, so the frame is sent whole. -/
theorem requestRtuFlushesThenSendsFrame : Obligations.RequestRtuFlushesThenSendsFrame := by
  intro s a f d hrun hd
  exact ⟨_, execAll_requestRtu a f hrun hd, rfl, rfl, rfl, rfl, hrun, rfl⟩

end Sys2Proof
end

section
/-! The RTU hypotheses (30_encoding.md R95, R96), tried in order (43_protocol_decoder.md R200). -/

namespace Sys2Proof.Machine

/-- Under a variable hypothesis the count byte at offset 2 + L gives the data length (R96). -/
theorem variableLen_eq_map (leading : Nat) (buf : Bytes) :
    variableLen leading buf = (buf[2 + leading]?).map fun count => leading + 1 + count.toNat := by
  unfold variableLen
  cases buf[2 + leading]? with
  | none => rfl
  | some count => rfl

/-- No hypothesis of the order validates. -/
theorem firstHyp_eq_none {order : List Hyp} {buf : Bytes}
    (hfail : ∀ g ∈ order, ∀ j, datalen g buf = some j → (rtuCandidate buf j).1 = none) : firstHyp order buf = none :=
  List.findSome?_eq_none_iff.mpr fun g hg => tryHyp_eq_none.mpr (hfail g hg)

/-- The hypotheses before `h` fail and `h` validates: it is the first that does, whatever comes after it. -/
theorem firstHyp_eq_some {before after : List Hyp} {h : Hyp} {buf rest : Bytes} {k : Nat} {m : Triple}
    (hfail : ∀ g ∈ before, ∀ j, datalen g buf = some j → (rtuCandidate buf j).1 = none)
    (hlen : datalen h buf = some k) (hcand : rtuCandidate buf k = (some m, rest)) :
    firstHyp (before ++ h :: after) buf = some (m, rest) := by
  have hbefore : before.findSome? (tryHyp buf) = none := firstHyp_eq_none hfail
  have hh : tryHyp buf h = some (m, rest) := tryHyp_eq_some.mpr ⟨k, hlen, hcand⟩
  simp [firstHyp, hbefore, hh]

end Sys2Proof.Machine

namespace Sys2Proof

open Machine

/-- Settles O30: the first hypothesis that validates gives the round its message; with none the buffer is dropped. -/
theorem rtuDecodeTriesHypothesesInOrder : Obligations.RtuDecodeTriesHypothesesInOrder := by
  refine ⟨fun buf => ⟨rfl, rfl, rfl, rfl, rfl, rfl, ?v0, ?v4, ?v8⟩, rtuDecode_nil,
    fun before after h buf rest k m hfail hlen hcand => ?found, fun order buf hbuf hfail => ?dropped⟩
  case v0 => exact variableLen_eq_map 0 buf
  case v4 => exact variableLen_eq_map 4 buf
  case v8 => exact variableLen_eq_map 8 buf
  case found => exact rtuDecode_some (firstHyp_eq_some hfail hlen hcand)
  case dropped => exact rtuDecode_none hbuf (firstHyp_eq_none hfail)

end Sys2Proof
end

section
/-! The `ERR_*` statuses (30_encoding.md R105, 44_control.md R225): a command that changes state answers with another status. -/

namespace Sys2Proof.Machine

/-- A result added last whose status is below 0x80 is no `ERR_*` frame added last. -/
theorem append_result_ne_of_lt {before results : List Bytes} {status st : Byte} {payload : Bytes}
    (hlow : status.toNat < 0x80) (hst : 0x80 ≤ st.toNat) : before ++ [status :: payload] ≠ results ++ [[st]] := by
  intro hlast
  obtain ⟨rfl, -⟩ : status = st ∧ payload = [] := by simpa using (List.append_inj' hlast rfl).2
  omega

end Sys2Proof.Machine

namespace Sys2Proof

open Machine

/-- Settles O54: a command that only answers changes nothing else; any other answers last with `OK` or `NONE`, or, when a receive
pends, not at all. -/
theorem errorStatusLeavesStateUnchanged : Obligations.ErrorStatusLeavesStateUnchanged := by
  intro i s t st he hres hst
  rcases exec_cases i s with ⟨frame, hi⟩ | ⟨-, hi⟩ | ⟨idx, v, r, -, -, -, -, hi⟩ | ⟨crc, lrc, hi⟩ | ⟨n, hi⟩ |
    ⟨n, m, rem, ms, -, hi⟩ | ⟨-, -, -, hi⟩ | ⟨-, -, hi⟩ | ⟨str, -, -, hi⟩ | ⟨v, c, q, -, -, -, hi⟩ |
    ⟨v, -, -, -, -, -, hi⟩ | ⟨-, hi⟩ <;> cases hi.symm.trans he
  · have hframe : frame = [st] := by simpa using hres
    rw [hframe]
  -- A receive that pends adds no result.
  on_goal 10 => simp at hres
  all_goals exact absurd hres (append_result_ne_of_lt (by decide) hst)

end Sys2Proof
end

section
/-! The hex digits (30_encoding.md R91, R92). -/

namespace Sys2Proof.Machine

/-- `D(v)` as a number (R91). -/
theorem hexDigit_toNat (v : BitVec 4) :
    (hexDigit v).toNat = if v.toNat ≤ 9 then 0x30 + v.toNat else 0x41 + (v.toNat - 10) := by
  have hv := v.isLt
  unfold hexDigit
  split
  · simp
    omega
  · simp
    omega

/-- `unhex(c)` as a number, in the three ranges of digits (R92). -/
theorem unhex_map_toNat (c : Byte) : (unhex c).map BitVec.toNat =
    if 0x30 ≤ c.toNat ∧ c.toNat ≤ 0x39 then some (c.toNat - 0x30)
    else if 0x41 ≤ c.toNat ∧ c.toNat ≤ 0x46 then some (c.toNat - 0x41 + 10)
    else if 0x61 ≤ c.toNat ∧ c.toNat ≤ 0x66 then some (c.toNat - 0x61 + 10)
    else none := by
  unfold unhex
  split
  · simp
    omega
  · split
    · simp
      omega
    · split
      · simp
        omega
      · rfl

/-- Two nibbles side by side as a number. -/
theorem nibbles_append_eq_ofNat (v0 v1 : BitVec 4) : v0 ++ v1 = BitVec.ofNat 8 (16 * v0.toNat + v1.toNat) := by
  apply BitVec.eq_of_toNat_eq
  rw [append_toNat, BitVec.toNat_ofNat]
  omega

/-- Two digits decode to one byte, before what the rest decodes to (R92). -/
theorem unhexPairs_cons_cons {c0 c1 : Byte} {v0 v1 : BitVec 4} (rest : Bytes) (h0 : unhex c0 = some v0)
    (h1 : unhex c1 = some v1) : unhexPairs (c0 :: c1 :: rest) = (unhexPairs rest).map fun bs => (v0 ++ v1) :: bs := by
  simp only [unhexPairs, h0, h1]
  cases unhexPairs rest with
  | none => rfl
  | some bs => rfl

end Sys2Proof.Machine

namespace Sys2Proof

open Machine

/-- Settles O21: each digit by its range, each pair as two nibbles side by side. -/
theorem hexDigitRules : Obligations.HexDigitRules := by
  refine ⟨hexDigit_toNat, fun _ => rfl, unhex_map_toNat, rfl, fun c0 c1 v0 v1 rest h0 h1 => ?_, fun _ _ => unhexPairs_some⟩
  rw [unhexPairs_cons_cons rest h0 h1, nibbles_append_eq_ofNat]

end Sys2Proof
end

section
/-! The CRC step in its table-driven form (40_checksum.md R122), and the residue of a string with its own CRC bytes (R123). -/

namespace Sys2Proof.Machine

/-! ### The table-driven form -/

/-- `TAB[i]` is what eight rounds make of the byte alone. -/
theorem crcStep_zero_left (i : Byte) : crcStep 0x0000#16 i = crcShifts 8 (i.setWidth 16) := by
  rw [crcStep, BitVec.zero_xor]

/-- The table is linear. -/
theorem crcStep_zero_xor (i j : Byte) :
    crcStep 0x0000#16 (i ^^^ j) = crcStep 0x0000#16 i ^^^ crcStep 0x0000#16 j := by
  simp only [crcStep_zero_left, BitVec.setWidth_xor, crcShifts_xor]

/-- A u16 shifted right by a byte is its high byte. -/
theorem setWidth_setWidth_ushiftRight (c : U16) : ((c >>> 8).setWidth 8).setWidth 16 = c >>> 8 := by
  apply BitVec.eq_of_toNat_eq
  have := c.isLt
  simp only [BitVec.toNat_setWidth, BitVec.toNat_ushiftRight, Nat.shiftRight_eq_div_pow]
  omega

/-- Eight rounds move the high byte down and look the low byte up. -/
theorem crcShifts_eight (c : U16) :
    crcShifts 8 c = (c >>> 8) ^^^ crcStep 0x0000#16 (c.extractLsb' 0 8) := by
  conv_lhs => rw [u16_split c, crcShifts_xor, crcShifts_high, setWidth_setWidth_ushiftRight]
  rw [crcStep_zero_left]

/-- A byte has no high byte. -/
theorem setWidth_ushiftRight_eight (b : Byte) : b.setWidth 16 >>> 8 = 0#16 := by
  apply BitVec.eq_of_toNat_eq
  have := b.isLt
  simp only [BitVec.toNat_setWidth, BitVec.toNat_ushiftRight, Nat.shiftRight_eq_div_pow, BitVec.toNat_zero]
  omega

theorem crcStep_eq_table (c : U16) (b : Byte) :
    crcStep c b = (c >>> 8) ^^^ crcStep 0x0000#16 ((c ^^^ b.setWidth 16).extractLsb' 0 8) := by
  rw [crcStep, crcShifts_eight, BitVec.ushiftRight_xor_distrib, setWidth_ushiftRight_eight, BitVec.xor_zero]

/-! ### The residue -/

/-- The two bytes of a u16 field do not overlap. -/
theorem u16OfLe_eq_xor (x y : Byte) : u16OfLe x y = x.setWidth 16 ^^^ (y.setWidth 16 <<< 8) := by
  apply BitVec.eq_of_getLsbD_eq
  intro i hi
  by_cases h : i < 8
  · simp [u16OfLe, h]
  · simp [u16OfLe, h, hi, BitVec.getLsbD_of_ge x i (Nat.not_lt.mp h)]

theorem eq_u16OfLe_iff (c : U16) (x y : Byte) :
    c = u16OfLe x y ↔ x = c.extractLsb' 0 8 ∧ y = c.extractLsb' 8 8 := by
  constructor
  · rintro rfl
    simpa [le16, eq_comm] using le16_u16OfLe x y
  · rintro ⟨rfl, rfl⟩
    exact (u16OfLe_le16 c).symm

/-- A step gives 0 exactly when the accumulator is the byte. -/
theorem crcStep_eq_zero_iff (c : U16) (b : Byte) : crcStep c b = 0#16 ↔ c = b.setWidth 16 := by
  have hzero : crcShifts 8 0#16 = 0#16 := rfl
  constructor
  · intro h
    exact BitVec.xor_eq_zero_iff.mp (crcShifts_inj 8 (h.trans hzero.symm))
  · rintro rfl
    rw [crcStep, BitVec.xor_self, hzero]

/-- A step leaves a single byte exactly when that byte was the high one and the byte put in cancels the low one. -/
theorem crcStep_eq_setWidth_iff (c : U16) (x y : Byte) : crcStep c x = y.setWidth 16 ↔ c = u16OfLe x y :=
  calc crcStep c x = y.setWidth 16
    _ ↔ crcShifts 8 (c ^^^ x.setWidth 16) = crcShifts 8 (y.setWidth 16 <<< 8) := by rw [crcStep, crcShifts_high]
    _ ↔ c ^^^ x.setWidth 16 = y.setWidth 16 <<< 8 := ⟨crcShifts_inj 8, congrArg (crcShifts 8)⟩
    _ ↔ c = x.setWidth 16 ^^^ (y.setWidth 16 <<< 8) := by
      rw [BitVec.xor_comm c, ← BitVec.xor_right_inj (x.setWidth 16), ← BitVec.xor_assoc, BitVec.xor_self, BitVec.zero_xor]
    _ ↔ c = u16OfLe x y := by rw [u16OfLe_eq_xor]

/-- Two steps give 0 exactly when their bytes are the accumulator's own, the low one first. -/
theorem crcStep_crcStep_eq_zero_iff (c : U16) (x y : Byte) :
    crcStep (crcStep c x) y = 0#16 ↔ x = c.extractLsb' 0 8 ∧ y = c.extractLsb' 8 8 := by
  rw [crcStep_eq_zero_iff, crcStep_eq_setWidth_iff, eq_u16OfLe_iff]

/-- The CRC loop goes on from the CRC of what came before. -/
theorem crc16_append (s t : Bytes) : crc16 (s ++ t) = crcFrom (crc16 s) t := crcFrom_append _ s t

end Sys2Proof.Machine

namespace Sys2Proof

open Machine

/-- Settles O17: the eight rounds are linear, and on the high byte they are a shift; so only the low byte needs the table. -/
theorem crcStepIsTableDriven : Obligations.CrcStepIsTableDriven := by
  refine ⟨fun c b => ?_, crcStep_zero_xor, rfl, rfl, rfl, rfl, rfl, rfl, rfl, rfl⟩
  rw [BitVec.ofNat_toNat, crcStep_eq_table]

/-- Settles O18: the rounds are injective, so the last two bytes reach 0 in one way only. -/
theorem crcResidueIsZero : Obligations.CrcResidueIsZero := by
  intro str x y
  rw [crc16_append]
  exact crcStep_crcStep_eq_zero_iff (crc16 str) x y

end Sys2Proof
end

section
/-! The LRC and the CRC step in terms of numbers (40_checksum.md R120, R124, R125), and the checksum commands (R126 to R133). -/

namespace Sys2Proof.Machine

/-! ### The LRC -/

/-- `(256 - v) mod 256`, as a byte. -/
theorem lrcOfSum_eq_ofNat (v : Byte) : lrcOfSum v = BitVec.ofNat 8 (256 - v.toNat) :=
  BitVec.eq_of_toNat_eq ((lrcOfSum_toNat v).trans (BitVec.toNat_ofNat _ 8).symm)

theorem lrc_eq_ofNat (str : Bytes) : lrc str = BitVec.ofNat 8 (256 - (str.map BitVec.toNat).sum % 256) := by
  rw [lrc, lrcOfSum_eq_ofNat, byteSum_toNat]

/-- One more byte in the sum, modulo 256. -/
theorem byteSum_append_singleton (str : Bytes) (b : Byte) : byteSum (str ++ [b]) = byteSum str + b := by
  simp [byteSum]

/-- The sum of a string as a byte is 0 exactly when it is 0 modulo 256 as a number. -/
theorem byteSum_eq_zero_iff (str : Bytes) : byteSum str = 0#8 ↔ (str.map BitVec.toNat).sum % 256 = 0 := by
  rw [← byteSum_toNat, ← BitVec.toNat_inj, BitVec.toNat_zero]

/-! ### The CRC step -/

/-- The rounds of the CRC step, each with the bit shifted out read as a remainder (R120). -/
theorem crcStep_eq_repeat (c : U16) (b : Byte) : crcStep c b =
    Nat.repeat (fun x : U16 => if x.toNat % 2 = 1 then (x >>> 1) ^^^ 0xA001#16 else x >>> 1) 8 (c ^^^ b.setWidth 16) := by
  rw [crcStep, crcShifts_eq_repeat, funext crcShift_eq_ite_mod]

/-! ### CRC_COMPUTE and LRC_COMPUTE -/

theorem decode_crcCompute {str : Bytes} (h : str.length < 65536) : decode (0x13#8 :: strBytes str) = .ok (.crcCompute str) := by
  rw [← lenPrefixed_eq]
  exact Laws.RoundTrip.crcCompute str (decide_eq_true h)

theorem decode_lrcCompute {str : Bytes} (h : str.length < 65536) : decode (0x1B#8 :: strBytes str) = .ok (.lrcCompute str) := by
  rw [← lenPrefixed_eq]
  exact Laws.RoundTrip.lrcCompute str (decide_eq_true h)

section

variable {s : State} {str : Bytes}

theorem exec_crcCompute_of_le (h : str.length ≤ s.par.operMax) :
    exec (.crcCompute str) s = .next (s.answered (okU16 (crc16 str))) := by
  simp only [exec, execCrcCompute, withOperand_of_le _ h, ret_eq, resultFrame_ok_u16]

theorem exec_lrcCompute_of_le (h : str.length ≤ s.par.operMax) :
    exec (.lrcCompute str) s = .next (s.answered [0x00#8, lrc str]) := by
  simp only [exec, execLrcCompute, withOperand_of_le _ h, ret_eq, resultFrame_ok_u8]

theorem exec_crcCompute_of_lt (h : s.par.operMax < str.length) :
    exec (.crcCompute str) s = .next (s.answered [0x82#8]) := withOperand_of_lt _ h

theorem exec_lrcCompute_of_lt (h : s.par.operMax < str.length) :
    exec (.lrcCompute str) s = .next (s.answered [0x82#8]) := withOperand_of_lt _ h

end

end Sys2Proof.Machine

namespace Sys2Proof

open Machine

/-- Settles O19: the byte sum with the last byte is 0 exactly when that byte is the negation of the sum before it. -/
theorem lrcCheckSumsToZero : Obligations.LrcCheckSumsToZero := by
  intro str l
  rw [← byteSum_eq_zero_iff, byteSum_append_singleton, lrc, lrcOfSum, eq_sub_iff_add_eq']

/-- Settles O14: the decoder's round trips for the three frames, then the three next states. -/
theorem crcAccumulatorCommands : Obligations.CrcAccumulatorCommands :=
  ⟨Laws.RoundTrip.crcInit rfl, fun b => Laws.RoundTrip.crcUpdate b rfl, Laws.RoundTrip.crcRead rfl,
    fun s => ⟨exec_crcInit s, fun b => exec_crcUpdate b s, exec_crcRead s⟩⟩

/-- Settles O15: as for the CRC, with the sum and its negation read as numbers. -/
theorem lrcAccumulatorCommands : Obligations.LrcAccumulatorCommands := by
  refine ⟨Laws.RoundTrip.lrcInit rfl, fun b => Laws.RoundTrip.lrcUpdate b rfl, Laws.RoundTrip.lrcRead rfl,
    fun s => ⟨exec_lrcInit s, fun b => ?update, ?read⟩⟩
  case update => rw [exec_lrcUpdate, BitVec.add_def]
  case read => rw [exec_lrcRead, lrcOfSum_eq_ofNat]

/-- Settles O16: the frames decode, the functions agree with their definitions as numbers, and the operand's length decides
between the checksum and `ERR_LEN`. -/
theorem checksumComputeCommands : Obligations.ChecksumComputeCommands := by
  refine ⟨fun str h => ⟨decode_crcCompute h, decode_lrcCompute h⟩, fun c b => ?rounds, rfl,
    fun str b => crc16_append str [b], lrc_eq_ofNat, fun s str h => ⟨exec_crcCompute_of_le h, exec_lrcCompute_of_le h⟩,
    fun s str h => ⟨exec_crcCompute_of_lt h, exec_lrcCompute_of_lt h⟩⟩
  case rounds => rw [BitVec.ofNat_toNat, crcStep_eq_repeat]

end Sys2Proof
end

section
/-! Exactly which strings the ASCII parser takes (41_frame_codec.md R142), the round trip (R146), and the ASCII commands (R140, R144). -/

namespace Sys2Proof.Machine

/-! ### The ASCII frame -/

/-- Two digits for each byte (30_encoding.md R91). -/
@[simp] theorem flatMap_hex2_length (s : Bytes) : (s.flatMap hex2).length = 2 * s.length := by
  simp [List.length_flatMap, hex2, Nat.mul_comm]

theorem asciiFrame_eq (a f : Byte) (d : Bytes) :
    asciiFrame a f d = [chColon] ++ hex2 a ++ hex2 f ++ d.flatMap hex2 ++ hex2 (lrc ([a, f] ++ d)) ++ [chCr, chLf] := by
  simp [asciiFrame]

@[simp] theorem asciiFrame_length (a f : Byte) (d : Bytes) : (asciiFrame a f d).length = 2 * d.length + 9 := by
  simp only [asciiFrame, List.length_cons, List.length_append, flatMap_hex2_length, List.length_nil]
  omega

/-! ### The ASCII parser -/

/-- What the parser takes ends with a last colon, the hex part and CR LF. -/
theorem exists_hexPart_of_asciiParse {t : Bytes} {m : Triple} (h : asciiParse t = some m) :
    ∃ before digits, t = before ++ [chColon] ++ digits ++ [chCr, chLf] ∧ chColon ∉ digits := by
  unfold asciiParse at h
  split at h
  · cases h
  · next hend =>
    have hcrlf : t.drop (t.length - 2) = [chCr, chLf] := not_not.mp fun hne => hend (.inr hne)
    split at h
    · cases h
    · next digits hlast =>
      obtain ⟨hcolon, before, htake⟩ := afterLastColon_eq_some.mp hlast
      refine ⟨before, digits, ?_, hcolon⟩
      rw [← List.take_append_drop (t.length - 2) t, htake, hcrlf]
      simp

/-- On such a string the digit pairs of the hex part decide: a, f, d and their LRC, or no message. -/
theorem asciiParse_eq_some_iff_unhexPairs {digits : Bytes} (before : Bytes) (hcolon : chColon ∉ digits) (a f : Byte)
    (d : Bytes) : asciiParse (before ++ [chColon] ++ digits ++ [chCr, chLf]) = some (a, f, d) ↔
      unhexPairs digits = some ([a, f] ++ d ++ [lrc ([a, f] ++ d)]) := by
  have hlast : afterLastColon (before ++ [chColon] ++ digits) = some digits := by
    simpa using afterLastColon_append (before := before) hcolon
  generalize before ++ [chColon] ++ digits = body at hlast
  simp only [asciiParse, List.length_append, List.length_cons, List.length_nil, Nat.zero_add, Nat.reduceAdd,
    Nat.add_sub_cancel, List.drop_left, List.take_left, hlast]
  rw [if_neg (by simp)]
  constructor
  · intro h
    split at h
    · cases h
    · split at h
      · cases h
      · next bytes hbytes =>
        split at h
        · cases h
        · next a' f' d' l hsplit =>
          split at h
          · next hl =>
            cases h
            rw [hbytes, splitBody_eq_some.mp hsplit, hl]
            rfl
          · cases h
  · intro h
    have hlen := (unhexPairs_some h).1
    have hsplit : splitBody ([a, f] ++ d ++ [lrc ([a, f] ++ d)]) = some ((a, f, d), lrc ([a, f] ++ d)) :=
      splitBody_eq_some.mpr rfl
    simp only [List.length_append, List.length_cons, List.length_nil] at hlen
    rw [if_neg (by omega), h]
    simp only [hsplit]
    exact if_pos rfl

/-- A message needs a hex part of at least three digit pairs and nothing else. -/
theorem asciiParse_eq_none_of_hexPart {digits : Bytes} (before : Bytes) (hcolon : chColon ∉ digits)
    (hbad : digits.length < 6 ∨ digits.length % 2 = 1 ∨ ∃ c ∈ digits, unhex c = none) :
    asciiParse (before ++ [chColon] ++ digits ++ [chCr, chLf]) = none := by
  by_contra hne
  obtain ⟨⟨a, f, d⟩, hm⟩ := Option.ne_none_iff_exists'.mp hne
  obtain ⟨hlen, hdigits⟩ := unhexPairs_some ((asciiParse_eq_some_iff_unhexPairs before hcolon a f d).mp hm)
  simp only [List.length_append, List.length_cons, List.length_nil] at hlen
  obtain hshort | hodd | ⟨c, hc, hnone⟩ := hbad
  · omega
  · omega
  · exact hdigits c hc hnone

/-- The parser reads back the encoder's frame (R146). -/
@[simp] theorem asciiParse_asciiFrame (a f : Byte) (d : Bytes) : asciiParse (asciiFrame a f d) = some (a, f, d) := by
  have hpairs := unhexPairs_flatMap_hex2 ([a, f] ++ d ++ [lrc ([a, f] ++ d)])
  have hcolon := chColon_notMem_of_unhex (unhexPairs_some hpairs).2
  exact (asciiParse_eq_some_iff_unhexPairs [] hcolon a f d).mpr hpairs

/-! ### ENC_ASCII and DEC_ASCII_FRAME -/

section

variable {s : State} {str d : Bytes}

theorem exec_encAscii_of_le (a f : Byte) (hd : d.length ≤ s.par.operMax) :
    exec (.encAscii a f d) s = .next (s.answered (okStr (asciiFrame a f d))) := by
  simp only [exec, execEncAscii, withOperand_of_le _ hd, ret_eq, resultFrame_ok_str]

theorem exec_decAsciiFrame_of_some {m : Triple} (hstr : str.length ≤ s.par.operMax) (hm : asciiParse str = some m) :
    exec (.decAsciiFrame str) s = .next (s.answered (0x00#8 :: messageBytes m s.blk.now)) := by
  simp only [exec, execDecAsciiFrame, withOperand_of_le _ hstr, hm, ret_eq, resultFrame_ok_msg]

theorem exec_decAsciiFrame_of_none (hstr : str.length ≤ s.par.operMax) (hm : asciiParse str = none) :
    exec (.decAsciiFrame str) s = .next (State.answered
      { s with blk := { s.blk with cntAsciiDrop := s.blk.cntAsciiDrop + 1#32 } } [0x01#8]) := by
  simp only [exec, execDecAsciiFrame, withOperand_of_le _ hstr, hm]
  rfl

end

end Sys2Proof.Machine

namespace Sys2Proof

open Machine

/-- Settles O28: the encoder's digits hold no colon and decode to the message and its LRC; the command parses the same frame. -/
theorem asciiRoundTrip : Obligations.AsciiRoundTrip := by
  refine ⟨asciiParse_asciiFrame, fun s a f d hd => exec_decAsciiFrame_of_some ?fits (asciiParse_asciiFrame a f d)⟩
  case fits => rwa [asciiFrame_length]

/-- Settles O24: the last colon and CR LF give the hex part, and its digit pairs the message. -/
theorem asciiParseAcceptsExactly : Obligations.AsciiParseAcceptsExactly := by
  refine ⟨fun t a f d => ⟨fun h => ?_, ?_⟩, fun before digits hcolon hbad => asciiParse_eq_none_of_hexPart before hcolon hbad⟩
  · obtain ⟨before, digits, rfl, hcolon⟩ := exists_hexPart_of_asciiParse h
    exact ⟨before, digits, rfl, hcolon, (asciiParse_eq_some_iff_unhexPairs before hcolon a f d).mp h⟩
  · rintro ⟨before, digits, rfl, hcolon, hpairs⟩
    exact (asciiParse_eq_some_iff_unhexPairs before hcolon a f d).mpr hpairs

/-- Settles O22: the frame decodes, the encoder's bytes stand in R85's order, and the operand's length decides between them and
`ERR_LEN`. -/
theorem encAsciiGivesAsciiFrame : Obligations.EncAsciiGivesAsciiFrame := by
  refine ⟨fun a f d h => ?decodes, fun a f d => ⟨asciiFrame_eq a f d, asciiFrame_length a f d⟩,
    fun s a f d h => exec_encAscii_of_le a f h, fun s a f d h => withOperand_of_lt _ h⟩
  case decodes =>
    rw [← lenPrefixed_eq]
    exact Laws.RoundTrip.encAscii a f d (decide_eq_true h)

/-- Settles O26: a string the parser takes gives its message, any other one drop, counted modulo 2^32. -/
theorem decAsciiFrameDecodesOneFrame : Obligations.DecAsciiFrameDecodesOneFrame := by
  refine ⟨fun str h => ?decodes, fun s str m h hm => exec_decAsciiFrame_of_some h hm, fun s str h hm => ?dropped,
    fun s str h => withOperand_of_lt _ h⟩
  case decodes =>
    rw [← lenPrefixed_eq]
    exact Laws.RoundTrip.decAsciiFrame str (decide_eq_true h)
  case dropped => rw [exec_decAsciiFrame_of_none h hm, BitVec.add_def, BitVec.toNat_one (by decide)]

end Sys2Proof
end

section
/-! Exactly which buffers the RTU test takes (41_frame_codec.md R143, R147), the errors it detects (R148), and the RTU commands
(R141, R145). -/

namespace Sys2Proof.Machine

/-! ### The RTU test -/

/-- On a buffer cut into its fields under a hypothesis, the test compares the two check bytes with the CRC. -/
theorem rtuCandidate_fields (a f : Byte) {d check : Bytes} (rest : Bytes) (hcheck : check.length = 2) :
    rtuCandidate ([a, f] ++ d ++ check ++ rest) d.length =
      if check = le16 (crc16 (a :: f :: d)) then (some (a, f, d), rest) else (none, [a, f] ++ d ++ check ++ rest) := by
  have hlong : ¬ ([a, f] ++ d ++ check ++ rest).length < d.length + 4 := by
    simp [hcheck]
    omega
  have hrest : (check ++ rest).drop 2 = rest := List.drop_left' hcheck
  have hfield : (check ++ rest).take 2 = check := List.take_left' hcheck
  unfold rtuCandidate
  rw [if_neg hlong]
  simp [Nat.add_comm 2, hfield, hrest]

/-- A buffer of at least k + 4 bytes has these fields. -/
theorem exists_rtuFields_of_le {str : Bytes} {k : Nat} (h : k + 4 ≤ str.length) :
    ∃ a f d check rest, d.length = k ∧ check.length = 2 ∧ str = [a, f] ++ d ++ check ++ rest := by
  obtain ⟨a, f, tail, rfl⟩ : ∃ a f tail, str = a :: f :: tail := by
    rcases str with _ | ⟨a, _ | ⟨f, tail⟩⟩
    · simp at h
    · simp at h
    · exact ⟨a, f, tail, rfl⟩
  simp only [List.length_cons] at h
  refine ⟨a, f, tail.take k, (tail.drop k).take 2, (tail.drop k).drop 2, ?_, ?_, ?_⟩
  · simp
    omega
  · simp
    omega
  · simp

/-- The test takes exactly the buffers that begin with the message's RTU frame. -/
theorem rtuCandidate_eq_some_iff {str rest : Bytes} {k : Nat} {a f : Byte} {d : Bytes} :
    rtuCandidate str k = (some (a, f, d), rest) ↔ d.length = k ∧ str = rtuFrame a f d ++ rest := by
  constructor
  · intro h
    obtain ⟨a', f', d', check, rest', rfl, hcheck, rfl⟩ := exists_rtuFields_of_le (rtuCandidate_some_length h).2
    rw [rtuCandidate_fields a' f' rest' hcheck] at h
    split at h
    · next hcrc =>
      cases h
      exact ⟨rfl, by rw [hcrc]; rfl⟩
    · cases h
  · rintro ⟨rfl, rfl⟩
    exact (rtuCandidate_fields a f rest (le16_length _)).trans (if_pos rfl)

/-! ### One-byte errors -/

/-- An RTU frame, its own CRC bytes included, has the CRC 0 (40_checksum.md R123). -/
theorem crc16_rtuFrame (a f : Byte) (d : Bytes) : crc16 (rtuFrame a f d) = 0#16 :=
  (crcResidueIsZero _ _ _).mpr ⟨rfl, rfl⟩

/-- One changed byte changes the CRC: its step is injective in the byte, and the steps after it in the accumulator. -/
theorem crc16_modify_xor_ne {str : Bytes} {p : Nat} {mask : Byte} (hp : p < str.length) (hmask : mask ≠ 0#8) :
    crc16 (str.modify p (· ^^^ mask)) ≠ crc16 str := by
  intro h
  rw [List.modify_eq_take_cons_drop hp, crc16_append] at h
  conv_rhs at h => rw [← List.take_append_drop p str, List.drop_eq_getElem_cons hp, crc16_append]
  have hbyte : str[p] ^^^ mask = str[p] := crcStep_inj_right (crcFrom_inj _ h)
  exact hmask (by simpa using hbyte)

/-! ### DEC_RTU_CAND -/

section

variable {s : State} {k : Byte} {str rest : Bytes} {m : Triple}

theorem exec_decRtuCand_of_some (hstr : str.length ≤ s.par.operMax) (hm : rtuCandidate str k.toNat = (some m, rest)) :
    exec (.decRtuCand k str) s =
      .next (s.answered ([0x00#8, 0x01#8] ++ messageBytes m s.blk.now ++ strBytes rest)) := by
  simp only [exec, execDecRtuCand, withOperand_of_le _ hstr, hm, ret_eq, resultFrame, Payload.bytes, msgBytes_ofTriple,
    lenPrefixed_eq]
  rfl

theorem exec_decRtuCand_of_none (hstr : str.length ≤ s.par.operMax) (hm : (rtuCandidate str k.toNat).1 = none) :
    exec (.decRtuCand k str) s = .next (s.answered ([0x01#8, 0x00#8] ++ strBytes str)) := by
  simp only [exec, execDecRtuCand, withOperand_of_le _ hstr, rtuCandidate_none hm, ret_eq, resultFrame, Payload.bytes,
    lenPrefixed_eq]
  rfl

end

end Sys2Proof.Machine

namespace Sys2Proof

open Machine

/-- Settles O25: a buffer long enough is cut into its fields, where only the check bytes decide. -/
theorem rtuCandidateAcceptsExactly : Obligations.RtuCandidateAcceptsExactly := by
  refine ⟨fun str rest k a f d => rtuCandidate_eq_some_iff, fun str rest k h => ?rest, fun str k h => rtuCandidate_short h⟩
  case rest =>
    have hsame : rtuCandidate str k = (none, str) := rtuCandidate_none (by rw [h])
    rw [h] at hsame
    exact congrArg Prod.snd hsame

/-- Settles O29: what the test takes is an RTU frame, of CRC 0; a frame with one byte changed has another CRC. -/
theorem rtuDetectsEveryOneByteError : Obligations.RtuDetectsEveryOneByteError := by
  intro a f d rest p mask hp hmask
  by_contra hne
  obtain ⟨⟨a', f', d'⟩, hm⟩ := Option.ne_none_iff_exists'.mp hne
  obtain ⟨hlen, hframe⟩ := rtuCandidate_eq_some_iff.mp (Prod.ext hm rfl)
  have hmodified : (rtuFrame a f d).modify p (· ^^^ mask) = rtuFrame a' f' d' := by
    refine (List.append_inj hframe ?_).1
    simp [hlen]
  apply crc16_modify_xor_ne hp hmask
  rw [hmodified, crc16_rtuFrame, crc16_rtuFrame]

/-- Settles O23: as for ENC_ASCII; the CRC's bytes are its own, low byte first. -/
theorem encRtuGivesRtuFrame : Obligations.EncRtuGivesRtuFrame := by
  refine ⟨fun a f d h => ?decodes, fun a f d => ⟨rfl, rtuFrame_length a f d⟩, fun s a f d h => exec_encRtu_of_le a f h,
    fun s a f d h => withOperand_of_lt _ h⟩
  case decodes =>
    rw [← lenPrefixed_eq]
    exact Laws.RoundTrip.encRtu a f d (decide_eq_true h)

/-- Settles O27: the test's answer gives the payload, and neither answer touches a counter. -/
theorem decRtuCandTestsOneLength : Obligations.DecRtuCandTestsOneLength := by
  refine ⟨fun k str h => ?decodes, fun s k str rest m h hm => exec_decRtuCand_of_some h hm,
    fun s k str h hm => exec_decRtuCand_of_none h hm, fun s k str h => withOperand_of_lt _ h⟩
  case decodes =>
    rw [← lenPrefixed_eq]
    exact Laws.RoundTrip.decRtuCand k str (decide_eq_true h)

end Sys2Proof
end

section
/-! The framer commands (42_byte_framer.md R174 to R178): what each answers in each state of the framer and the reader. -/

namespace Sys2Proof.Machine

variable {s : State}

/-- The byte that names a fault's cause in a result frame (10_state.md R36, 30_encoding.md R83). -/
def causeByte : FCode → Byte
  | .none => 0x00#8
  | .transport => 0x01#8
  | .backpressure => 0x02#8

/-- A `FAULT` result names its cause (30_encoding.md R83). -/
theorem resultFrame_fault_fcode (code : FCode) : resultFrame .fault (.fcode code) = [0x03#8, causeByte code] := by
  cases code <;> rfl

/-! ### FR_START -/

/-- `FR_START` needs all five registers (42_byte_framer.md R174). -/
theorem configIncomplete_iff (b : Block) : configIncomplete b = true ↔
    b.tInit = none ∨ b.tIb = none ∨ b.port = none ∨ b.baud = none ∨ b.duplex = none := by
  simp [configIncomplete, or_assoc]

/-- A framer that is idle or stopped neither runs nor is faulted: the run-state check of `FR_START` passes (R174). -/
theorem not_running_or_faulted (h : s.blk.fstate = .idle ∨ s.blk.fstate = .stopped) :
    ¬ (s.blk.fstate = .running ∨ s.blk.fstate = .faulted) := by
  rcases h with h | h <;> simp [h]

theorem exec_frStart_of_not_ready (h : s.blk.fstate = .running ∨ s.blk.fstate = .faulted) :
    exec .frStart s = .next (s.answered [0x84#8]) := by
  simp only [exec, execFrStart, if_pos h]
  rfl

theorem exec_frStart_of_incomplete (h : s.blk.fstate = .idle ∨ s.blk.fstate = .stopped)
    (hcfg : configIncomplete s.blk = true) : exec .frStart s = .next (s.answered [0x85#8]) := by
  simp only [exec, execFrStart, if_neg (not_running_or_faulted h), if_pos hcfg]
  rfl

theorem exec_frStart_of_complete (h : s.blk.fstate = .idle ∨ s.blk.fstate = .stopped)
    (hcfg : ¬ configIncomplete s.blk = true) : exec .frStart s =
      .next (State.answered { s with blk := { clearChunk s.blk with fstate := .running, rstate := .waitFirst } } okFrame) := by
  simp only [exec, execFrStart, if_neg (not_running_or_faulted h), if_neg hcfg]
  rfl

/-! ### FR_STOP -/

theorem exec_frStop_of_not_running (h : s.blk.fstate ≠ .running) : exec .frStop s = .next (s.answered okFrame) := by
  simp only [exec, execFrStop, if_neg h]
  rfl

/-- The pending receive's `STOPPED` comes before the command's own `OK` (R175). -/
theorem exec_frStop_of_running (h : s.blk.fstate = .running) : exec .frStop s = .next { s with
    blk := { clearChunk s.blk with fstate := .stopped, rstate := .off, recv := none },
    results := s.results ++ stoppedFrames s.blk ++ [okFrame] } := by
  simp only [exec, execFrStop, if_pos h, wakeReceiver_stopped]
  rfl

/-! ### FR_SEND -/

theorem exec_frSend_of_faulted {str : Bytes} (hstr : str.length ≤ s.par.operMax) (h : s.blk.fstate = .faulted) :
    exec (.frSend str) s = .next (s.answered [0x03#8, causeByte s.blk.fcode]) := by
  simp only [exec, execFrSend, withOperand_of_le _ hstr, h, ret_eq, resultFrame_fault_fcode]

theorem exec_frSend_of_off {str : Bytes} (hstr : str.length ≤ s.par.operMax)
    (h : s.blk.fstate = .idle ∨ s.blk.fstate = .stopped) : exec (.frSend str) s = .next (s.answered [0x84#8]) := by
  rcases h with h | h <;> simp only [exec, execFrSend, withOperand_of_le _ hstr, h] <;> rfl

/-! ### FR_RECV -/

section
variable {t : U32}

theorem exec_frRecv_of_pending {r : U32} (h : s.blk.recv = some r) : exec (.frRecv t) s = .next (s.answered [0x83#8]) := by
  simp only [exec, execFrRecv, h]
  rfl

/-- A queued chunk is delivered in every state, and leaves the queue (R177). -/
theorem exec_frRecv_of_queued {c : Bytes} {q : List Bytes} (hrecv : s.blk.recv = none) (hq : s.blk.q = c :: q) :
    exec (.frRecv t) s = .next (State.answered { s with blk := afterPop q s.blk } (okStr c)) := by
  simp only [exec, execFrRecv, hrecv, hq, ret_eq, resultFrame_ok_str]
  rfl

theorem exec_frRecv_of_faulted (hrecv : s.blk.recv = none) (hq : s.blk.q = []) (h : s.blk.fstate = .faulted) :
    exec (.frRecv t) s = .next (s.answered [0x03#8, causeByte s.blk.fcode]) := by
  simp only [exec, execFrRecv, hrecv, hq, h, ret_eq, resultFrame_fault_fcode]

theorem exec_frRecv_of_stopped (hrecv : s.blk.recv = none) (hq : s.blk.q = []) (h : s.blk.fstate = .stopped) :
    exec (.frRecv t) s = .next (s.answered [0x02#8]) := by
  simp only [exec, execFrRecv, hrecv, hq, h]
  rfl

theorem exec_frRecv_of_idle (hrecv : s.blk.recv = none) (hq : s.blk.q = []) (h : s.blk.fstate = .idle) :
    exec (.frRecv t) s = .next (s.answered [0x84#8]) := by
  simp only [exec, execFrRecv, hrecv, hq, h]
  rfl

/-- With nothing queued, a running framer answers a timeout of 0 at once and lets any other pend (R177). -/
theorem exec_frRecv_of_running (hrecv : s.blk.recv = none) (hq : s.blk.q = []) (h : s.blk.fstate = .running) :
    exec (.frRecv t) s = .next (if t = 0#32 then s.answered [0x01#8] else { s with blk := { s.blk with recv := some t } }) := by
  simp only [exec, execFrRecv, hrecv, hq, h]
  split <;> rfl

end

/-! ### FR_FLUSH -/

/-- A flush leaves a reader alone that has gathered nothing (R178). -/
theorem afterFlush_eq_self {r : RState} (h : r = .off ∨ r = .waitFirst) : afterFlush r = r := by
  rcases h with rfl | rfl <;> rfl

end Sys2Proof.Machine

namespace Sys2Proof

open Machine

/-- Settles O40: the run-state check and the configuration check split the states as the three cases do. -/
theorem frStartBeginsReadCalls : Obligations.FrStartBeginsReadCalls := by
  refine ⟨Laws.RoundTrip.frStart rfl, fun s h => exec_frStart_of_not_ready h,
    fun s h hcfg => exec_frStart_of_incomplete h ((configIncomplete_iff s.blk).mpr hcfg),
    fun s h htInit htIb hport hbaud hduplex => exec_frStart_of_complete h ?complete⟩
  case complete => simp [configIncomplete_iff, htInit, htIb, hport, hbaud, hduplex]

/-- Settles O41: only a running framer is stopped, and its pending receive is woken first. -/
theorem frStopStopsAndWakesReceiver : Obligations.FrStopStopsAndWakesReceiver :=
  ⟨Laws.RoundTrip.frStop rfl, fun _ h => exec_frStop_of_not_running h, fun _ h => exec_frStop_of_running h⟩

/-- Settles O42: the length check, then one answer for each state of the framer. -/
theorem frSendEmitsOperand : Obligations.FrSendEmitsOperand := by
  refine ⟨fun str h => ?decodes, fun s str h => withOperand_of_lt _ h, fun s str h hrun => exec_frSend_of_running h hrun,
    fun s str h hfault => exec_frSend_of_faulted h hfault, fun s str h hoff => exec_frSend_of_off h hoff⟩
  case decodes =>
    rw [← lenPrefixed_eq]
    exact Laws.RoundTrip.frSend str (decide_eq_true h)

/-- Settles O43: the checks in their order; the popped queue takes a held chunk when there is one. -/
theorem frRecvDeliversOrPends : Obligations.FrRecvDeliversOrPends := by
  refine ⟨fun t => ?decodes, fun s t h => ?pending, fun s t c q hrecv hq hr => ?queued, fun s t c q hrecv hq hr => ?held,
    fun s t hrecv hq => ⟨exec_frRecv_of_faulted hrecv hq, exec_frRecv_of_stopped hrecv hq, exec_frRecv_of_idle hrecv hq,
      fun hrun ht => ?atOnce, fun hrun ht => ?pends⟩⟩
  case decodes =>
    rw [← le32_eq]
    exact Laws.RoundTrip.frRecv t rfl
  case pending =>
    obtain ⟨r, hr⟩ := Option.ne_none_iff_exists'.mp h
    exact exec_frRecv_of_pending hr
  case queued => rw [exec_frRecv_of_queued hrecv hq, afterPop, if_neg hr]
  case held => rw [exec_frRecv_of_queued hrecv hq, afterPop, if_pos hr]
  case atOnce => rw [exec_frRecv_of_running hrecv hq hrun, if_pos ht]
  case pends => rw [exec_frRecv_of_running hrecv hq hrun, if_neg ht]

/-- Settles O44: the flush empties the queue and the chunk in every state, and gives a reader that is on a fresh read call. -/
theorem frFlushForgetsGatheredBytes : Obligations.FrFlushForgetsGatheredBytes := by
  refine ⟨Laws.RoundTrip.frFlush rfl, fun s h => ?on, fun s h => ?idle, fun s t he => ?gathered⟩
  case on =>
    have hne : s.blk.rstate ≠ .off := by rcases h with h | h <;> simp [h]
    rw [exec_frFlush, afterFlush_of_ne_off hne]
    rfl
  case idle =>
    rw [exec_frFlush, afterFlush_eq_self h]
    rfl
  case gathered =>
    cases (exec_frFlush s).symm.trans he
    rfl

end Sys2Proof
end

section
/-! The events of the byte framer (42_byte_framer.md R161 to R173): what each does in each state of the reader. -/

namespace Sys2Proof.Machine

variable {s : State}

/-! ### RxByte -/

section
variable {x : Byte} {line : Bytes}

/-- A reader that is off discards the byte (42_byte_framer.md R163). -/
theorem rxTurn_of_off (hline : s.rxLine = x :: line) (h : s.blk.rstate = .off) : rxTurn s = { s with rxLine := line } := by
  simp [rxTurn, hline, rxReady, rxByte, h]

/-- A held reader leaves the byte on the line (R164). -/
theorem rxTurn_of_held (hline : s.rxLine = x :: line) (h : s.blk.rstate = .held) : rxTurn s = s := by
  simp [rxTurn, hline, rxReady, h]

/-- The first byte of a chunk (R161). -/
theorem rxTurn_of_waitFirst (hline : s.rxLine = x :: line) (h : s.blk.rstate = .waitFirst) : rxTurn s = completeIfFull
    { s with rxLine := line, blk := { s.blk with chunk := [x], icnt := 0#32, ibcnt := 0#32, rstate := .accum } } := by
  simp [rxTurn, hline, rxReady, rxByte, h, State.setBlk]

/-- A further byte of the chunk (R162). -/
theorem rxTurn_of_accum (hline : s.rxLine = x :: line) (h : s.blk.rstate = .accum) : rxTurn s = completeIfFull
    { s with rxLine := line, blk := { s.blk with chunk := s.blk.chunk ++ [x], ibcnt := 0#32 } } := by
  simp [rxTurn, hline, rxReady, rxByte, h, State.setBlk]

end

/-! ### The completed chunk -/

/-- A waiting receive gets the chunk (R168). -/
theorem complete_of_pending {r : U32} (h : s.blk.recv = some r) : complete s = State.answered
    { s with blk := { clearChunk s.blk with recv := none, rstate := .waitFirst } } (okStr s.blk.chunk) := by
  simp only [complete, clearChunk_recv, h, recvDone_eq, resultFrame_ok_str]
  rfl

/-- With room in the queue the chunk enters it at the tail (R168). -/
theorem complete_of_room (hrecv : s.blk.recv = none) (hroom : s.blk.q.length < s.par.qdepth) : complete s =
    { s with blk := { clearChunk s.blk with q := s.blk.q ++ [s.blk.chunk], rstate := .waitFirst } } := by
  simp only [complete, clearChunk_recv, clearChunk_q, hrecv, if_pos hroom]
  rfl

/-- On a full queue the policy decides (R168, R169). -/
theorem complete_of_full (hrecv : s.blk.recv = none) (hfull : s.par.qdepth ≤ s.blk.q.length) :
    complete s = queueFull s.blk.chunk (s.setBlk (clearChunk s.blk)) := by
  simp only [complete, clearChunk_recv, clearChunk_q, hrecv, if_neg (Nat.not_lt.mpr hfull)]

/-! ### Faults -/

/-- Fault entry with no receive pending (R173). -/
theorem enterFault_of_none (code : FCode) (h : s.blk.recv = none) : enterFault code s =
    { s with blk := { clearChunk s.blk with fstate := .faulted, fcode := code, rstate := .off } } :=
  wakeReceiver_of_none h

/-- Fault entry ends a pending receive with `FAULT` and the cause (R173). -/
theorem enterFault_of_pending (code : FCode) {r : U32} (h : s.blk.recv = some r) : enterFault code s = State.answered
    { s with blk := { clearChunk s.blk with fstate := .faulted, fcode := code, rstate := .off, recv := none } }
    [0x03#8, causeByte code] := by
  rw [← resultFrame_fault_fcode]
  exact wakeReceiver_of_some h

/-! ### Tick -/

section
variable {t : U32}

/-- Only a reader waiting for a first byte or for the next one counts ticks (R166). -/
theorem readerTick_of_idle (h : s.blk.rstate = .off ∨ s.blk.rstate = .held) : readerTick s = s := by
  rcases h with h | h <;> simp only [readerTick, h]

/-- The ticks before a chunk's first byte are counted, and the initial timeout starts the count again (R166). -/
theorem readerTick_of_waitFirst (h : s.blk.rstate = .waitFirst) : readerTick s = s.setBlk
    { s.blk with icnt := if timeoutReached (s.blk.icnt + 1#32) s.blk.tInit then 0#32 else s.blk.icnt + 1#32 } := by
  simp only [readerTick, h]

/-- The ticks since a chunk's last byte are counted, and the inter-byte timeout completes the chunk (R167). -/
theorem readerTick_of_accum (h : s.blk.rstate = .accum) : readerTick s =
    if timeoutReached (s.blk.ibcnt + 1#32) s.blk.tIb then complete (s.setBlk { s.blk with ibcnt := s.blk.ibcnt + 1#32 })
    else s.setBlk { s.blk with ibcnt := s.blk.ibcnt + 1#32 } := by
  simp only [readerTick, h]

/-- A count has reached a set timeout when it is not below it. -/
theorem timeoutReached_iff {n : U32} {timeout : Option U32} (ht : timeout = some t) :
    timeoutReached n timeout = true ↔ t.toNat ≤ n.toNat := by
  simp [ht]

/-- The receive's last tick ends it with `NONE` (R171). -/
theorem recvTick_of_last (h : s.blk.recv = some 1#32) :
    recvTick s = State.answered { s with blk := { s.blk with recv := none } } [0x01#8] := by
  simp only [recvTick, h, if_true, recvDone_eq]
  rfl

/-- Any other tick of the receive counts it down (R171). -/
theorem recvTick_of_ne_one {r : U32} (h : s.blk.recv = some r) (hr : r ≠ 1#32) :
    recvTick s = s.setBlk { s.blk with recv := some (r - 1#32) } := by
  simp only [recvTick, h, if_neg hr]

/-- A chunk that reaches its inter-byte timeout while a receive pends is that receive's result (R167, R168). -/
theorem readerTick_of_timeout_pending {r : U32} (h : s.blk.rstate = .accum) (ht : s.blk.tIb = some t)
    (hreached : t.toNat ≤ (s.blk.ibcnt + 1#32).toNat) (hrecv : s.blk.recv = some r) : readerTick s = State.answered
      { s with blk := { clearChunk s.blk with recv := none, rstate := .waitFirst } } (okStr s.blk.chunk) :=
  (readerTick_of_accum h).trans ((if_pos ((timeoutReached_iff ht).mpr hreached)).trans (complete_of_pending hrecv))

/-- So it is on the receive's last tick too: none pends when the receive's own tick comes (R165). -/
theorem tick_of_timeout_pending {r : U32} (h : s.blk.rstate = .accum) (ht : s.blk.tIb = some t)
    (hreached : t.toNat ≤ (s.blk.ibcnt + 1#32).toNat) (hrecv : s.blk.recv = some r) : tick s = State.answered
      { s with blk := { clearChunk s.blk with now := s.blk.now + 1#32, recv := none, rstate := .waitFirst } }
      (okStr s.blk.chunk) := by
  have hreader := readerTick_of_timeout_pending (s := s.setBlk { s.blk with now := s.blk.now + 1#32 }) h ht hreached hrecv
  rw [tick, hreader, recvTick_of_none rfl]
  rfl

end

end Sys2Proof.Machine

namespace Sys2Proof

open Machine

/-- Settles O46: one case for each state of the reader, and the chunk completes on the byte that fills it. -/
theorem rxByteGathersOrDiscardsOrWaits : Obligations.RxByteGathersOrDiscardsOrWaits := by
  intro s x line hline
  have hlength : (s.blk.chunk ++ [x]).length = s.blk.chunk.length + 1 := List.length_append
  exact ⟨rxTurn_of_off hline, rxTurn_of_held hline,
    fun h hmax => (rxTurn_of_waitFirst hline h).trans (if_neg (Ne.symm hmax)),
    fun h hmax => (rxTurn_of_waitFirst hline h).trans (if_pos (Eq.symm hmax)),
    fun h hlen => (rxTurn_of_accum hline h).trans (if_neg (hlength ▸ hlen)),
    fun h hlen => (rxTurn_of_accum hline h).trans (if_pos (hlength.trans hlen))⟩

/-- Settles O47: the pending receive, the room in the queue and the policy are asked in this order. -/
theorem completedChunkGoesOn : Obligations.CompletedChunkGoesOn := by
  intro s
  refine ⟨fun h => ?pending, complete_of_room, fun hrecv hfull hpolicy => ?block, fun hrecv hfull hpolicy => ?drop,
    fun hrecv hfull hpolicy => ?fault⟩
  case pending =>
    obtain ⟨r, hr⟩ := Option.ne_none_iff_exists'.mp h
    exact complete_of_pending hr
  all_goals
    rw [complete_of_full hrecv hfull]
    simp only [queueFull, State.setBlk_par, hpolicy]
  case block => rfl
  case drop => rfl
  case fault => exact enterFault_of_none _ hrecv

/-- Settles O48: NOW first, then each part of the tick in each state; the reader's part leaves no receive for the other. -/
theorem tickAdvancesTimeReaderReceiver : Obligations.TickAdvancesTimeReaderReceiver := by
  refine ⟨fun s => rfl, fun s h => readerTick_of_idle h, fun s t h ht => ⟨fun hle => ?initFires, fun hlt => ?initCounts⟩,
    fun s t h ht => ⟨fun hle => ?ibFires, fun hlt => ?ibCounts⟩, fun s h => recvTick_of_none h,
    fun s h => recvTick_of_last h, fun s r h hr => recvTick_of_ne_one h hr, fun s t h ht hle hrecv => ?deadline⟩
  case initFires =>
    rw [readerTick_of_waitFirst h, if_pos ((timeoutReached_iff ht).mpr hle)]
    rfl
  case initCounts =>
    rw [readerTick_of_waitFirst h, if_neg (mt (timeoutReached_iff ht).mp (Nat.not_le.mpr hlt))]
    rfl
  case ibFires =>
    rw [readerTick_of_accum h, if_pos ((timeoutReached_iff ht).mpr hle)]
    rfl
  case ibCounts =>
    rw [readerTick_of_accum h, if_neg (mt (timeoutReached_iff ht).mp (Nat.not_le.mpr hlt))]
    rfl
  case deadline =>
    rw [tick_of_timeout_pending h ht hle hrecv]
    exact ⟨rfl, rfl, rfl, rfl⟩

/-- Settles O49: fault entry with and without a pending receive; a transport error is one in RUNNING only. -/
theorem rxErrorFaultsRunningFramer : Obligations.RxErrorFaultsRunningFramer := by
  refine ⟨fun code s h => enterFault_of_none code h, fun code s h => ?pending, fun s h => if_neg h, fun s h => if_pos h⟩
  case pending =>
    obtain ⟨r, hr⟩ := Option.ne_none_iff_exists'.mp h
    exact enterFault_of_pending code hr

end Sys2Proof
end

section
/-! The inter-byte timeout (42_byte_framer.md R167, R180): a chunk stays open for fewer ticks than `T_IB`, and closes at `T_IB`. -/

namespace Sys2Proof.Machine

variable {s : State} {t : U32}

/-- One more tick comes last. -/
theorem ticks_succ (n : Nat) (s : State) : ticks (n + 1) s = tick (ticks n s) := by
  induction n generalizing s with
  | zero => rfl
  | succ n ih => exact ih (tick s)

/-- The receive's tick changes nothing of the block but the receive (R171). -/
theorem exists_recv_of_recvTick (s : State) : ∃ r, (recvTick s).blk = { s.blk with recv := r } := by
  rcases recvTick_cases s with ⟨-, he⟩ | ⟨-, he⟩ | ⟨r, -, -, he⟩ <;> rw [he]
  · exact ⟨s.blk.recv, rfl⟩
  · exact ⟨none, rfl⟩
  · exact ⟨some (r - 1#32), rfl⟩

theorem rstate_recvTick (s : State) : (recvTick s).blk.rstate = s.blk.rstate := by
  obtain ⟨r, hr⟩ := exists_recv_of_recvTick s
  rw [hr]

/-- A completed chunk is not gathered any further (R168, R169). -/
theorem rstate_complete_ne_accum (s : State) : (complete s).blk.rstate ≠ .accum := by
  rcases complete_cases s with ⟨r, -, he⟩ | ⟨-, -, he⟩ | ⟨-, -, -, he⟩ | ⟨-, -, -, he⟩ | ⟨-, -, -, he⟩ <;> rw [he]
  all_goals exact nofun

/-- A tick short of the inter-byte timeout changes the counts and the receive only (R167). -/
theorem tick_of_accum_of_lt (h : s.blk.rstate = .accum) (ht : s.blk.tIb = some t)
    (hlt : (s.blk.ibcnt + 1#32).toNat < t.toNat) :
    ∃ r, (tick s).blk = { s.blk with now := s.blk.now + 1#32, ibcnt := s.blk.ibcnt + 1#32, recv := r } := by
  have hreader := (readerTick_of_accum (s := s.setBlk { s.blk with now := s.blk.now + 1#32 }) h).trans
    (if_neg (mt (timeoutReached_iff ht).mp (Nat.not_le.mpr hlt)))
  rw [tick, hreader]
  exact exists_recv_of_recvTick _

/-- The tick that reaches the inter-byte timeout ends the gathering (R167). -/
theorem rstate_tick_ne_accum (h : s.blk.rstate = .accum) (ht : s.blk.tIb = some t)
    (hle : t.toNat ≤ (s.blk.ibcnt + 1#32).toNat) : (tick s).blk.rstate ≠ .accum := by
  have hreader := (readerTick_of_accum (s := s.setBlk { s.blk with now := s.blk.now + 1#32 }) h).trans
    (if_pos ((timeoutReached_iff ht).mpr hle))
  rw [tick, hreader, rstate_recvTick]
  exact rstate_complete_ne_accum _

/-- The chunk of `s` is still open in `u`, `g` ticks after its last byte. -/
def ChunkOpenFor (s : State) (g : Nat) (u : State) : Prop :=
  u.blk.rstate = .accum ∧ u.blk.chunk = s.blk.chunk ∧ u.blk.ibcnt.toNat = g ∧ u.blk.q = s.blk.q ∧ u.blk.tIb = s.blk.tIb

/-- Below the timeout, which is a u32, one tick more does not wrap the count. -/
theorem ibcnt_add_one {u : State} {g : Nat} (h : ChunkOpenFor s g u) (hg : g < t.toNat) :
    (u.blk.ibcnt + 1#32).toNat = g + 1 := by
  obtain ⟨-, -, hcount, -, -⟩ := h
  have := t.isLt
  rw [BitVec.toNat_add, hcount]
  exact Nat.mod_eq_of_lt (by simp; omega)

/-- Fewer ticks than the timeout leave the chunk open. -/
theorem chunkOpenFor_ticks (h : s.blk.rstate = .accum) (hcount : s.blk.ibcnt = 0#32) (ht : s.blk.tIb = some t) {g : Nat}
    (hg : g < t.toNat) : ChunkOpenFor s g (ticks g s) := by
  induction g with
  | zero => exact ⟨h, rfl, by simp [ticks, hcount], rfl, rfl⟩
  | succ g ih =>
    have hopen := ih (Nat.lt_of_succ_lt hg)
    have hnext := ibcnt_add_one hopen (Nat.lt_of_succ_lt hg)
    obtain ⟨haccum, hchunk, -, hq, htIb⟩ := hopen
    obtain ⟨r, hblk⟩ := tick_of_accum_of_lt haccum (htIb.trans ht) (hnext.symm ▸ hg)
    rw [ticks_succ, ChunkOpenFor, hblk]
    exact ⟨haccum, hchunk, hnext, hq, htIb⟩

/-- The ticks of the timeout close it. -/
theorem rstate_ticks_ne_accum (h : s.blk.rstate = .accum) (hcount : s.blk.ibcnt = 0#32) (ht : s.blk.tIb = some t)
    (hpos : 0 < t.toNat) : (ticks t.toNat s).blk.rstate ≠ .accum := by
  obtain ⟨g, hg⟩ := Nat.exists_eq_add_one.mpr hpos
  have hlt : g < t.toNat := hg ▸ Nat.lt_succ_self g
  have hopen := chunkOpenFor_ticks h hcount ht hlt
  have hnext := ibcnt_add_one hopen hlt
  obtain ⟨haccum, -, -, -, htIb⟩ := hopen
  rw [hg, ticks_succ]
  exact rstate_tick_ne_accum haccum (htIb.trans ht) (Nat.le_of_eq (hg.trans hnext.symm))

end Sys2Proof.Machine

namespace Sys2Proof

open Machine

/-- Settles O57: by induction on the ticks, the chunk stays open while the count is short of the timeout; the last one closes it. -/
theorem chunkClosesAfterInterByteTimeout : Obligations.ChunkClosesAfterInterByteTimeout := by
  intro s t h hcount ht hne
  refine ⟨fun g hg => ?short, rstate_ticks_ne_accum h hcount ht (by bv_omega)⟩
  case short =>
    obtain ⟨haccum, hchunk, hg', hq, -⟩ := chunkOpenFor_ticks h hcount ht hg
    exact ⟨haccum, hchunk, hg', hq⟩

end Sys2Proof
end

section
/-! The pending receive (42_byte_framer.md R171, 70_reset_and_hazards.md R288): no step but a Tick moves its count, and every
step that does not end it leaves it pending. -/

namespace Sys2Proof.Machine

variable {s : State} {r : U32}

/-- From `s` to `t` the pending receive went on with the same ticks left, or ended; the turns to come are the same. -/
def WaitsOrEnds (s t : State) : Prop := t.sched = s.sched ∧ (t.blk.recv = s.blk.recv ∨ t.blk.recv = none)

theorem WaitsOrEnds.refl (s : State) : WaitsOrEnds s s := ⟨rfl, .inl rfl⟩

/-! ### Events -/

theorem waitsOrEnds_complete (s : State) : WaitsOrEnds s (complete s) := by
  rcases complete_cases s with ⟨r, -, he⟩ | ⟨-, -, he⟩ | ⟨-, -, -, he⟩ | ⟨-, -, -, he⟩ | ⟨-, -, -, he⟩ <;> rw [he]
  · exact ⟨rfl, .inr rfl⟩
  all_goals exact ⟨rfl, .inl rfl⟩

theorem waitsOrEnds_completeIfFull (s : State) : WaitsOrEnds s (completeIfFull s) := by
  rcases completeIfFull_cases s with ⟨-, he⟩ | ⟨-, he⟩ <;> rw [he]
  · exact .refl s
  · exact waitsOrEnds_complete s

theorem waitsOrEnds_rxTurn (s : State) : WaitsOrEnds s (rxTurn s) := by
  rcases rxTurn_cases s with ⟨-, he⟩ | ⟨x, line, -, -, he⟩ | ⟨x, line, -, -, he⟩ | ⟨x, line, -, -, he⟩ <;> rw [he]
  · exact .refl s
  · exact ⟨rfl, .inl rfl⟩
  · exact waitsOrEnds_completeIfFull _
  · exact waitsOrEnds_completeIfFull _

theorem waitsOrEnds_rxError (s : State) : WaitsOrEnds s (rxError s) := by
  rcases rxError_cases s with ⟨-, he⟩ | ⟨-, he⟩ <;> rw [he]
  · exact .refl s
  · obtain ⟨-, -, -, -, hsched, hblk⟩ := enterFault_frame .transport s
    exact ⟨hsched, .inr (congrArg Block.recv hblk)⟩

theorem waitsOrEnds_readerTick (s : State) : WaitsOrEnds s (readerTick s) := by
  rcases readerTick_cases s with ⟨-, he⟩ | ⟨-, n, -, he⟩ | ⟨-, -, he⟩ | ⟨-, -, he⟩ <;> rw [he]
  · exact .refl s
  · exact ⟨rfl, .inl rfl⟩
  · exact ⟨rfl, .inl rfl⟩
  · exact waitsOrEnds_complete _

/-- A Tick ends the pending receive, or takes one of its ticks and leaves at least one (42_byte_framer.md R171). -/
theorem tick_of_pending (hr : s.blk.recv = some r) :
    (tick s).blk.recv = none ∨ (tick s).sched = s.sched ∧ (tick s).blk.recv = some (r - 1#32) ∧ r ≠ 1#32 := by
  obtain ⟨hsched, hkept | hended⟩ := waitsOrEnds_readerTick (s.setBlk { s.blk with now := s.blk.now + 1#32 })
  · by_cases hlast : r = 1#32
    · rw [tick, recvTick_of_last (hkept.trans (hlast ▸ hr))]
      exact .inl rfl
    · rw [tick, recvTick_of_ne_one (hkept.trans hr) hlast]
      exact .inr ⟨hsched, rfl, hlast⟩
  · rw [tick, recvTick_of_none hended]
    exact .inl hended

/-! ### Commands -/

/-- A command leaves a pending receive as it is, or ends it (FR_STOP, RESET): FR_RECV is not taken (42_byte_framer.md R177). -/
theorem exec_waitsOrEnds (hr : s.blk.recv = some r) (i : Instr) : ∃ u, exec i s = .next u ∧ WaitsOrEnds s u := by
  rcases exec_cases i s with ⟨frame, hi⟩ | ⟨-, hi⟩ | ⟨idx, v, reg, -, -, -, -, hi⟩ | ⟨crc, lrc, hi⟩ | ⟨n, hi⟩ |
    ⟨n, m, rem, ms, -, hi⟩ | ⟨-, -, -, hi⟩ | ⟨-, -, hi⟩ | ⟨str, -, -, hi⟩ | ⟨v, c, q, -, hnone, -, -⟩ |
    ⟨v, -, -, hnone, -, -, -⟩ | ⟨-, hi⟩
  · exact ⟨_, hi, rfl, .inl rfl⟩
  · exact ⟨_, hi, rfl, .inr rfl⟩
  · refine ⟨_, hi, rfl, .inl ?_⟩
    cases reg <;> rfl
  · exact ⟨_, hi, rfl, .inl rfl⟩
  · exact ⟨_, hi, rfl, .inl rfl⟩
  · exact ⟨_, hi, rfl, .inl rfl⟩
  · exact ⟨_, hi, rfl, .inl rfl⟩
  · exact ⟨_, hi, rfl, .inr rfl⟩
  · exact ⟨_, hi, rfl, .inl rfl⟩
  · exact nomatch hnone.symm.trans hr
  · exact nomatch hnone.symm.trans hr
  · exact ⟨_, hi, rfl, .inl rfl⟩

/-- So does the Host's turn: with no frame or with a rejected one nothing else happens. -/
theorem hostTurn_waitsOrEnds (hr : s.blk.recv = some r) : ∃ u, hostTurn s = .next u ∧ WaitsOrEnds s u := by
  cases hcmds : s.cmds with
  | nil => exact ⟨s, hostTurn_of_no_frame hcmds, .refl s⟩
  | cons frame cmds =>
    simp only [hostTurn, hcmds, runFrame]
    cases decode frame with
    | error e => exact ⟨_, raise_eq _ _, rfl, .inl rfl⟩
    | ok i => exact exec_waitsOrEnds (s := { s with cmds := cmds }) hr i

/-! ### Steps -/

/-- The receive pending with `r` ticks left has ended in `u`; or it still pends, at least `n` of its ticks are taken, and the
turns `sched` are to come. -/
def EndedOrTook (r : U32) (n : Nat) (sched : List Turn) (u : State) : Prop :=
  u.blk.recv = none ∨
  u.sched = sched ∧ ∃ left, u.blk.recv = some left ∧ left ≠ 0#32 ∧ left.toNat + n ≤ r.toNat

theorem WaitsOrEnds.endedOrTook {u : State} (h : WaitsOrEnds s u) (hr : s.blk.recv = some r) (hpos : r ≠ 0#32) :
    EndedOrTook r 0 s.sched u := by
  obtain ⟨hsched, hkept | hended⟩ := h
  · exact .inr ⟨hsched, r, hkept.trans hr, hpos, Nat.le_refl _⟩
  · exact .inl hended

theorem endedOrTook_tick (hr : s.blk.recv = some r) (hpos : r ≠ 0#32) : EndedOrTook r 1 s.sched (tick s) := by
  obtain hended | ⟨hsched, hleft, hne⟩ := tick_of_pending hr
  · exact .inl hended
  · exact .inr ⟨hsched, r - 1#32, hleft, by bv_omega, by bv_omega⟩

/-- Every turn ends a pending receive or leaves it pending, and a clock turn takes one of its ticks. -/
theorem step_of_pending {turn : Turn} {sched : List Turn} (hr : s.blk.recv = some r) (hpos : r ≠ 0#32)
    (hsched : s.sched = turn :: sched) :
    ∃ u, step s = .next u ∧ EndedOrTook r (if turn == .clock then 1 else 0) sched u := by
  rw [step_of_turn hsched]
  cases turn with
  | host =>
    obtain ⟨u, hu, hwaits⟩ := hostTurn_waitsOrEnds (s := { s with sched := sched }) hr
    exact ⟨u, hu, hwaits.endedOrTook hr hpos⟩
  | clock => exact ⟨_, rfl, endedOrTook_tick (s := { s with sched := sched }) hr hpos⟩
  | rxByte => exact ⟨_, rfl, (waitsOrEnds_rxTurn { s with sched := sched }).endedOrTook hr hpos⟩
  | rxError => exact ⟨_, rfl, (waitsOrEnds_rxError { s with sched := sched }).endedOrTook hr hpos⟩

/-- A step, and then `n` more. -/
theorem runSteps_succ {t : State} (n : Nat) (h : step s = .next t) : runSteps (n + 1) s = runSteps n t := by
  simp only [runSteps, h]

end Sys2Proof.Machine

namespace Sys2Proof

open Machine

/-- Settles O56: by induction on the steps, the clock turns still to come are at least the ticks the receive has left. -/
theorem pendingReceiveEndsWithinItsTicks : Obligations.PendingReceiveEndsWithinItsTicks := by
  intro n
  induction n with
  | zero =>
    intro s r _ hpos hcount
    exact absurd (Nat.le_zero.mp hcount) (by bv_omega)
  | succ n ih =>
    intro s r hr hpos hcount
    cases hsched : s.sched with
    | nil =>
      rw [hsched] at hcount
      exact absurd (Nat.le_zero.mp hcount) (by bv_omega)
    | cons turn sched =>
      rw [hsched, List.take_succ_cons, List.count_cons] at hcount
      obtain ⟨u, hstep, hended | ⟨hrest, left, hleft, hne, htook⟩⟩ := step_of_pending hr hpos hsched
      · exact ⟨1, u, Nat.le_add_left 1 n, runSteps_succ 0 hstep, hended⟩
      · obtain ⟨m, v, hm, hrun, hend⟩ := ih u left hleft hne (by rw [hrest]; omega)
        exact ⟨m + 1, v, Nat.succ_le_succ hm, (runSteps_succ m hstep).trans hrun, hend⟩

end Sys2Proof
end

section
/-! ICNT and the number T_INIT holds are unobservable (42_byte_framer.md R179): two runs from states alike but for these stay
alike. One relation serves both halves of the claim: `P` says whether the numbers in T_INIT may differ. -/

namespace Sys2Proof.Machine

/-- Two values of T_INIT: equal, or, where `P` allows it, both set or both `UNSET`. -/
def TimeoutAlike (P : Prop) (v w : Option U32) : Prop := w = v ∨ P ∧ w.isSome = v.isSome

/-- Two states alike but for ICNT and, where `P` allows it, the number T_INIT holds. -/
def AlikeBut (P : Prop) (s t : State) : Prop :=
  ∃ n w, TimeoutAlike P s.blk.tInit w ∧ t = s.setBlk { s.blk with icnt := n, tInit := w }

/-- Two outcomes with next states alike. -/
def NextAlike (P : Prop) (x y : Result) : Prop := ∃ s t, x = .next s ∧ y = .next t ∧ AlikeBut P s t

variable {P : Prop} {s t : State}

theorem TimeoutAlike.isSome_eq {v w : Option U32} (h : TimeoutAlike P v w) : w.isSome = v.isSome := by
  obtain rfl | ⟨-, h⟩ := h
  · rfl
  · exact h

theorem sameButIcnt_iff : SameButIcnt s t ↔ AlikeBut False s t := by
  constructor
  · rintro ⟨n, rfl⟩
    exact ⟨n, s.blk.tInit, .inl rfl, rfl⟩
  · rintro ⟨n, w, rfl | ⟨hfalse, -⟩, rfl⟩
    · exact ⟨n, rfl⟩
    · exact hfalse.elim

theorem sameButInitialTimeout_iff : SameButInitialTimeout s t ↔ AlikeBut True s t := by
  constructor
  · rintro ⟨n, w, hw, rfl⟩
    exact ⟨n, w, .inr ⟨trivial, hw⟩, rfl⟩
  · rintro ⟨n, w, hw, rfl⟩
    exact ⟨n, w, hw.isSome_eq, rfl⟩

/-! ### What the two states have in common -/

theorem AlikeBut.par (h : AlikeBut P s t) : t.par = s.par := by obtain ⟨n, w, -, rfl⟩ := h; rfl
theorem AlikeBut.cmds (h : AlikeBut P s t) : t.cmds = s.cmds := by obtain ⟨n, w, -, rfl⟩ := h; rfl
theorem AlikeBut.rxLine (h : AlikeBut P s t) : t.rxLine = s.rxLine := by obtain ⟨n, w, -, rfl⟩ := h; rfl
theorem AlikeBut.sched (h : AlikeBut P s t) : t.sched = s.sched := by obtain ⟨n, w, -, rfl⟩ := h; rfl
theorem AlikeBut.tIb (h : AlikeBut P s t) : t.blk.tIb = s.blk.tIb := by obtain ⟨n, w, -, rfl⟩ := h; rfl
theorem AlikeBut.fstate (h : AlikeBut P s t) : t.blk.fstate = s.blk.fstate := by obtain ⟨n, w, -, rfl⟩ := h; rfl
theorem AlikeBut.fcode (h : AlikeBut P s t) : t.blk.fcode = s.blk.fcode := by obtain ⟨n, w, -, rfl⟩ := h; rfl
theorem AlikeBut.now (h : AlikeBut P s t) : t.blk.now = s.blk.now := by obtain ⟨n, w, -, rfl⟩ := h; rfl
theorem AlikeBut.rstate (h : AlikeBut P s t) : t.blk.rstate = s.blk.rstate := by obtain ⟨n, w, -, rfl⟩ := h; rfl
theorem AlikeBut.chunk (h : AlikeBut P s t) : t.blk.chunk = s.blk.chunk := by obtain ⟨n, w, -, rfl⟩ := h; rfl
theorem AlikeBut.ibcnt (h : AlikeBut P s t) : t.blk.ibcnt = s.blk.ibcnt := by obtain ⟨n, w, -, rfl⟩ := h; rfl
theorem AlikeBut.q (h : AlikeBut P s t) : t.blk.q = s.blk.q := by obtain ⟨n, w, -, rfl⟩ := h; rfl
theorem AlikeBut.recv (h : AlikeBut P s t) : t.blk.recv = s.blk.recv := by obtain ⟨n, w, -, rfl⟩ := h; rfl

/-! ### Events -/

theorem AlikeBut.enterFault (h : AlikeBut P s t) (code : FCode) : AlikeBut P (enterFault code s) (enterFault code t) := by
  cases hrecv : s.blk.recv with
  | none =>
    rw [enterFault_of_none code hrecv, enterFault_of_none code (h.recv.trans hrecv)]
    obtain ⟨n, w, hw, rfl⟩ := h
    exact ⟨0#32, w, hw, rfl⟩
  | some r =>
    rw [enterFault_of_pending code hrecv, enterFault_of_pending code (h.recv.trans hrecv)]
    obtain ⟨n, w, hw, rfl⟩ := h
    exact ⟨0#32, w, hw, rfl⟩

theorem AlikeBut.queueFull (h : AlikeBut P s t) (c : Bytes) : AlikeBut P (queueFull c s) (queueFull c t) := by
  simp only [Machine.queueFull, h.par]
  cases s.par.qfullPolicy with
  | block | drop =>
    obtain ⟨n, w, hw, rfl⟩ := h
    exact ⟨n, w, hw, rfl⟩
  | fault => exact h.enterFault .backpressure

/-- Giving up the chunk clears ICNT in both (42_byte_framer.md R168). -/
theorem AlikeBut.clearChunk (h : AlikeBut P s t) :
    AlikeBut P (s.setBlk (clearChunk s.blk)) (t.setBlk (clearChunk t.blk)) := by
  obtain ⟨n, w, hw, rfl⟩ := h
  exact ⟨0#32, w, hw, rfl⟩

theorem AlikeBut.complete (h : AlikeBut P s t) : AlikeBut P (complete s) (complete t) := by
  cases hrecv : s.blk.recv with
  | some r =>
    rw [complete_of_pending hrecv, complete_of_pending (h.recv.trans hrecv)]
    obtain ⟨n, w, hw, rfl⟩ := h
    exact ⟨0#32, w, hw, rfl⟩
  | none =>
    rcases Nat.lt_or_ge s.blk.q.length s.par.qdepth with hroom | hfull
    · rw [complete_of_room hrecv hroom, complete_of_room (h.recv.trans hrecv) (by rwa [h.q, h.par])]
      obtain ⟨n, w, hw, rfl⟩ := h
      exact ⟨0#32, w, hw, rfl⟩
    · rw [complete_of_full hrecv hfull, complete_of_full (h.recv.trans hrecv) (by rwa [h.q, h.par]), h.chunk]
      exact h.clearChunk.queueFull s.blk.chunk

theorem AlikeBut.completeIfFull (h : AlikeBut P s t) : AlikeBut P (completeIfFull s) (completeIfFull t) := by
  simp only [Machine.completeIfFull, h.chunk, h.par]
  split
  · exact h.complete
  · exact h

theorem AlikeBut.rxTurn (h : AlikeBut P s t) : AlikeBut P (rxTurn s) (rxTurn t) := by
  cases hline : s.rxLine with
  | nil => rwa [rxTurn_of_empty_line hline, rxTurn_of_empty_line (h.rxLine.trans hline)]
  | cons x line =>
    have hline' := h.rxLine.trans hline
    cases hr : s.blk.rstate with
    | off =>
      rw [rxTurn_of_off hline hr, rxTurn_of_off hline' (h.rstate.trans hr)]
      obtain ⟨n, w, hw, rfl⟩ := h
      exact ⟨n, w, hw, rfl⟩
    | held => rwa [rxTurn_of_held hline hr, rxTurn_of_held hline' (h.rstate.trans hr)]
    | waitFirst =>
      rw [rxTurn_of_waitFirst hline hr, rxTurn_of_waitFirst hline' (h.rstate.trans hr)]
      obtain ⟨n, w, hw, rfl⟩ := h
      exact AlikeBut.completeIfFull ⟨0#32, w, hw, rfl⟩
    | accum =>
      rw [rxTurn_of_accum hline hr, rxTurn_of_accum hline' (h.rstate.trans hr)]
      obtain ⟨n, w, hw, rfl⟩ := h
      exact AlikeBut.completeIfFull ⟨n, w, hw, rfl⟩

/-- While the reader waits for a first byte, ICNT and T_INIT decide nothing but the next ICNT (42_byte_framer.md R166, R179). -/
theorem AlikeBut.readerTick (h : AlikeBut P s t) : AlikeBut P (readerTick s) (readerTick t) := by
  cases hr : s.blk.rstate with
  | off => rwa [readerTick_of_idle (.inl hr), readerTick_of_idle (.inl (h.rstate.trans hr))]
  | held => rwa [readerTick_of_idle (.inr hr), readerTick_of_idle (.inr (h.rstate.trans hr))]
  | waitFirst =>
    rw [readerTick_of_waitFirst hr, readerTick_of_waitFirst (h.rstate.trans hr)]
    obtain ⟨n, w, hw, rfl⟩ := h
    exact ⟨_, w, hw, rfl⟩
  | accum =>
    have hcounted : AlikeBut P (s.setBlk { s.blk with ibcnt := s.blk.ibcnt + 1#32 })
        (t.setBlk { t.blk with ibcnt := t.blk.ibcnt + 1#32 }) := by
      obtain ⟨n, w, hw, rfl⟩ := h
      exact ⟨n, w, hw, rfl⟩
    rw [readerTick_of_accum hr, readerTick_of_accum (h.rstate.trans hr), h.ibcnt, h.tIb]
    rw [h.ibcnt] at hcounted
    split
    · exact hcounted.complete
    · exact hcounted

theorem AlikeBut.recvTick (h : AlikeBut P s t) : AlikeBut P (recvTick s) (recvTick t) := by
  cases hrecv : s.blk.recv with
  | none => rwa [recvTick_of_none hrecv, recvTick_of_none (h.recv.trans hrecv)]
  | some r =>
    by_cases hlast : r = 1#32
    · subst hlast
      rw [recvTick_of_last hrecv, recvTick_of_last (h.recv.trans hrecv)]
      obtain ⟨n, w, hw, rfl⟩ := h
      exact ⟨n, w, hw, rfl⟩
    · rw [recvTick_of_ne_one hrecv hlast, recvTick_of_ne_one (h.recv.trans hrecv) hlast]
      obtain ⟨n, w, hw, rfl⟩ := h
      exact ⟨n, w, hw, rfl⟩

theorem AlikeBut.tick (h : AlikeBut P s t) : AlikeBut P (tick s) (tick t) := by
  have hnow : AlikeBut P (s.setBlk { s.blk with now := s.blk.now + 1#32 })
      (t.setBlk { t.blk with now := t.blk.now + 1#32 }) := by
    obtain ⟨n, w, hw, rfl⟩ := h
    exact ⟨n, w, hw, rfl⟩
  exact hnow.readerTick.recvTick

theorem AlikeBut.rxError (h : AlikeBut P s t) : AlikeBut P (rxError s) (rxError t) := by
  simp only [Machine.rxError, h.fstate]
  split
  · exact h.enterFault .transport
  · exact h

/-! ### Commands -/

/-- The same result frame in both. -/
theorem NextAlike.ret (h : AlikeBut P s t) (st : Status) (p : Payload) : NextAlike P (ret st p s) (ret st p t) := by
  refine ⟨_, _, rfl, rfl, ?_⟩
  obtain ⟨n, w, hw, rfl⟩ := h
  exact ⟨n, w, hw, rfl⟩

/-- The bound on a byte string is a parameter (44_control.md R225). -/
theorem NextAlike.withOperand {x y : Result} (hxy : NextAlike P x y) (h : AlikeBut P s t) (str : Bytes) :
    NextAlike P (withOperand str s x) (withOperand str t y) := by
  simp only [Machine.withOperand, h.par]
  split
  · exact .ret h .errLen .empty
  · exact hxy

/-- Only index 0 names T_INIT (10_state.md R46). -/
theorem index_of_tInit {idx : Byte} (h : Reg.ofIndex idx = some (.cfg .tInit)) : idx = 0x00#8 := by
  unfold Reg.ofIndex at h
  split at h
  · next r hr =>
    cases h
    unfold CfgReg.ofIndex at hr
    split at hr
    · next hidx => exact byte_ext hidx
    all_goals cases hr
  · split at h <;> cases h

/-- Every register but T_INIT reads the same (10_state.md R46). -/
theorem AlikeBut.readReg (h : AlikeBut P s t) {r : Reg} (hr : P → r ≠ .cfg .tInit) : readReg r t = readReg r s := by
  obtain ⟨n, w, hw, rfl⟩ := h
  cases r with
  | ro r => cases r <;> rfl
  | cfg r =>
    cases r with
    | tInit =>
      obtain rfl | ⟨hP, -⟩ := hw
      · rfl
      · exact absurd rfl (hr hP)
    | tIb | port | baud | duplex | term => rfl

theorem NextAlike.cfgRd (h : AlikeBut P s t) {idx : Byte} (hidx : P → idx ≠ 0x00#8) :
    NextAlike P (execCfgRd idx s) (execCfgRd idx t) := by
  unfold execCfgRd
  cases hreg : Reg.ofIndex idx with
  | none => exact .ret h .errReg .empty
  | some r =>
    have hr : P → r ≠ .cfg .tInit := by
      rintro hP rfl
      exact hidx hP (index_of_tInit hreg)
    simp only [h.readReg hr]
    cases Machine.readReg r s with
    | none => exact .ret h .errUnset .empty
    | some v => exact .ret h .ok (.u32 v)

/-- A write of T_INIT makes it the same in both; a write of another register leaves it as it is (44_control.md R222). -/
theorem AlikeBut.writeCfg (h : AlikeBut P s t) (r : CfgReg) (v : U32) :
    AlikeBut P (s.setBlk (writeCfg r v s.blk)) (t.setBlk (writeCfg r v t.blk)) := by
  obtain ⟨n, w, hw, rfl⟩ := h
  cases r with
  | tInit => exact ⟨n, some v, .inl rfl, rfl⟩
  | tIb | port | baud | duplex | term => exact ⟨n, w, hw, rfl⟩

theorem NextAlike.cfgWr (h : AlikeBut P s t) (idx : Byte) (v : U32) :
    NextAlike P (execCfgWr idx v s) (execCfgWr idx v t) := by
  unfold execCfgWr
  cases CfgReg.ofIndex idx with
  | none => exact .ret h .errReg .empty
  | some r =>
    simp only [h.fstate]
    split
    · exact .ret h .errState .empty
    · split
      · exact .ret (h.writeCfg r v) .ok .empty
      · exact .ret h .errCfg .empty

/-- FR_START asks of T_INIT only whether it is set (42_byte_framer.md R174). -/
theorem AlikeBut.configIncomplete (h : AlikeBut P s t) : configIncomplete t.blk = configIncomplete s.blk := by
  obtain ⟨n, w, hw, rfl⟩ := h
  have hnone : w.isNone = s.blk.tInit.isNone := by rw [← Option.not_isSome, ← Option.not_isSome, hw.isSome_eq]
  simp only [Machine.configIncomplete, State.setBlk_blk, hnone]

theorem NextAlike.frStart (h : AlikeBut P s t) : NextAlike P (execFrStart s) (execFrStart t) := by
  simp only [execFrStart, h.fstate, h.configIncomplete]
  split
  · exact .ret h .errState .empty
  · split
    · exact .ret h .errCfg .empty
    · refine .ret ?_ .ok .empty
      obtain ⟨n, w, hw, rfl⟩ := h
      exact ⟨0#32, w, hw, rfl⟩

theorem NextAlike.frStop (h : AlikeBut P s t) : NextAlike P (execFrStop s) (execFrStop t) := by
  simp only [execFrStop, h.fstate, wakeReceiver_stopped]
  split
  · refine .ret ?_ .ok .empty
    obtain ⟨n, w, hw, rfl⟩ := h
    exact ⟨0#32, w, hw, rfl⟩
  · exact .ret h .ok .empty

theorem NextAlike.frSend (h : AlikeBut P s t) (str : Bytes) : NextAlike P (execFrSend str s) (execFrSend str t) := by
  refine .withOperand ?_ h str
  simp only [h.fstate, h.fcode]
  cases s.blk.fstate with
  | faulted => exact .ret h .fault (.fcode s.blk.fcode)
  | idle | stopped => exact .ret h .errState .empty
  | running =>
    refine .ret ?_ .ok .empty
    obtain ⟨n, w, hw, rfl⟩ := h
    exact ⟨n, w, hw, rfl⟩

/-- A held chunk moves up in both or in neither (42_byte_framer.md R177). -/
theorem AlikeBut.afterPop (h : AlikeBut P s t) (q : List Bytes) :
    AlikeBut P (s.setBlk (afterPop q s.blk)) (t.setBlk (afterPop q t.blk)) := by
  simp only [Machine.afterPop, h.rstate]
  obtain ⟨n, w, hw, rfl⟩ := h
  split
  · exact ⟨n, w, hw, rfl⟩
  · exact ⟨n, w, hw, rfl⟩

theorem NextAlike.frRecv (h : AlikeBut P s t) (w : U32) : NextAlike P (execFrRecv w s) (execFrRecv w t) := by
  simp only [execFrRecv, h.recv, h.q, h.fstate, h.fcode]
  split
  · exact .ret h .errBusy .empty
  · split
    · next c q _ => exact .ret (h.afterPop q) .ok (.str c)
    · split
      · exact .ret h .fault (.fcode s.blk.fcode)
      · exact .ret h .stopped .empty
      · exact .ret h .errState .empty
      · split
        · exact .ret h .none .empty
        · obtain ⟨n, v, hv, rfl⟩ := h
          exact ⟨_, _, rfl, rfl, n, v, hv, rfl⟩

theorem NextAlike.decAsciiFrame (h : AlikeBut P s t) (str : Bytes) :
    NextAlike P (execDecAsciiFrame str s) (execDecAsciiFrame str t) := by
  refine .withOperand ?_ h str
  cases asciiParse str with
  | none =>
    refine .ret ?_ .none .empty
    obtain ⟨n, w, hw, rfl⟩ := h
    exact ⟨n, w, hw, rfl⟩
  | some m =>
    simp only [h.now]
    exact .ret h .ok (.msg (Msg.ofTriple m s.blk.now))

theorem NextAlike.decRtuCand (h : AlikeBut P s t) (k : Byte) (str : Bytes) :
    NextAlike P (execDecRtuCand k str s) (execDecRtuCand k str t) := by
  refine .withOperand ?_ h str
  rw [h.now]
  split
  · exact .ret h .none _
  · exact .ret h .ok _

/-- Every command but CFG_RD of T_INIT gives like states like next states. -/
theorem AlikeBut.exec (h : AlikeBut P s t) {i : Instr} (hi : P → i ≠ .cfgRd 0x00#8) :
    NextAlike P (exec i s) (exec i t) := by
  cases i with
  | cfgRd idx => exact .cfgRd h fun hP hidx => hi hP (congrArg Instr.cfgRd hidx)
  | cfgWr idx v => exact .cfgWr h idx v
  | frStart => exact .frStart h
  | frStop => exact .frStop h
  | frSend str => exact .frSend h str
  | frRecv w => exact .frRecv h w
  | reset =>
    simp only [Machine.exec, execReset, resetBlock_eq]
    refine .ret ?_ .ok .empty
    obtain ⟨n, w, -, rfl⟩ := h
    exact ⟨0#32, none, .inl rfl, rfl⟩
  | frFlush =>
    refine .ret ?_ .ok .empty
    obtain ⟨n, w, hw, rfl⟩ := h
    exact ⟨0#32, w, hw, rfl⟩
  | crcInit | crcUpdate | lrcInit | lrcUpdate | pdecReset =>
    refine .ret ?_ .ok .empty
    obtain ⟨n, w, hw, rfl⟩ := h
    exact ⟨n, w, hw, rfl⟩
  | crcRead =>
    obtain ⟨n, w, hw, rfl⟩ := h
    exact .ret ⟨n, w, hw, rfl⟩ .ok (.u16 s.blk.crcAcc)
  | lrcRead =>
    obtain ⟨n, w, hw, rfl⟩ := h
    exact .ret ⟨n, w, hw, rfl⟩ .ok (.u8 (lrcOfSum s.blk.lrcAcc))
  | crcCompute str | lrcCompute str | encAscii _ _ str | encRtu _ _ str => exact .withOperand (.ret h .ok _) h str
  | decAsciiFrame str => exact .decAsciiFrame h str
  | decRtuCand k str => exact .decRtuCand h k str
  | pdecAscii str | pdecRtu str =>
    refine .withOperand ?_ h str
    obtain ⟨n, w, hw, rfl⟩ := h
    refine .ret ?_ .ok (.list _)
    exact ⟨n, w, hw, rfl⟩

/-! ### Steps -/

/-- The frame of CFG_RD of T_INIT is the one that decodes to it (30_encoding.md R81, R82). -/
theorem decode_ne_cfgRd_tInit {frame : Bytes} {i : Instr} (hframe : frame ≠ [0x02#8, 0x00#8]) (hi : decode frame = .ok i) :
    i ≠ .cfgRd 0x00#8 := by
  rintro rfl
  obtain ⟨-, hencode⟩ := wellFormed_and_encode_of_decode hi
  exact hframe hencode.symm

theorem AlikeBut.runFrame (h : AlikeBut P s t) {frame : Bytes} (hframe : P → frame ≠ [0x02#8, 0x00#8]) :
    NextAlike P (runFrame frame s) (runFrame frame t) := by
  unfold Machine.runFrame
  cases hi : decode frame with
  | error r => exact .ret h (rejectStatus r) .empty
  | ok i => exact h.exec fun hP => decode_ne_cfgRd_tInit (hframe hP) hi

theorem AlikeBut.setCmds (h : AlikeBut P s t) (cmds : List Bytes) :
    AlikeBut P { s with cmds := cmds } { t with cmds := cmds } := by
  obtain ⟨n, w, hw, rfl⟩ := h
  exact ⟨n, w, hw, rfl⟩

theorem AlikeBut.setSched (h : AlikeBut P s t) (sched : List Turn) :
    AlikeBut P { s with sched := sched } { t with sched := sched } := by
  obtain ⟨n, w, hw, rfl⟩ := h
  exact ⟨n, w, hw, rfl⟩

theorem AlikeBut.hostTurn (h : AlikeBut P s t) (hread : P → ∀ cmds, s.cmds ≠ [0x02#8, 0x00#8] :: cmds) :
    NextAlike P (hostTurn s) (hostTurn t) := by
  simp only [Machine.hostTurn, h.cmds]
  cases hcmds : s.cmds with
  | nil => exact ⟨s, t, rfl, rfl, h⟩
  | cons frame cmds =>
    refine (h.setCmds cmds).runFrame ?_
    rintro hP rfl
    exact hread hP cmds hcmds

/-- Like states have like next states, unless the step runs CFG_RD of T_INIT where T_INIT may differ. -/
theorem AlikeBut.step (h : AlikeBut P s t)
    (hread : P → ¬ ∃ sched cmds, s.sched = .host :: sched ∧ s.cmds = [0x02#8, 0x00#8] :: cmds) :
    NextAlike P (step s) (step t) := by
  cases hsched : s.sched with
  | nil =>
    rw [step_of_no_turn hsched, step_of_no_turn (h.sched.trans hsched)]
    exact ⟨s, t, rfl, rfl, h⟩
  | cons turn sched =>
    rw [step_of_turn hsched, step_of_turn (h.sched.trans hsched)]
    have hnext := h.setSched sched
    cases turn with
    | host => exact hnext.hostTurn fun hP cmds hcmds => hread hP ⟨sched, cmds, hsched, hcmds⟩
    | clock => exact ⟨_, _, rfl, rfl, hnext.tick⟩
    | rxByte => exact ⟨_, _, rfl, rfl, hnext.rxTurn⟩
    | rxError => exact ⟨_, _, rfl, rfl, hnext.rxError⟩

end Sys2Proof.Machine

namespace Sys2Proof

open Machine

/-- Settles O58: every step takes states alike but for ICNT and T_INIT to states alike but for these; with T_INIT the same there
is no exception. -/
theorem initialTimeoutIsUnobservable : Obligations.InitialTimeoutIsUnobservable := by
  refine ⟨fun s t s' h he => ?icnt, fun s t s' h hread he => ?timeout⟩
  case icnt =>
    obtain ⟨u, t', hu, ht, halike⟩ := (sameButIcnt_iff.mp h).step False.elim
    cases hu.symm.trans he
    exact ⟨t', ht, sameButIcnt_iff.mpr halike⟩
  case timeout =>
    obtain ⟨u, t', hu, ht, halike⟩ := (sameButInitialTimeout_iff.mp h).step fun _ => hread
    cases hu.symm.trans he
    exact ⟨t', ht, sameButInitialTimeout_iff.mpr halike⟩

end Sys2Proof
end

section
/-! The RTU burst (43_protocol_decoder.md R200, R201): what every round of the decoder loop says about the buffer. -/

namespace Sys2Proof.Machine

section

variable {order : List Hyp} {buf rest d : Bytes} {m : Triple} {a f : Byte}

/-- The hypothesis a round accepts stands in the order, gives the message's data length, and found its frame. -/
theorem exists_hyp_of_firstHyp (h : firstHyp order buf = some (m, rest)) :
    ∃ g ∈ order, datalen g buf = some m.2.2.length ∧ buf = rtuFrame m.1 m.2.1 m.2.2 ++ rest := by
  obtain ⟨g, hg, htry⟩ := List.exists_of_findSome?_eq_some h
  obtain ⟨k, hlen, hcand⟩ := tryHyp_eq_some.mp htry
  obtain ⟨rfl, hbuf⟩ := rtuCandidate_eq_some_iff.mp hcand
  exact ⟨g, hg, hlen, hbuf⟩

/-- With no accepted hypothesis, every one of the order fails. -/
theorem rtuCandidate_eq_none_of_firstHyp (h : firstHyp order buf = none) {g : Hyp} (hg : g ∈ order) :
    ∀ k, datalen g buf = some k → (rtuCandidate buf k).1 = none :=
  tryHyp_eq_none.mp (List.findSome?_eq_none_iff.mp h g hg)

/-- The rounds of the loop: the empty buffer ends it, a rest without a message is discarded, and a message leaves the bytes
after its frame. -/
theorem rtuDecode_rounds (order : List Hyp) {motive : Bytes → Prop} (nil : motive [])
    (discarded : ∀ buf, buf ≠ [] → firstHyp order buf = none → motive buf)
    (found : ∀ buf m rest, firstHyp order buf = some (m, rest) → motive rest → motive buf) (buf : Bytes) : motive buf := by
  induction hn : buf.length using Nat.strong_induction_on generalizing buf with
  | _ n ih =>
    by_cases hbuf : buf = []
    · exact hbuf ▸ nil
    · cases hfirst : firstHyp order buf with
      | none => exact discarded buf hbuf hfirst
      | some r =>
        have hshorter := firstHyp_some_length hfirst
        exact found buf r.1 r.2 hfirst (ih r.2.length (by omega) r.2 rfl)

/-- A count byte within the data stands two bytes further on in the frame (30_encoding.md R95). -/
theorem rtuFrame_append_getElem? {i : Nat} (a f : Byte) (rest : Bytes) (hi : i < d.length) :
    (rtuFrame a f d ++ rest)[2 + i]? = d[i]? := by
  simp [rtuFrame, Nat.add_comm 2, List.getElem?_append_left hi]

/-- A variable hypothesis gives the frame's own data length only from a count byte in the data (R96). -/
theorem exists_count_of_variableLen {leading : Nat}
    (h : variableLen leading (rtuFrame a f d ++ rest) = some d.length) :
    ∃ c, d[leading]? = some c ∧ c.toNat + (leading + 1) = d.length := by
  rw [variableLen_eq_map, Option.map_eq_some_iff] at h
  obtain ⟨c, hc, hlen⟩ := h
  rw [rtuFrame_append_getElem? a f rest (by omega)] at hc
  exact ⟨c, hc, by omega⟩

/-- Data whose frame some hypothesis fits is decodable (R201). -/
theorem decodableData_of_datalen {g : Hyp} (h : datalen g (rtuFrame a f d ++ rest) = some d.length) :
    DecodableData d := by
  have fixed {n : Nat} (hn : n ∈ [0, 1, 2, 3, 4, 6]) (hlen : some n = some d.length) : DecodableData d :=
    .inl (Option.some.inj hlen ▸ hn)
  cases g with
  | f0 => exact fixed (by decide) h
  | f1 => exact fixed (by decide) h
  | f2 => exact fixed (by decide) h
  | f3 => exact fixed (by decide) h
  | f4 => exact fixed (by decide) h
  | f6 => exact fixed (by decide) h
  | v0 => exact .inr (.inl (exists_count_of_variableLen h))
  | v4 => exact .inr (.inr (.inl (exists_count_of_variableLen h)))
  | v8 => exact .inr (.inr (.inr (exists_count_of_variableLen h)))

/-- When every hypothesis that validates gives the frame's data length, the round finds the frame. -/
theorem firstHyp_rtuFrame {h : Hyp} (hmem : h ∈ order)
    (hlen : datalen h (rtuFrame a f d ++ rest) = some d.length)
    (honly : ∀ g ∈ order, ∀ k, datalen g (rtuFrame a f d ++ rest) = some k →
      (rtuCandidate (rtuFrame a f d ++ rest) k).1 ≠ none → k = d.length) :
    firstHyp order (rtuFrame a f d ++ rest) = some ((a, f, d), rest) := by
  have hframe : rtuCandidate (rtuFrame a f d ++ rest) d.length = (some (a, f, d), rest) :=
    rtuCandidate_eq_some_iff.mpr ⟨rfl, rfl⟩
  cases hfirst : firstHyp order (rtuFrame a f d ++ rest) with
  | none =>
    have hfail := rtuCandidate_eq_none_of_firstHyp hfirst hmem d.length hlen
    rw [hframe] at hfail
    cases hfail
  | some r =>
    obtain ⟨m, rest'⟩ := r
    obtain ⟨g, hg, hlen', hbuf⟩ := exists_hyp_of_firstHyp hfirst
    have hcand : rtuCandidate (rtuFrame a f d ++ rest) m.2.2.length = (some m, rest') :=
      rtuCandidate_eq_some_iff.mpr ⟨rfl, hbuf⟩
    have hsame : m.2.2.length = d.length := honly g hg _ hlen' (by simp [hcand])
    rw [hsame, hframe] at hcand
    cases hcand
    rfl

end

/-- PDEC_RTU within the operand limit; the counter wraps (43_protocol_decoder.md R206). -/
theorem exec_pdecRtu_of_le {s : State} {str : Bytes} (hstr : str.length ≤ s.par.operMax) :
    exec (.pdecRtu str) s = .next (State.answered
      { s with blk := { s.blk with
          cntRtuDrop := s.blk.cntRtuDrop + if (rtuDecode s.par.hypOrder str).2 then 1#32 else 0#32 } }
      (okList (rtuDecode s.par.hypOrder str).1 s.blk.now)) := by
  simp only [exec, execPdecRtu, withOperand_of_le _ hstr, ret_eq, resultFrame_ok_list]
  rfl

end Sys2Proof.Machine

namespace Sys2Proof

open Machine

/-- Settles O32, by induction on the rounds: each takes its message's frame off the front. -/
theorem rtuMessagesAreFramesOfAPrefix : Obligations.RtuMessagesAreFramesOfAPrefix := by
  intro order buf
  induction buf using rtuDecode_rounds order with
  | nil => exact ⟨[], by simp⟩
  | discarded buf hbuf hnone =>
    rw [rtuDecode_none hbuf hnone]
    exact ⟨buf, rfl, by simpa using hbuf, fun g hg _ => rtuCandidate_eq_none_of_firstHyp hnone hg⟩
  | found buf m next hfirst ih =>
    obtain ⟨rest, hnext, hdrop, hfail⟩ := ih
    obtain ⟨-, -, -, hbuf⟩ := exists_hyp_of_firstHyp hfirst
    rw [rtuDecode_some hfirst]
    refine ⟨rest, ?_, hdrop, hfail⟩
    rw [List.flatMap_cons, List.append_assoc, ← hnext]
    exact hbuf

/-- Settles O33, by induction on the rounds: the accepted hypothesis gives the message's data length. -/
theorem rtuMessagesHaveDecodableLength : Obligations.RtuMessagesHaveDecodableLength := by
  intro order buf m hm
  induction buf using rtuDecode_rounds order with
  | nil => simp at hm
  | discarded buf hbuf hnone => simp [rtuDecode_none hbuf hnone] at hm
  | found buf m' next hfirst ih =>
    rw [rtuDecode_some hfirst] at hm
    obtain rfl | hlater := List.mem_cons.mp hm
    · obtain ⟨g, -, hlen, rfl⟩ := exists_hyp_of_firstHyp hfirst
      exact decodableData_of_datalen hlen
    · exact ih hlater

/-- Settles O34: the first round finds the frame, and the later rounds see only what follows it. -/
theorem rtuRoundTripWithoutCollision : Obligations.RtuRoundTripWithoutCollision :=
  fun _ _ _ _ _ _ hmem hlen honly => rtuDecode_some (firstHyp_rtuFrame hmem hlen honly)

/-- Settles O31: the loop's answer gives the messages, and its discarded rest the drop. -/
theorem pdecRtuDecodesOneBurst : Obligations.PdecRtuDecodesOneBurst := by
  refine ⟨fun str h => ?decodes, fun s str h hdrop => ?kept, fun s str h hdrop => ?dropped,
    fun s str h => withOperand_of_lt _ h⟩
  case decodes =>
    rw [← lenPrefixed_eq]
    exact Laws.RoundTrip.pdecRtu str (decide_eq_true h)
  case kept =>
    rw [exec_pdecRtu_of_le h]
    simp only [hdrop, Bool.false_eq_true, if_false, BitVec.add_zero]
  case dropped =>
    rw [exec_pdecRtu_of_le h]
    simp only [hdrop, if_true, BitVec.add_def, BitVec.toNat_one (by decide : 0 < 32)]

end Sys2Proof
end

section
/-! The ASCII stream (43_protocol_decoder.md R202 to R204, R207). Between two delimiters the decoder holds a string without
CR LF; all that later bytes can make of it depends on its `pendingTail`, which is what `keep_partial` carries over. -/

namespace Sys2Proof.Machine

section

variable {t buf h : Bytes} {c : Byte}

/-! ### Spans -/

/-- A delimiter lies within the string. -/
theorem crlfIndex_le {i : Nat} (h : crlfIndex buf = some i) : i + 2 ≤ buf.length :=
  (List.getElem?_eq_some_iff.mp (crlfIndex_eq_some.mp h).1.2).1

/-- The rounds of the loop: each takes the first delimiter and what stands before it. -/
theorem asciiSpans_rounds {motive : Bytes → Prop} (rest : ∀ buf, crlfIndex buf = none → motive buf)
    (span : ∀ buf i, crlfIndex buf = some i → motive (buf.drop (i + 2)) → motive buf) (buf : Bytes) : motive buf := by
  induction hn : buf.length using Nat.strong_induction_on generalizing buf with
  | _ n ih =>
    cases hcrlf : crlfIndex buf with
    | none => exact rest buf hcrlf
    | some i =>
      have hi := crlfIndex_le hcrlf
      refine span buf i hcrlf (ih (buf.drop (i + 2)).length ?_ _ rfl)
      rw [List.length_drop]
      omega

/-- The first delimiter stays the first when bytes arrive behind it. -/
theorem crlfIndex_append {i : Nat} (more : Bytes) (h : crlfIndex buf = some i) :
    crlfIndex (buf ++ more) = some i := by
  have hlen := crlfIndex_le h
  obtain ⟨⟨hcr, hlf⟩, hfirst⟩ := crlfIndex_eq_some.mp h
  refine crlfIndex_eq_some.mpr ⟨⟨?_, ?_⟩, fun j hj => ?_⟩
  · rwa [List.getElem?_append_left (by omega)]
  · rwa [List.getElem?_append_left (by omega)]
  · rw [List.getElem?_append_left (by omega), List.getElem?_append_left (by omega)]
    exact hfirst j hj

/-- A suffix of a string without CR LF has none. -/
theorem crlfIndex_eq_none_of_append {before : Bytes} (h : crlfIndex (before ++ t) = none) : crlfIndex t = none := by
  refine crlfIndex_eq_none.mpr fun i hat => crlfIndex_eq_none.mp h (before.length + i) ?_
  simpa [List.getElem?_append_right, Nat.add_assoc] using hat

/-- The delimiter that one more byte makes ends with that byte. -/
theorem crlfIndex_concat {i : Nat} (hnone : crlfIndex t = none) (hsome : crlfIndex (t ++ [c]) = some i) :
    i + 2 = (t ++ [c]).length ∧ c = chLf := by
  obtain ⟨⟨hcr, hlf⟩, -⟩ := crlfIndex_eq_some.mp hsome
  have hlen := crlfIndex_le hsome
  rw [List.length_append, List.length_singleton] at hlen ⊢
  by_cases hi : i + 1 < t.length
  · rw [List.getElem?_append_left (by omega)] at hcr
    rw [List.getElem?_append_left hi] at hlf
    exact absurd ⟨hcr, hlf⟩ (crlfIndex_eq_none.mp hnone i)
  · have hlast : i + 1 = t.length := by omega
    exact ⟨by omega, by simpa [hlast] using hlf⟩

/-- What arrives later only adds to the rest: the spans of a stream are those of its first piece, then those of the piece's
rest with what follows. -/
theorem asciiSpans_append (buf more : Bytes) :
    asciiSpans (buf ++ more) =
      ((asciiSpans buf).1 ++ (asciiSpans ((asciiSpans buf).2 ++ more)).1, (asciiSpans ((asciiSpans buf).2 ++ more)).2) := by
  induction buf using asciiSpans_rounds with
  | rest buf hnone => simp [asciiSpans_none hnone]
  | span buf i hsome ih =>
    have hlen := crlfIndex_le hsome
    rw [asciiSpans_some (crlfIndex_append more hsome), asciiSpans_some hsome, List.take_append_of_le_length hlen,
      List.drop_append_of_le_length hlen, ih, List.cons_append]

theorem crlfIndex_asciiSpans_rest (buf : Bytes) : crlfIndex (asciiSpans buf).2 = none := by
  induction buf using asciiSpans_rounds with
  | rest buf hnone => rwa [asciiSpans_none hnone]
  | span buf i hsome ih => rwa [asciiSpans_some hsome]

/-! ### The pending tail -/

/-- What follows the last colon, when it is the beginning of a frame's hex part (43_protocol_decoder.md R204): `keepPartial`
without its bound. -/
def pendingTail (t : Bytes) : Option Bytes := (afterLastColon t).filter partialTail

theorem pendingTail_eq_some : pendingTail t = some h ↔ afterLastColon t = some h ∧ partialTail h = true :=
  Option.filter_eq_some_iff

/-- The pending tail, and whether it is within the bound, is all that `keepPartial` looks at. -/
theorem keepPartial_eq_pendingTail (bound : Nat) (t : Bytes) :
    keepPartial bound t = match pendingTail t with
      | none => []
      | some h => if h.length + 1 ≤ bound then chColon :: h else [] := by
  unfold keepPartial pendingTail
  cases afterLastColon t with
  | none => rfl
  | some h => by_cases hh : partialTail h = true <;> simp [hh, Option.filter]

theorem partialTail_of_concat (hc : partialTail (h ++ [c]) = true) : partialTail h = true := by
  obtain ⟨digits, cr, heq, hdigits, rfl | rfl⟩ := partialTail_iff.mp hc
  · rw [List.append_nil] at heq
    exact partialTail_iff.mpr ⟨h, [], by simp, fun x hx => hdigits x (by simp [← heq, hx]), .inl rfl⟩
  · obtain rfl := (List.append_inj' heq rfl).1
    exact partialTail_iff.mpr ⟨h, [], by simp, hdigits, .inl rfl⟩

theorem afterLastColon_concat (t : Bytes) (c : Byte) :
    afterLastColon (t ++ [c]) = if c = chColon then some [] else (afterLastColon t).map (· ++ [c]) := by
  induction t with
  | nil => simp [afterLastColon]
  | cons b t ih =>
    simp only [List.cons_append, afterLastColon, ih]
    by_cases hc : c = chColon
    · simp [hc]
    · cases afterLastColon t with
      | some h => simp [hc]
      | none => by_cases hb : b = chColon <;> simp [hc, hb]

/-- One more byte: the new pending tail depends on the old one only. -/
theorem pendingTail_concat (t : Bytes) (c : Byte) :
    pendingTail (t ++ [c]) = if c = chColon then some [] else ((pendingTail t).map (· ++ [c])).filter partialTail := by
  rw [pendingTail, pendingTail, afterLastColon_concat]
  split
  · rfl
  · cases afterLastColon t with
    | none => rfl
    | some h =>
      cases hh : partialTail h with
      | true => simp [Option.filter, hh]
      | false =>
        have hnot : ¬ partialTail (h ++ [c]) = true := fun hc => by simp [partialTail_of_concat hc] at hh
        simp [Option.filter, hh, hnot]

/-- An LF belongs to no pending tail. -/
theorem pendingTail_concat_chLf (t : Bytes) : pendingTail (t ++ [chLf]) = none := by
  rw [pendingTail_concat, if_neg (by decide)]
  cases pendingTail t with
  | none => rfl
  | some h =>
    have hnot : ¬ partialTail (h ++ [chLf]) = true := by
      intro hc
      obtain ⟨digits, cr, heq, hdigits, rfl | rfl⟩ := partialTail_iff.mp hc
      · rw [List.append_nil] at heq
        exact hdigits chLf (by simp [← heq]) (by decide)
      · simp [chLf, chCr] at heq
    simp [Option.filter, hnot]

/-- An LF completes a message exactly when the pending tail is the message's hex part and a CR. -/
theorem asciiParse_concat_chLf {m : Triple} : asciiParse (t ++ [chLf]) = some m ↔
    ∃ digits, pendingTail t = some (digits ++ [chCr]) ∧
      unhexPairs digits = some ([m.1, m.2.1] ++ m.2.2 ++ [lrc ([m.1, m.2.1] ++ m.2.2)]) := by
  constructor
  · intro hm
    obtain ⟨before, digits, heq, hcolon⟩ := exists_hexPart_of_asciiParse hm
    rw [heq] at hm
    have hpairs := (asciiParse_eq_some_iff_unhexPairs before hcolon _ _ _).mp hm
    obtain rfl : t = before ++ chColon :: (digits ++ [chCr]) :=
      List.append_cancel_right (bs := [chLf]) (heq.trans (by simp))
    refine ⟨digits, pendingTail_eq_some.mpr ⟨afterLastColon_append ?_, partialTail_iff.mpr ?_⟩, hpairs⟩
    · rw [List.mem_append, not_or]
      exact ⟨hcolon, by decide⟩
    · exact ⟨digits, [chCr], rfl, (unhexPairs_some hpairs).2, .inr rfl⟩
  · rintro ⟨digits, htail, hpairs⟩
    obtain ⟨hcolon, before, rfl⟩ := afterLastColon_eq_some.mp (pendingTail_eq_some.mp htail).1
    have hcolon' : chColon ∉ digits := fun hmem => hcolon (List.mem_append_left _ hmem)
    simpa using (asciiParse_eq_some_iff_unhexPairs before hcolon' _ _ _).mpr hpairs

/-- Without a CR LF at its end a string is no frame. -/
theorem asciiParse_eq_none_of_crlfIndex (hnone : crlfIndex t = none) : asciiParse t = none := by
  by_contra hne
  obtain ⟨m, hm⟩ := Option.ne_none_iff_exists'.mp hne
  obtain ⟨before, digits, rfl, -⟩ := exists_hexPart_of_asciiParse hm
  exact absurd (crlfIndex_eq_none_of_append hnone) (by decide)

/-- The kept partial has the pending tail of the string it was kept from, unless the bound cut it off. -/
theorem pendingTail_keepPartial {bound : Nat} (hbound : ∀ h, afterLastColon t = some h → h.length + 1 ≤ bound) :
    pendingTail (keepPartial bound t) = pendingTail t := by
  rw [keepPartial_eq_pendingTail]
  cases htail : pendingTail t with
  | none => rfl
  | some h =>
    obtain ⟨hlast, hpartial⟩ := pendingTail_eq_some.mp htail
    have hcolon := (afterLastColon_eq_some.mp hlast).1
    simp only [hbound h hlast, if_true]
    exact pendingTail_eq_some.mpr ⟨afterLastColon_append (before := []) hcolon, hpartial⟩

theorem crlfIndex_keepPartial (bound : Nat) (hnone : crlfIndex t = none) : crlfIndex (keepPartial bound t) = none := by
  unfold keepPartial
  split
  · rfl
  · next h hlast =>
    obtain ⟨-, before, rfl⟩ := afterLastColon_eq_some.mp hlast
    split
    · exact crlfIndex_eq_none_of_append hnone
    · rfl

/-! ### One byte at a time -/

/-- The message one more byte completes, if any. -/
def completedBy (t : Bytes) (c : Byte) : List Triple :=
  if c = chLf then (asciiParse (t ++ [chLf])).toList else []

/-- A byte arrives behind a string without CR LF: the decoder answers the message it completes, and goes on with another
such string, of the pending tail that the byte gives. After a delimiter that string is empty. -/
theorem asciiSpans_append_cons (hnone : crlfIndex t = none) (c : Byte) (more : Bytes) :
    ∃ t', crlfIndex t' = none ∧ pendingTail t' = pendingTail (t ++ [c]) ∧
      spanMsgs (asciiSpans (t ++ c :: more)).1 = completedBy t c ++ spanMsgs (asciiSpans (t' ++ more)).1 ∧
      (asciiSpans (t ++ c :: more)).2 = (asciiSpans (t' ++ more)).2 := by
  rw [List.append_cons t c more]
  cases hc : crlfIndex (t ++ [c]) with
  | none =>
    have hnothing : completedBy t c = [] := by
      unfold completedBy
      split
      · next hlf => rw [← hlf, asciiParse_eq_none_of_crlfIndex hc, Option.toList_none]
      · rfl
    exact ⟨t ++ [c], hc, rfl, by rw [hnothing, List.nil_append], rfl⟩
  | some i =>
    obtain ⟨hi, rfl⟩ := crlfIndex_concat hnone hc
    refine ⟨[], rfl, (pendingTail_concat_chLf t).symm, ?_⟩
    rw [asciiSpans_some (crlfIndex_append more hc), hi, List.take_left, List.drop_left]
    cases hm : asciiParse (t ++ [chLf]) <;> simp [spanMsgs, completedBy, hm]

/-- Two strings without CR LF of one pending tail give the same messages with any later bytes, and keep the same at the end. -/
theorem asciiSpans_append_congr (bound : Nat) (more : Bytes) {t u : Bytes} (ht : crlfIndex t = none)
    (hu : crlfIndex u = none) (htail : pendingTail t = pendingTail u) :
    spanMsgs (asciiSpans (t ++ more)).1 = spanMsgs (asciiSpans (u ++ more)).1 ∧
      keepPartial bound (asciiSpans (t ++ more)).2 = keepPartial bound (asciiSpans (u ++ more)).2 := by
  induction more generalizing t u with
  | nil => simp [asciiSpans_none ht, asciiSpans_none hu, keepPartial_eq_pendingTail, htail]
  | cons c more ih =>
    obtain ⟨t', ht', htailt, hmsgst, hrestt⟩ := asciiSpans_append_cons ht c more
    obtain ⟨u', hu', htailu, hmsgsu, hrestu⟩ := asciiSpans_append_cons hu c more
    have hcompleted : completedBy t c = completedBy u c := by
      have hparse : asciiParse (t ++ [chLf]) = asciiParse (u ++ [chLf]) :=
        Option.ext fun m => by rw [asciiParse_concat_chLf, asciiParse_concat_chLf, htail]
      rw [completedBy, completedBy, hparse]
    have htail' : pendingTail t' = pendingTail u' := by
      rw [htailt, htailu, pendingTail_concat, pendingTail_concat, htail]
    obtain ⟨hmsgs, hkept⟩ := ih ht' hu' htail'
    rw [hmsgst, hmsgsu, hrestt, hrestu, hcompleted, hmsgs]
    exact ⟨rfl, hkept⟩

end

/-! ### PDEC_ASCII -/

/-- PDEC_ASCII within the operand limit; the counter wraps (43_protocol_decoder.md R206). -/
theorem exec_pdecAscii_of_le {s : State} {str : Bytes} (hstr : str.length ≤ s.par.operMax) :
    exec (.pdecAscii str) s = .next (State.answered
      { s with blk := { s.blk with
          rem := keepPartial s.par.asciiRemMax (asciiSpans (s.blk.rem ++ str)).2
          cntAsciiDrop := s.blk.cntAsciiDrop + BitVec.ofNat 32 (spanDrops (asciiSpans (s.blk.rem ++ str)).1) } }
      (okList (spanMsgs (asciiSpans (s.blk.rem ++ str)).1) s.blk.now)) := by
  simp only [exec, execPdecAscii, withOperand_of_le _ hstr, ret_eq, resultFrame_ok_list]
  rfl

/-- A colon with none behind it: the model's `keepPartial`, in R204's words. -/
theorem keepPartial_colon {tail : Bytes} (bound : Nat) (before : Bytes) (hcolon : chColon ∉ tail) :
    keepPartial bound (before ++ [chColon] ++ tail) =
      if partialTail tail ∧ tail.length + 1 ≤ bound then chColon :: tail else [] := by
  rw [List.append_assoc, List.singleton_append, keepPartial, afterLastColon_append hcolon]
  rfl

end Sys2Proof.Machine

namespace Sys2Proof

open Machine

/-- Settles O38: the rest of the first piece and the partial kept of it have one pending tail. -/
theorem asciiMessagesIgnoreChunking : Obligations.AsciiMessagesIgnoreChunking := by
  intro bound buf more hbound
  have hrest := crlfIndex_asciiSpans_rest buf
  obtain ⟨hmsgs, hkept⟩ := asciiSpans_append_congr bound more hrest (crlfIndex_keepPartial bound hrest)
    (pendingTail_keepPartial hbound).symm
  rw [asciiSpans_append, List.filterMap_append]
  exact ⟨congrArg _ hmsgs, hkept⟩

/-- Settles O35: no delimiter leaves all as rest; the first one ends the first span. -/
theorem asciiSpansEndAtFirstCrlf : Obligations.AsciiSpansEndAtFirstCrlf :=
  ⟨fun _ hnone => asciiSpans_none (crlfIndex_eq_none.mpr hnone),
    fun _ _ hcr hlf hfirst => asciiSpans_some (crlfIndex_eq_some.mpr ⟨⟨hcr, hlf⟩, hfirst⟩)⟩

/-- Settles O36: the last colon's tail is kept exactly when it is well formed and within the bound. -/
theorem keepPartialKeepsWellFormedTail : Obligations.KeepPartialKeepsWellFormedTail := by
  refine ⟨fun bound t hcolon => ?noColon, fun bound before tail hcolon hlen hformed => ?kept,
    fun bound before tail hcolon hbad => ?discarded⟩
  case noColon => rw [keepPartial, afterLastColon_eq_none.mpr hcolon]
  case kept => exact (keepPartial_colon bound before hcolon).trans (if_pos ⟨partialTail_iff.mpr hformed, hlen⟩)
  case discarded =>
    refine (keepPartial_colon bound before hcolon).trans (if_neg ?_)
    rintro ⟨hpartial, hlen⟩
    obtain hlong | hmalformed := hbad
    · omega
    · exact hmalformed (partialTail_iff.mp hpartial)

/-- Settles O37: the spans give the messages, and each span without one a drop. -/
theorem pdecAsciiDecodesSpans : Obligations.PdecAsciiDecodesSpans := by
  refine ⟨fun str h => ?decodes, fun s str spans rest h hspans => ?decoded, fun s str h => withOperand_of_lt _ h⟩
  case decodes =>
    rw [← lenPrefixed_eq]
    exact Laws.RoundTrip.pdecAscii str (decide_eq_true h)
  case decoded =>
    have hdrops : spanDrops spans = spans.length - (spanMsgs spans).length := by
      have := spanDrops_add_spanMsgs spans
      omega
    have hcount (n : Nat) : s.blk.cntAsciiDrop + BitVec.ofNat 32 n = BitVec.ofNat 32 (s.blk.cntAsciiDrop.toNat + n) := by
      rw [BitVec.ofNat_add, BitVec.ofNat_toNat, BitVec.setWidth_eq]
    rw [exec_pdecAscii_of_le h, hspans, hcount, hdrops]
    rfl

/-- Settles O39. -/
theorem pdecResetClearsRemainder : Obligations.PdecResetClearsRemainder := ⟨rfl, fun _ => rfl⟩

end Sys2Proof
end

section
/-! Results given and owed (44_control.md R226): a command frame adds one to their number, by a result given or by a receive that
pends; an event turns an owed result into a given one at most. -/

namespace Sys2Proof.Machine

/-- The results given so far and the one still owed, together. -/
def resultsDue (s : State) : Nat := s.results.length + owed s.blk

@[simp] theorem resultsDue_answered (s : State) (frame : Bytes) : resultsDue (s.answered frame) = resultsDue s + 1 := by
  simp only [resultsDue, State.answered_results, State.answered_blk, List.length_append, List.length_singleton]
  omega

/-- What counts is the results given and the pending receive, no other part of the state. -/
theorem resultsDue_congr {s t : State} (hresults : t.results = s.results) (hrecv : t.blk.recv = s.blk.recv) :
    resultsDue t = resultsDue s := by
  simp only [resultsDue, owed, hresults, hrecv]

/-- No result is owed after the pending receive's result is given. -/
theorem resultsDue_of_recv_done {s t : State} {r : U32} (hr : s.blk.recv = some r) (hrecv : t.blk.recv = none)
    (hresults : t.results.length = s.results.length + 1) : resultsDue t = resultsDue s := by
  simp only [resultsDue, owed, hr, hrecv, hresults]

/-- STOPPED is given exactly when a result is owed. -/
theorem length_stoppedFrames (b : Block) : (stoppedFrames b).length = owed b := by
  unfold stoppedFrames owed
  cases b.recv with
  | none => rfl
  | some r => rfl

/-- A command that first ends the pending receive with STOPPED (RESET, FR_STOP) gives one result more than was owed. -/
theorem resultsDue_of_stoppedFrames {s t : State} (hrecv : t.blk.recv = none)
    (hresults : t.results = s.results ++ stoppedFrames s.blk ++ [okFrame]) : resultsDue t = resultsDue s + 1 := by
  simp only [resultsDue, hresults, List.length_append, length_stoppedFrames, List.length_singleton, owed, hrecv]

/-! ### Events -/

theorem resultsDue_enterFault (code : FCode) (s : State) : resultsDue (enterFault code s) = resultsDue s := by
  cases hr : s.blk.recv with
  | none =>
    rw [enterFault_of_none code hr]
    exact resultsDue_congr rfl rfl
  | some r =>
    rw [enterFault_of_pending code hr]
    exact resultsDue_of_recv_done hr rfl List.length_append

theorem resultsDue_complete (s : State) : resultsDue (complete s) = resultsDue s := by
  rcases complete_cases s with ⟨r, hr, he⟩ | ⟨-, -, he⟩ | ⟨-, -, -, he⟩ | ⟨-, -, -, he⟩ | ⟨-, -, -, he⟩ <;> rw [he]
  · exact resultsDue_of_recv_done hr rfl List.length_append
  all_goals exact resultsDue_congr rfl rfl

theorem resultsDue_completeIfFull (s : State) : resultsDue (completeIfFull s) = resultsDue s := by
  rcases completeIfFull_cases s with ⟨-, he⟩ | ⟨-, he⟩ <;> rw [he]
  exact resultsDue_complete s

theorem resultsDue_rxTurn (s : State) : resultsDue (rxTurn s) = resultsDue s := by
  rcases rxTurn_cases s with ⟨-, he⟩ | ⟨x, line, -, -, he⟩ | ⟨x, line, -, -, he⟩ | ⟨x, line, -, -, he⟩ <;> rw [he]
  · exact resultsDue_congr rfl rfl
  · exact resultsDue_completeIfFull _
  · exact resultsDue_completeIfFull _

theorem resultsDue_readerTick (s : State) : resultsDue (readerTick s) = resultsDue s := by
  rcases readerTick_cases s with ⟨-, he⟩ | ⟨-, n, -, he⟩ | ⟨-, -, he⟩ | ⟨-, -, he⟩ <;> rw [he]
  · exact resultsDue_congr rfl rfl
  · exact resultsDue_congr rfl rfl
  · exact resultsDue_complete _

theorem resultsDue_recvTick (s : State) : resultsDue (recvTick s) = resultsDue s := by
  rcases recvTick_cases s with ⟨-, he⟩ | ⟨hr, he⟩ | ⟨r, hr, -, he⟩ <;> rw [he]
  · exact resultsDue_of_recv_done hr rfl List.length_append
  · simp only [resultsDue, owed, hr, State.setBlk_blk, State.setBlk_results]

theorem resultsDue_tick (s : State) : resultsDue (tick s) = resultsDue s :=
  (resultsDue_recvTick _).trans (resultsDue_readerTick _)

theorem resultsDue_rxError (s : State) : resultsDue (rxError s) = resultsDue s := by
  rcases rxError_cases s with ⟨-, he⟩ | ⟨-, he⟩ <;> rw [he]
  exact resultsDue_enterFault _ s

/-! ### Commands -/

theorem recv_writeCfg (r : CfgReg) (v : U32) (b : Block) : (writeCfg r v b).recv = b.recv := by
  cases r <;> rfl

theorem recv_afterPop (q : List Bytes) (b : Block) : (afterPop q b).recv = b.recv := by
  unfold afterPop
  split
  · rfl
  · rfl

/-- A command that leaves a pending receive as it is gives one result. -/
theorem resultsDue_answered_of_recv {s : State} {b : Block} (tx frame : Bytes) (hrecv : b.recv = s.blk.recv) :
    resultsDue (State.answered { s with blk := b, tx := tx } frame) = resultsDue s + 1 :=
  (resultsDue_answered _ frame).trans (congrArg (· + 1) (resultsDue_congr rfl hrecv))

/-- A command gives one result beside the one owed for a receive it ends; or it pends a receive, and owes one. -/
theorem resultsDue_exec {s t : State} {i : Instr} (he : exec i s = .next t) : resultsDue t = resultsDue s + 1 := by
  rcases exec_cases i s with ⟨frame, hi⟩ | ⟨-, hi⟩ | ⟨idx, v, r, -, -, -, -, hi⟩ | ⟨crc, lrc, hi⟩ | ⟨n, hi⟩ |
    ⟨n, m, rem, ms, -, hi⟩ | ⟨-, -, -, hi⟩ | ⟨-, -, hi⟩ | ⟨str, -, -, hi⟩ | ⟨v, c, q, -, -, -, hi⟩ |
    ⟨v, -, -, hnone, -, -, hi⟩ | ⟨-, hi⟩ <;> cases hi.symm.trans he
  · exact resultsDue_answered_of_recv _ frame rfl
  · exact resultsDue_of_stoppedFrames rfl rfl
  · exact resultsDue_answered_of_recv _ okFrame (recv_writeCfg r v s.blk)
  · exact resultsDue_answered_of_recv _ okFrame rfl
  · exact resultsDue_answered_of_recv _ [0x01#8] rfl
  · exact resultsDue_answered_of_recv _ (0x00#8 :: ms) rfl
  · exact resultsDue_answered_of_recv _ okFrame rfl
  · exact resultsDue_of_stoppedFrames rfl rfl
  · exact resultsDue_answered_of_recv _ okFrame rfl
  · exact resultsDue_answered_of_recv _ (okStr c) (recv_afterPop q s.blk)
  · simp only [resultsDue, owed, hnone]
  · exact resultsDue_answered_of_recv _ okFrame rfl

/-- A frame that is no command gets its `ERR_*` result at once. -/
theorem runFrame_of_decode_error {frame : Bytes} {r : Reject} (h : decode frame = .error r) (s : State) :
    runFrame frame s = .next (s.answered [(rejectStatus r).code]) := by
  simp only [runFrame, h, raise_eq]

/-- Every command frame adds one to the results given and owed, a rejected one too. -/
theorem resultsDue_runFrame {s t : State} {frame : Bytes} (he : runFrame frame s = .next t) :
    resultsDue t = resultsDue s + 1 := by
  cases hdec : decode frame with
  | error r =>
    cases (runFrame_of_decode_error hdec s).symm.trans he
    exact resultsDue_answered s _
  | ok i => exact resultsDue_exec ((runFrame_of_decode_ok hdec s).symm.trans he)

/-- A turn that takes no command frame adds none. -/
theorem resultsDue_runTurn {s t : State} {turn : Turn} (hframe : turn = .host → s.cmds = [])
    (he : runTurn turn s = .next t) : resultsDue t = resultsDue s := by
  cases turn with
  | host =>
    cases (hostTurn_of_no_frame (hframe rfl)).symm.trans he
    rfl
  | clock =>
    cases he
    exact resultsDue_tick s
  | rxByte =>
    cases he
    exact resultsDue_rxTurn s
  | rxError =>
    cases he
    exact resultsDue_rxError s

end Sys2Proof.Machine

namespace Sys2Proof

open Machine

/-- Settles O53: by the head of the schedule; a Host turn that takes no frame finds none waiting. -/
theorem everyCommandFrameGetsOneResult : Obligations.EveryCommandFrameGetsOneResult := by
  refine fun s t he => ⟨fun ⟨sched, frame, cmds, hsched, hcmds⟩ => ?frame, fun hnone => ?noFrame⟩
  case frame =>
    exact resultsDue_runFrame (s := { s with cmds := cmds, sched := sched })
      ((step_host_frame hsched hcmds).symm.trans he)
  case noFrame =>
    cases hsched : s.sched with
    | nil =>
      cases (step_of_no_turn hsched).symm.trans he
      rfl
    | cons turn sched =>
      refine resultsDue_runTurn (s := { s with sched := sched }) ?_ ((step_of_turn hsched).symm.trans he)
      rintro rfl
      refine List.eq_nil_iff_forall_not_mem.mpr fun frame hmem => ?_
      obtain ⟨first, cmds, hcmds⟩ := List.exists_cons_of_ne_nil (List.ne_nil_of_mem hmem)
      exact hnone ⟨sched, first, cmds, hsched, hcmds⟩

end Sys2Proof
end

section
/-! Rejected command frames (44_control.md R223, R224): illegal exactly when the opcode is, otherwise malformed. -/

namespace Sys2Proof

section

variable {rest : Bytes}

@[simp] theorem fieldsN_ne_illegal {i : Instr} : fieldsN rest i ≠ .error .illegal := by
  unfold fieldsN
  split <;> simp

@[simp] theorem fieldsB_ne_illegal {mk : Byte → Instr} : fieldsB rest mk ≠ .error .illegal := by
  unfold fieldsB
  split <;> simp

@[simp] theorem fieldsW_ne_illegal {mk : Byte → U32 → Instr} : fieldsW rest mk ≠ .error .illegal := by
  unfold fieldsW
  split <;> simp

@[simp] theorem fieldsT_ne_illegal {mk : U32 → Instr} : fieldsT rest mk ≠ .error .illegal := by
  unfold fieldsT
  split <;> simp

@[simp] theorem fieldsS_ne_illegal {mk : Bytes → Instr} : fieldsS rest mk ≠ .error .illegal := by
  unfold fieldsS
  split
  · split <;> simp
  · simp

@[simp] theorem fieldsK_ne_illegal {mk : Byte → Bytes → Instr} : fieldsK rest mk ≠ .error .illegal := by
  unfold fieldsK
  split <;> simp

@[simp] theorem fieldsM_ne_illegal {mk : Byte → Byte → Bytes → Instr} : fieldsM rest mk ≠ .error .illegal := by
  unfold fieldsM
  split <;> simp

end

open Machine

/-- The decoder calls a frame illegal by its opcode alone (30_encoding.md R99): the fields of a legal opcode are never illegal. -/
theorem decode_eq_illegal_iff (opc : Byte) (rest : Bytes) :
    decode (opc :: rest) = .error .illegal ↔ opc.toNat ∉ legalOpcodes := by
  unfold decode
  dsimp only
  split
  case h_24 => exact iff_of_true rfl (by simp_all [legalOpcodes])
  all_goals simp [legalOpcodes, *]

/-- A legal opcode with another length than its format's (R100). -/
theorem decode_eq_malformed {opc : Byte} {rest : Bytes} (hopc : opc.toNat ∈ legalOpcodes)
    (hlen : frameLength (opc :: rest) ≠ some (opc :: rest).length) : decode (opc :: rest) = .error .malformed := by
  cases hdec : decode (opc :: rest) with
  | ok i => exact absurd ((decode_ok_iff_frameLength _).mp ⟨i, hdec⟩) hlen
  | error r =>
    cases r with
    | illegal => exact absurd hopc ((decode_eq_illegal_iff opc rest).mp hdec)
    | malformed => rfl

/-- Settles O3: the decoder's reason for the rejection gives the status. -/
theorem rejectedFramesChangeNothing : Obligations.RejectedFramesChangeNothing := by
  intro s frame cmds sched hsched hcmds
  rw [step_host_frame hsched hcmds]
  refine ⟨fun opc rest hframe hopc => ?illegal, fun hframe => ?empty, fun opc rest hframe hopc hlen => ?length⟩
  case illegal => exact runFrame_of_decode_error (hframe ▸ (decode_eq_illegal_iff opc rest).mpr hopc) _
  case empty => exact runFrame_of_decode_error (r := .malformed) (hframe ▸ rfl) _
  case length =>
    subst hframe
    exact runFrame_of_decode_error (decode_eq_malformed hopc hlen) _

end Sys2Proof
end

section
/-! The control commands (44_control.md R220 to R222): each by what its index names and what it checks. -/

namespace Sys2Proof.Machine

variable {s : State} {idx : Byte} {r : CfgReg} {v : U32}

theorem exec_reset (s : State) : exec .reset s =
    .next { s with blk := Block.reset, results := s.results ++ stoppedFrames s.blk ++ [okFrame] } := by
  simp only [exec, execReset, resetBlock_eq]
  rfl

/-! ### Register indices -/

/-- The configuration registers end at index 0x05 (10_state.md R46). -/
theorem cfgRegOfIndex_eq_none_iff (idx : Byte) : CfgReg.ofIndex idx = none ↔ 0x06 ≤ idx.toNat := by
  unfold CfgReg.ofIndex
  split
  case h_7 => grind
  all_goals simp [*]

/-- The read-only registers stand at 0x10 to 0x19 (R46). -/
theorem roRegOfIndex_eq_none_iff (idx : Byte) : RoReg.ofIndex idx = none ↔ idx.toNat ≤ 0x0F ∨ 0x1A ≤ idx.toNat := by
  unfold RoReg.ofIndex
  split
  case h_11 => grind
  all_goals simp [*]

/-- The reserved indices (R46). -/
theorem regOfIndex_eq_none (h : 0x06 ≤ idx.toNat ∧ idx.toNat ≤ 0x0F ∨ 0x1A ≤ idx.toNat) : Reg.ofIndex idx = none := by
  have hcfg : CfgReg.ofIndex idx = none := (cfgRegOfIndex_eq_none_iff idx).mpr (by omega)
  have hro : RoReg.ofIndex idx = none := (roRegOfIndex_eq_none_iff idx).mpr (by omega)
  simp only [Reg.ofIndex, hcfg, hro]

/-! ### CFG_RD -/

theorem exec_cfgRd_of_reserved (h : Reg.ofIndex idx = none) : exec (.cfgRd idx) s = .next (s.answered [0x86#8]) := by
  simp only [exec, execCfgRd, h]
  rfl

theorem exec_cfgRd_of_cfg (r : CfgReg) (s : State) (h : Reg.ofIndex idx = some (.cfg r)) :
    exec (.cfgRd idx) s = .next (s.answered (cfgAnswer (readCfg r s.blk))) := by
  simp only [exec, execCfgRd, h, readReg]
  cases readCfg r s.blk with
  | none => rfl
  | some v => simp only [ret_eq, resultFrame_ok_u32, cfgAnswer]

theorem exec_cfgRd_of_ro (r : RoReg) (s : State) (h : Reg.ofIndex idx = some (.ro r)) :
    exec (.cfgRd idx) s = .next (s.answered (okU32 (readRo r s))) := by
  simp only [exec, execCfgRd, h, readReg, ret_eq, resultFrame_ok_u32]

/-! ### CFG_WR, in the order of its checks (44_control.md R225) -/

theorem exec_cfgWr_of_ge (h : 0x06 ≤ idx.toNat) : exec (.cfgWr idx v) s = .next (s.answered [0x86#8]) := by
  simp only [exec, execCfgWr, (cfgRegOfIndex_eq_none_iff idx).mpr h]
  rfl

theorem exec_cfgWr_of_running (h : idx.toNat ≤ 0x05) (hrun : s.blk.fstate = .running) :
    exec (.cfgWr idx v) s = .next (s.answered [0x84#8]) := by
  obtain ⟨r, hr⟩ : ∃ r, CfgReg.ofIndex idx = some r :=
    Option.ne_none_iff_exists'.mp fun hnone => by have := (cfgRegOfIndex_eq_none_iff idx).mp hnone; omega
  simp only [exec, execCfgWr, hr, if_pos hrun]
  rfl

theorem exec_cfgWr_of_accepts (r : CfgReg) (hrun : s.blk.fstate ≠ .running) (hr : CfgReg.ofIndex idx = some r)
    (hv : r.accepts v = true) :
    exec (.cfgWr idx v) s = .next (State.answered { s with blk := writeCfg r v s.blk } okFrame) := by
  simp only [exec, execCfgWr, hr, if_neg hrun, if_pos hv]
  rfl

theorem exec_cfgWr_of_not_accepts (r : CfgReg) (hrun : s.blk.fstate ≠ .running) (hr : CfgReg.ofIndex idx = some r)
    (hv : ¬ r.accepts v = true) : exec (.cfgWr idx v) s = .next (s.answered [0x85#8]) := by
  simp only [exec, execCfgWr, hr, if_neg hrun, if_neg hv]
  rfl

/-- What the 1-bit registers take (10_state.md R28, R29). -/
theorem accepts_bit_iff (h : r = .duplex ∨ r = .term) : r.accepts v = true ↔ v.toNat ≤ 1 := by
  have hbit : (v = 0#32 ∨ v = 1#32) ↔ v.toNat ≤ 1 := by bv_omega
  rcases h with rfl | rfl <;> exact decide_eq_true_iff.trans hbit

/-- What the registers that may not be 0 take (R25, R27). -/
theorem accepts_nonzero_iff (h : r = .tIb ∨ r = .baud) : r.accepts v = true ↔ v ≠ 0#32 := by
  rcases h with rfl | rfl <;> exact decide_eq_true_iff

end Sys2Proof.Machine

namespace Sys2Proof

open Machine

/-- Settles O8. -/
theorem resetCommandResetsBlock : Obligations.ResetCommandResetsBlock := ⟨Laws.RoundTrip.reset rfl, exec_reset⟩

/-- Settles O9: each index by the register it names; a narrower register reads zero-extended. -/
theorem cfgRdReadsRegisterMap : Obligations.CfgRdReadsRegisterMap := by
  refine ⟨fun idx => Laws.RoundTrip.cfgRd idx rfl, fun s idx h => exec_cfgRd_of_reserved (regOfIndex_eq_none h), fun s => ?_⟩
  simp only [BitVec.ofNat_toNat]
  exact ⟨exec_cfgRd_of_cfg .tInit s rfl, exec_cfgRd_of_cfg .tIb s rfl, exec_cfgRd_of_cfg .port s rfl,
    exec_cfgRd_of_cfg .baud s rfl, exec_cfgRd_of_cfg .duplex s rfl, exec_cfgRd_of_cfg .term s rfl,
    exec_cfgRd_of_ro .status s rfl, exec_cfgRd_of_ro .qcount s rfl, exec_cfgRd_of_ro .now s rfl,
    exec_cfgRd_of_ro .cntAsciiDrop s rfl, exec_cfgRd_of_ro .cntRtuDrop s rfl, exec_cfgRd_of_ro .cntChunkDrop s rfl,
    exec_cfgRd_of_ro .remLen s rfl, exec_cfgRd_of_ro .crcAcc s rfl, exec_cfgRd_of_ro .lrcAcc s rfl,
    exec_cfgRd_of_ro .chunkLen s rfl⟩

/-- Settles O10: the index, then the run state, then the value the register takes. -/
theorem cfgWrWritesOneRegister : Obligations.CfgWrWritesOneRegister := by
  refine ⟨fun idx v => ?decodes, fun s idx v => exec_cfgWr_of_ge, fun s idx v => exec_cfgWr_of_running, fun s v hrun => ?writes⟩
  case decodes =>
    rw [← le32_eq]
    exact Laws.RoundTrip.cfgWr idx v rfl
  case writes =>
    simp only [BitVec.ofNat_toNat]
    refine ⟨exec_cfgWr_of_accepts .tInit hrun rfl rfl, fun hv => ?tIb, fun hv => ?tIbZero,
      exec_cfgWr_of_accepts .port hrun rfl rfl, fun hv => ?baud, fun hv => ?baudZero,
      fun hv => ?duplex, fun hv => ?duplexWide, fun hv => ?term, fun hv => ?termWide⟩
    case tIb => exact exec_cfgWr_of_accepts .tIb hrun rfl ((accepts_nonzero_iff (.inl rfl)).mpr hv)
    case tIbZero => exact exec_cfgWr_of_not_accepts .tIb hrun rfl (mt (accepts_nonzero_iff (.inl rfl)).mp (not_not_intro hv))
    case baud => exact exec_cfgWr_of_accepts .baud hrun rfl ((accepts_nonzero_iff (.inr rfl)).mpr hv)
    case baudZero => exact exec_cfgWr_of_not_accepts .baud hrun rfl (mt (accepts_nonzero_iff (.inr rfl)).mp (not_not_intro hv))
    case duplex => exact exec_cfgWr_of_accepts .duplex hrun rfl ((accepts_bit_iff (.inl rfl)).mpr hv)
    case duplexWide => exact exec_cfgWr_of_not_accepts .duplex hrun rfl (mt (accepts_bit_iff (.inl rfl)).mp (Nat.not_le.mpr hv))
    case term => exact exec_cfgWr_of_accepts .term hrun rfl ((accepts_bit_iff (.inr rfl)).mpr hv)
    case termWide => exact exec_cfgWr_of_not_accepts .term hrun rfl (mt (accepts_bit_iff (.inr rfl)).mp (Nat.not_le.mpr hv))

end Sys2Proof
end

section
/-! Every step answers a next state (60_exceptions.md R240): the parameters stay (10_state.md R23), and the TX stream and the
result port only grow (R48). -/

namespace Sys2Proof.Machine

/-- From `s` to `t` the parameters stayed, and the block's two output streams grew at their ends or not at all. -/
def Extends (s t : State) : Prop := t.par = s.par ∧ s.tx <+: t.tx ∧ s.results <+: t.results

theorem Extends.refl (s : State) : Extends s s := ⟨rfl, List.prefix_rfl, List.prefix_rfl⟩

theorem Extends.trans {s t u : State} (h : Extends s t) (h' : Extends t u) : Extends s u := by
  obtain ⟨hpar, htx, hresults⟩ := h
  obtain ⟨hpar', htx', hresults'⟩ := h'
  exact ⟨hpar'.trans hpar, htx.trans htx', hresults.trans hresults'⟩

/-- The block's state vector is no output. -/
theorem extends_setBlk (s : State) (b : Block) : Extends s (s.setBlk b) := ⟨rfl, List.prefix_rfl, List.prefix_rfl⟩

theorem Extends.answered {s t : State} (h : Extends s t) (frame : Bytes) : Extends s (t.answered frame) :=
  h.trans ⟨rfl, List.prefix_rfl, List.prefix_append _ _⟩

/-! ### Events -/

theorem extends_enterFault (code : FCode) (s : State) : Extends s (enterFault code s) := by
  cases hr : s.blk.recv with
  | none =>
    rw [enterFault_of_none code hr]
    exact extends_setBlk s _
  | some r =>
    rw [enterFault_of_pending code hr]
    exact (extends_setBlk s _).answered _

theorem extends_complete (s : State) : Extends s (complete s) := by
  rcases complete_cases s with ⟨r, -, he⟩ | ⟨-, -, he⟩ | ⟨-, -, -, he⟩ | ⟨-, -, -, he⟩ | ⟨-, -, -, he⟩ <;> rw [he]
  · exact (extends_setBlk s _).answered _
  all_goals exact extends_setBlk s _

theorem extends_completeIfFull (s : State) : Extends s (completeIfFull s) := by
  rcases completeIfFull_cases s with ⟨-, he⟩ | ⟨-, he⟩ <;> rw [he]
  · exact .refl s
  · exact extends_complete s

theorem extends_rxTurn (s : State) : Extends s (rxTurn s) := by
  rcases rxTurn_cases s with ⟨-, he⟩ | ⟨x, line, -, -, he⟩ | ⟨x, line, -, -, he⟩ | ⟨x, line, -, -, he⟩ <;> rw [he]
  · exact .refl s
  · exact ⟨rfl, List.prefix_rfl, List.prefix_rfl⟩
  · exact extends_completeIfFull _
  · exact extends_completeIfFull _

theorem extends_readerTick (s : State) : Extends s (readerTick s) := by
  rcases readerTick_cases s with ⟨-, he⟩ | ⟨-, n, -, he⟩ | ⟨-, -, he⟩ | ⟨-, -, he⟩ <;> rw [he]
  · exact .refl s
  · exact extends_setBlk s _
  · exact extends_setBlk s _
  · exact extends_complete _

theorem extends_recvTick (s : State) : Extends s (recvTick s) := by
  rcases recvTick_cases s with ⟨-, he⟩ | ⟨-, he⟩ | ⟨r, -, -, he⟩ <;> rw [he]
  · exact .refl s
  · exact (extends_setBlk s _).answered _
  · exact extends_setBlk s _

theorem extends_tick (s : State) : Extends s (tick s) :=
  ((extends_setBlk s _).trans (extends_readerTick _)).trans (extends_recvTick _)

theorem extends_rxError (s : State) : Extends s (rxError s) := by
  rcases rxError_cases s with ⟨-, he⟩ | ⟨-, he⟩ <;> rw [he]
  · exact .refl s
  · exact extends_enterFault _ s

/-! ### Commands -/

/-- A command that ends the pending receive (RESET, FR_STOP) gives STOPPED, when it is owed, and then its own result. -/
theorem extends_stopped (s : State) (b : Block) :
    Extends s { s with blk := b, results := s.results ++ stoppedFrames s.blk ++ [okFrame] } :=
  ⟨rfl, List.prefix_rfl, (List.prefix_append _ _).trans (List.prefix_append _ _)⟩

/-- Every command answers a next state, an error status too (30_encoding.md R105). -/
theorem exec_extends (i : Instr) (s : State) : ∃ t, exec i s = .next t ∧ Extends s t := by
  rcases exec_cases i s with ⟨frame, hi⟩ | ⟨-, hi⟩ | ⟨idx, v, r, -, -, -, -, hi⟩ | ⟨crc, lrc, hi⟩ | ⟨n, hi⟩ |
    ⟨n, m, rem, ms, -, hi⟩ | ⟨-, -, -, hi⟩ | ⟨-, -, hi⟩ | ⟨str, -, -, hi⟩ | ⟨v, c, q, -, -, -, hi⟩ |
    ⟨v, -, -, -, -, -, hi⟩ | ⟨-, hi⟩ <;> refine ⟨_, hi, ?_⟩
  · exact (Extends.refl s).answered frame
  · exact extends_stopped s _
  · exact (extends_setBlk s _).answered okFrame
  · exact (extends_setBlk s _).answered okFrame
  · exact (extends_setBlk s _).answered [0x01#8]
  · exact (extends_setBlk s _).answered (0x00#8 :: ms)
  · exact (extends_setBlk s _).answered okFrame
  · exact extends_stopped s _
  · exact ⟨rfl, List.prefix_append _ _, List.prefix_append _ _⟩
  · exact (extends_setBlk s _).answered (okStr c)
  · exact extends_setBlk s _
  · exact (extends_setBlk s _).answered okFrame

end Sys2Proof.Machine

namespace Sys2Proof

open Machine

/-- Settles O50: each turn answers a next state, and its command or event only extends the output. -/
theorem stepNeverStops : Obligations.StepNeverStops := by
  intro s
  rcases step_cases s with ⟨-, hs⟩ | ⟨sched, -, -, hs⟩ | ⟨sched, frame, cmds, r, -, -, -, hs⟩ |
    ⟨sched, frame, cmds, i, -, -, -, hs⟩ | ⟨sched, -, hs⟩ | ⟨sched, -, hs⟩ | ⟨sched, -, hs⟩
  · exact ⟨_, hs, Extends.refl s⟩
  · exact ⟨_, hs, Extends.refl s⟩
  · exact ⟨_, hs, (Extends.refl s).answered _⟩
  · rw [hs]
    exact exec_extends i { s with cmds := cmds, sched := sched }
  · exact ⟨_, hs, extends_tick { s with sched := sched }⟩
  · exact ⟨_, hs, extends_rxTurn { s with sched := sched }⟩
  · exact ⟨_, hs, extends_rxError { s with sched := sched }⟩

end Sys2Proof
end

section
/-! FAULTED (60_exceptions.md R248): in it the reader is off, so no event moves the framer, and of the commands only RESET does. -/

namespace Sys2Proof.Machine

variable {s : State}

/-- The framer of `c` is faulted, with the cause it had in `b`. -/
def FaultKept (b c : Block) : Prop := c.fstate = .faulted ∧ c.fcode = b.fcode

/-- The reader runs with the framer only (10_state.md R47). -/
theorem StateInvariants.rstate_off_of_faulted {p : Params} {b : Block} (h : StateInvariants p b) (hf : b.fstate = .faulted) :
    b.rstate = .off :=
  h.readerOff.mpr (by simp [hf])

/-! ### Events -/

/-- No byte reaches a chunk, so none completes: the queue cannot overflow and replace the cause. -/
theorem faultKept_rxTurn (hf : s.blk.fstate = .faulted) (hoff : s.blk.rstate = .off) : FaultKept s.blk (rxTurn s).blk := by
  cases hline : s.rxLine with
  | nil =>
    rw [rxTurn_of_empty_line hline]
    exact ⟨hf, rfl⟩
  | cons x line =>
    rw [rxTurn_of_off hline hoff]
    exact ⟨hf, rfl⟩

/-- Nor does a timeout complete one. -/
theorem faultKept_tick (hf : s.blk.fstate = .faulted) (hoff : s.blk.rstate = .off) : FaultKept s.blk (tick s).blk := by
  obtain ⟨r, hblk⟩ := exists_recv_of_recvTick (s.setBlk { s.blk with now := s.blk.now + 1#32 })
  rw [tick, readerTick_of_idle (s := s.setBlk { s.blk with now := s.blk.now + 1#32 }) (.inl hoff), hblk]
  exact ⟨hf, rfl⟩

/-- A transport error faults a running framer only: it does not replace the cause (42_byte_framer.md R172). -/
theorem faultKept_rxError (hf : s.blk.fstate = .faulted) : FaultKept s.blk (rxError s).blk := by
  rcases rxError_cases s with ⟨-, he⟩ | ⟨hrun, -⟩
  · rw [he]
    exact ⟨hf, rfl⟩
  · exact nomatch hf.symm.trans hrun

/-! ### Commands -/

theorem faultKept_writeCfg {b : Block} (hf : b.fstate = .faulted) (r : CfgReg) (v : U32) : FaultKept b (writeCfg r v b) := by
  cases r <;> exact ⟨hf, rfl⟩

theorem faultKept_afterPop {b : Block} (hf : b.fstate = .faulted) (q : List Bytes) : FaultKept b (afterPop q b) := by
  unfold afterPop
  split
  · exact ⟨hf, rfl⟩
  · exact ⟨hf, rfl⟩

/-- FR_START is refused, FR_STOP does nothing, and the rest leave the framer's state alone: only RESET clears the fault. -/
theorem exec_faultKept {t : State} {i : Instr} (hf : s.blk.fstate = .faulted) (he : exec i s = .next t) :
    FaultKept s.blk t.blk ∨ i = .reset := by
  rcases exec_cases i s with ⟨frame, hi⟩ | ⟨hreset, -⟩ | ⟨idx, v, r, -, -, -, -, hi⟩ | ⟨crc, lrc, hi⟩ | ⟨n, hi⟩ |
    ⟨n, m, rem, ms, -, hi⟩ | ⟨-, hidle | hstopped, -, -⟩ | ⟨-, hrun, -⟩ | ⟨str, -, hrun, -⟩ | ⟨v, c, q, -, -, -, hi⟩ |
    ⟨v, -, -, -, -, hrun, -⟩ | ⟨-, hi⟩
  · cases hi.symm.trans he
    exact .inl ⟨hf, rfl⟩
  · exact .inr hreset
  · cases hi.symm.trans he
    exact .inl (faultKept_writeCfg hf r v)
  · cases hi.symm.trans he
    exact .inl ⟨hf, rfl⟩
  · cases hi.symm.trans he
    exact .inl ⟨hf, rfl⟩
  · cases hi.symm.trans he
    exact .inl ⟨hf, rfl⟩
  · exact nomatch hf.symm.trans hidle
  · exact nomatch hf.symm.trans hstopped
  · exact nomatch hf.symm.trans hrun
  · exact nomatch hf.symm.trans hrun
  · cases hi.symm.trans he
    exact .inl (faultKept_afterPop hf q)
  · exact nomatch hf.symm.trans hrun
  · cases hi.symm.trans he
    exact .inl ⟨hf, rfl⟩

end Sys2Proof.Machine

namespace Sys2Proof

open Machine

/-- Settles O55: events leave a faulted framer alone, and the one command that does not is RESET, whose one frame is 01. -/
theorem faultLeftOnlyByReset : Obligations.FaultLeftOnlyByReset := by
  intro s t hinv hf he
  have hoff := hinv.rstate_off_of_faulted hf
  rcases step_cases s with ⟨-, hs⟩ | ⟨sched, -, -, hs⟩ | ⟨sched, frame, cmds, r, -, -, -, hs⟩ |
    ⟨sched, frame, cmds, i, hsched, hcmds, hdec, hs⟩ | ⟨sched, -, hs⟩ | ⟨sched, -, hs⟩ | ⟨sched, -, hs⟩
  · cases hs.symm.trans he
    exact .inl ⟨hf, rfl⟩
  · cases hs.symm.trans he
    exact .inl ⟨hf, rfl⟩
  · cases hs.symm.trans he
    exact .inl ⟨hf, rfl⟩
  · rcases exec_faultKept (s := { s with cmds := cmds, sched := sched }) hf (hs.symm.trans he) with hkept | rfl
    · exact .inl hkept
    · obtain ⟨-, hframe⟩ := wellFormed_and_encode_of_decode hdec
      subst hframe
      exact .inr ⟨sched, cmds, hsched, hcmds⟩
  · cases hs.symm.trans he
    exact .inl (faultKept_tick (s := { s with sched := sched }) hf hoff)
  · cases hs.symm.trans he
    exact .inl (faultKept_rxTurn (s := { s with sched := sched }) hf hoff)
  · cases hs.symm.trans he
    exact .inl (faultKept_rxError (s := { s with sched := sched }) hf)

end Sys2Proof
end

section
/-! CFG_WR and the CFG_RD after it (70_reset_and_hazards.md R289): the write is seen by the next read, at full width. -/

namespace Sys2Proof.Machine

variable {s t : State} {idx : Byte} {r : CfgReg} {v : U32}

theorem regOfIndex_of_cfg (h : CfgReg.ofIndex idx = some r) : Reg.ofIndex idx = some (.cfg r) := by
  simp only [Reg.ofIndex, h]

/-- A value that fits in one bit loses nothing in a 1-bit register. -/
theorem setWidth_setWidth_one_of_le (h : v.toNat ≤ 1) : (v.setWidth 1).setWidth 32 = v := by
  apply BitVec.eq_of_toNat_eq
  simp only [BitVec.toNat_setWidth]
  omega

theorem readCfg_writeCfg_of_accepts (b : Block) (hv : r.accepts v = true) : readCfg r (writeCfg r v b) = some v := by
  cases r with
  | tInit | tIb | port | baud => rfl
  | duplex => exact congrArg some (setWidth_setWidth_one_of_le ((accepts_bit_iff (.inl rfl)).mp hv))
  | term => exact congrArg some (setWidth_setWidth_one_of_le ((accepts_bit_iff (.inr rfl)).mp hv))

/-- CFG_WR answers OK only when it writes: every check that fails gives an error frame (44_control.md R222). -/
theorem cfgWr_accepted_of_ok (he : exec (.cfgWr idx v) s = .next t) (hok : t.results = s.results ++ [okFrame]) :
    ∃ r, CfgReg.ofIndex idx = some r ∧ r.accepts v = true ∧ t.blk = writeCfg r v s.blk := by
  have not_error {e : Byte} (h : e ≠ 0x00#8) : exec (.cfgWr idx v) s ≠ .next (s.answered [e]) := fun herr => by
    cases herr.symm.trans he
    exact h (by simpa [okFrame] using hok)
  cases hr : CfgReg.ofIndex idx with
  | none => exact absurd (exec_cfgWr_of_ge ((cfgRegOfIndex_eq_none_iff idx).mp hr)) (not_error (by decide))
  | some r =>
    by_cases hrun : s.blk.fstate = .running
    · have hidx : idx.toNat ≤ 0x05 := by
        have := mt (cfgRegOfIndex_eq_none_iff idx).mpr (by simp [hr])
        omega
      exact absurd (exec_cfgWr_of_running hidx hrun) (not_error (by decide))
    · by_cases hv : r.accepts v = true
      · cases (exec_cfgWr_of_accepts r hrun hr hv).symm.trans he
        exact ⟨r, rfl, hv, rfl⟩
      · exact absurd (exec_cfgWr_of_not_accepts r hrun hr hv) (not_error (by decide))

end Sys2Proof.Machine

namespace Sys2Proof

open Machine

/-- Settles O11: an OK says that the register took the value, and the register gives back what it took. -/
theorem writtenRegisterReadsBack : Obligations.WrittenRegisterReadsBack := by
  intro s t idx v he hok
  obtain ⟨r, hr, hv, hblk⟩ := cfgWr_accepted_of_ok he hok
  have hread : readCfg r t.blk = some v := by rw [hblk, readCfg_writeCfg_of_accepts s.blk hv]
  rw [exec_cfgRd_of_cfg r t (regOfIndex_of_cfg hr), hread, cfgAnswer]

end Sys2Proof
end
